-- ==== Sys2Proof/Word.lean ====
section
/-! DEFINITION. Words, lanes and slots (spec 00_scope.md R3, R9, R11; 10_state.md R30). -/

namespace Sys2Proof

/-- A byte of the state space, as a platform bus with byte lanes would carry it (20_memory.md R81). -/
abbrev Byte := BitVec 8

/-- A word: 32 bits, numbered 31 down to 0 (R9). A datapath word is a binary32 pattern (R10). -/
abbrev Word := BitVec 32

/-- One of the four lanes (R3). -/
abbrev Lane := Fin 4

/-- One of the eight slots of an array of a bank (R30). -/
abbrev Slot := Fin 8

def allLanes : List Lane := [0, 1, 2, 3]

def allSlots : List Slot := [0, 1, 2, 3, 4, 5, 6, 7]

/-- A 4-lane vector: an input vector `x[0..3]` or an output vector `y[0..3]` (30_encoding.md R119). -/
structure Lanes where
  l0 : Word
  l1 : Word
  l2 : Word
  l3 : Word
  deriving DecidableEq, Repr

def Lanes.at (x : Lanes) (l : Lane) : Word :=
  match l with
  | 0 => x.l0
  | 1 => x.l1
  | 2 => x.l2
  | 3 => x.l3

def Lanes.ofFn (f : Lane → Word) : Lanes := ⟨f 0, f 1, f 2, f 3⟩

def Lanes.toList (x : Lanes) : List Word := [x.l0, x.l1, x.l2, x.l3]

end Sys2Proof
end

