-- ==== Sys2Proof/Config.lean ====
section
/-! DEFINITION. The implementation parameters of spec 00_scope.md R5 (and 93_implementation_defined.md
section 2), and the NaN draws of 40_numerics.md R153. A model takes them as arguments; the machine of this
package takes them from `Config.hw`, an opaque constant of which nothing can be proved beyond its type. -/

namespace Sys2Proof

/-- The parameters R5 leaves open, as an implementation supplies them. The functions are raw: the properties
40_numerics.md R160 to R163 require of them are imposed where they are used (Machine/Functions.lean). -/
structure Params where
  /-- N_INST - 1, so that N_INST is an integer 1..16 (R5, D3). -/
  nInstM1 : BitVec 4
  /-- DENORM_MODE: true is `ftz`, false is `ieee` (40_numerics.md R152). -/
  ftz : Bool
  /-- FASTSIN (R160). -/
  fastSin : Word → Word
  /-- FASTCOS (R160). -/
  fastCos : Word → Word
  /-- FASTTAN (R161). -/
  fastTan : Word → Word
  /-- SAT_TANH (R162). -/
  satTanh : Word → Word
  /-- SAT_SOFT (R163). -/
  satSoft : Word → Word
  /-- SOFT_BOUND (R163). -/
  softBound : Word
  /-- TUNE, the tuning provider's ratio function (60_exceptions.md R383). -/
  tune : Word → Word
  /-- REF_FREQ, the tuning provider's reference frequency (R383). -/
  refFreq : Word
  /-- The sign and payload of NaN results (40_numerics.md R153), a draw for each operation: the command's
  draw counter, the scope inside the command, the operation inside the scope. -/
  nanDraw : Nat → Nat → Nat → Word
  /-- The NaN an assembler writes for `fl(1/fs)` of a NaN `fs` (30_encoding.md R127, 40_numerics.md R153;
  log 24). -/
  asmNaN : Word → Word
  /-- CSR_BASE, the system address of the control space (20_memory.md R83). No rule reads it. -/
  csrBase : Nat
  /-- STATE_BASE, the system address of the state space (R83). No rule reads it. -/
  stateBase : Nat
  deriving Inhabited

/-- N_INST, the number of FilterState banks, 1..16 (R5, 10_state.md R30). -/
def Params.nInst (p : Params) : Nat := p.nInstM1.toNat + 1

/-- The parameters of the hardware: OPEN (R5), so free values of the model. -/
opaque Config.hw : Params

end Sys2Proof
end

