-- ==== Sys2Proof/Machine/Float.lean ====
section
/-! DEFINITION. Binary32 arithmetic (spec 40_numerics.md R150 to R158), on words. A finite word is read as a
whole number of units of 2^-149, so that every operation is computed exactly on integers and rounded once. -/

namespace Sys2Proof.Machine

/-- The arithmetic a command computes with: DENORM_MODE (R152) and the draws for the NaN results of one scope
(R153). The number an operation below takes first names its own draw in that scope. -/
structure Fp where
  ftz : Bool
  nan : Nat → Word

/-! ### Fields and classes (00_scope.md R10) -/

def signOf (w : Word) : Bool := w.getLsbD 31

/-- Bits 30:0, which order the magnitudes of all words but NaNs. -/
def magOf (w : Word) : Nat := (w.extractLsb' 0 31).toNat

/-- The magnitude bits of an infinity. -/
def infMag : Nat := 0x7F800000

def isNaN (w : Word) : Bool := decide (infMag < magOf w)

def isInf (w : Word) : Bool := decide (magOf w = infMag)

/-- `isfinite(v)` (R158). -/
def isFinite (w : Word) : Bool := decide (magOf w < infMag)

def isZero (w : Word) : Bool := decide (magOf w = 0)

def isSubnormal (w : Word) : Bool := decide (0 < magOf w) && decide (magOf w < 0x00800000)

/-! ### Exact values -/

/-- The value of finite magnitude bits, in units of 2^-149. -/
def unitsOfMag (m : Nat) : Nat :=
  if m < 2 ^ 23 then m else (m % 2 ^ 23 + 2 ^ 23) * 2 ^ (m / 2 ^ 23 - 1)

/-- The value of a finite word, in units of 2^-149. -/
def signedUnits (w : Word) : Int :=
  if signOf w then -(unitsOfMag (magOf w) : Int) else (unitsOfMag (magOf w) : Int)

/-! ### Rounding to nearest, ties to even (R150) -/

/-- The natural number nearest to `n / d`, the even one on a tie. -/
def roundNat (n d : Nat) : Nat :=
  let q := n / d
  let r := n % d
  if 2 * r < d then q else if d < 2 * r then q + 1 else q + q % 2

/-- The magnitude bits of `n / d` units of 2^-149, rounded to nearest even; overflow gives infinity. With `k`
binades above the lowest two the spacing is 2^k units, and `k * 2^23 + m` are the bits of `m * 2^k` units for
m from 2^23 to 2^24 (for k = 0, from 0). -/
def roundMag (n d : Nat) : Nat :=
  let k := Nat.log2 (n / d) - 23
  min (k * 2 ^ 23 + roundNat n (d * 2 ^ k)) infMag

/-- The word of a sign and magnitude bits. -/
def pack (s : Bool) (m : Nat) : Word := BitVec.ofNat 32 (m + if s then 2 ^ 31 else 0)

/-! ### Subnormals and NaNs -/

/-- Under `ftz` a subnormal is a zero of the same sign (R152). -/
def Fp.flush (fp : Fp) (w : Word) : Word :=
  if isSubnormal w && fp.ftz then w &&& 0x80000000 else w

/-- A NaN result: any sign and any payload (R153; log 3). -/
def Fp.drawNaN (fp : Fp) (k : Nat) : Word :=
  if isNaN (fp.nan k) then fp.nan k else 0x7FC00000

/-! ### Operations -/

/-- Unary minus: "flips the sign bit only and is exact" (R150). -/
def fneg (w : Word) : Word := w ^^^ 0x80000000

/-- The sum of two operands that are read as they stand. -/
def addRead (fp : Fp) (k : Nat) (a b : Word) : Word :=
  if isNaN a || isNaN b then fp.drawNaN k
  else if isInf a then (if isInf b && (signOf a != signOf b) then fp.drawNaN k else a)
  else if isInf b then b
  else
    let n := signedUnits a + signedUnits b
    if n = 0 then (if signOf a && signOf b then 0x80000000 else 0)
    else fp.flush (pack (decide (n < 0)) (roundMag n.natAbs 1))

/-- The product of two operands that are read as they stand. -/
def mulRead (fp : Fp) (k : Nat) (a b : Word) : Word :=
  let s := signOf a != signOf b
  if isNaN a || isNaN b then fp.drawNaN k
  else if isInf a || isInf b then (if isZero a || isZero b then fp.drawNaN k else pack s infMag)
  else fp.flush (pack s (roundMag (unitsOfMag (magOf a) * unitsOfMag (magOf b)) (2 ^ 149)))

/-- The quotient of two operands that are read as they stand. -/
def divRead (fp : Fp) (k : Nat) (a b : Word) : Word :=
  let s := signOf a != signOf b
  if isNaN a || isNaN b then fp.drawNaN k
  else if isInf a then (if isInf b then fp.drawNaN k else pack s infMag)
  else if isInf b then pack s 0
  else if isZero b then (if isZero a then fp.drawNaN k else pack s infMag)
  else fp.flush (pack s (roundMag (unitsOfMag (magOf a) * 2 ^ 149) (unitsOfMag (magOf b))))

/-- `a + b` (R150 to R153), its NaN draw numbered `k`. -/
def Fp.add (fp : Fp) (k : Nat) (a b : Word) : Word := addRead fp k (fp.flush a) (fp.flush b)

/-- `a - b`. -/
def Fp.sub (fp : Fp) (k : Nat) (a b : Word) : Word := addRead fp k (fp.flush a) (fneg (fp.flush b))

/-- `a * b`. -/
def Fp.mul (fp : Fp) (k : Nat) (a b : Word) : Word := mulRead fp k (fp.flush a) (fp.flush b)

/-- `a / b`. -/
def Fp.div (fp : Fp) (k : Nat) (a b : Word) : Word := divRead fp k (fp.flush a) (fp.flush b)

/-! ### Comparisons (R155) and CLAMP (R156) -/

/-- An integer that orders the words that are no NaN; both zeros are 0. -/
def orderKey (w : Word) : Int := if signOf w then -(magOf w : Int) else (magOf w : Int)

/-- `a < b`: false when either is a NaN (R155). Under `ftz` a comparison, too, reads a subnormal as a zero
(R152; log 10). -/
def Fp.lt (fp : Fp) (a b : Word) : Bool :=
  !isNaN a && !isNaN b && decide (orderKey (fp.flush a) < orderKey (fp.flush b))

/-- `a >= b` (42_bilinear_coeff_mapper.md R231). -/
def Fp.ge (fp : Fp) (a b : Word) : Bool :=
  !isNaN a && !isNaN b && decide (orderKey (fp.flush b) ≤ orderKey (fp.flush a))

/-- CLAMP(x, lo, hi) (R156). -/
def Fp.clamp (fp : Fp) (x lo hi : Word) : Word :=
  if fp.lt x lo then lo else if fp.lt hi x then hi else x

/-- `float(N)` (R157). -/
def floatOfNat (n : Nat) : Word := pack false (roundMag (n * 2 ^ 149) 1)

end Sys2Proof.Machine
end

