-- ==== Sys2Proof/Syntax.lean ====
section
/-! DEFINITION. The instructions of the block, one constructor for each row of opcode_table.json
(spec 30_encoding.md R124), with their operand words (R119), and the inputs the outside world can give the
block: the host-port transactions of 20_memory.md R76 to R79 and 30_encoding.md R110, and the reset event of
70_reset_and_hazards.md R400. -/

namespace Sys2Proof

/-- FTYPE, the filter type of Family A (30_encoding.md R113, R125). -/
inductive FilterType
  | lp | hp | notch | bp | ap
  deriving DecidableEq, Repr

/-- HPSEL, the mode of Family B (R113, R125), and the variant of a Family B processor (R112). -/
inductive PassMode
  | lp | hp
  deriving DecidableEq, Repr

/-- SATK, the saturator kind of Family A (R113, R125). -/
inductive SatKind
  | tanh | soft
  deriving DecidableEq, Repr

/-- The ten commands. `ramp` is RAMP (the ramp length N), `inst` is INST (the bank b), `mask` is MASK, `nstg`
is NSTG (the stage count minus one), `satk` is SATK (R111, R113); the words after them are the operands
o[0..k-1] of R119. -/
inductive Instr
  | mkcaLp    (ramp : BitVec 12) (inst mask : BitVec 4) (pitch reso : Word)
  | mkcaHp    (ramp : BitVec 12) (inst mask : BitVec 4) (pitch reso : Word)
  | mkcaNotch (ramp : BitVec 12) (inst mask : BitVec 4) (pitch reso : Word)
  | mkcaBp    (ramp : BitVec 12) (inst mask : BitVec 4) (pitch reso : Word)
  | mkcaAp    (ramp : BitVec 12) (inst mask : BitVec 4) (pitch reso : Word)
  | mkcbLp    (ramp : BitVec 12) (inst mask : BitVec 4) (pitch reso drive : Word)
  | mkcbHp    (ramp : BitVec 12) (inst mask : BitVec 4) (pitch reso drive : Word)
  | proca     (nstg : BitVec 2) (satk : SatKind) (inst : BitVec 4) (x : Lanes)
  | procblp   (inst : BitVec 4) (x : Lanes)
  | procbhp   (inst : BitVec 4) (x : Lanes)
  deriving DecidableEq, Repr

/-- The INST field of a command (R115). -/
def Instr.inst : Instr → BitVec 4
  | .mkcaLp _ b _ _ _ | .mkcaHp _ b _ _ _ | .mkcaNotch _ b _ _ _ | .mkcaBp _ b _ _ _ | .mkcaAp _ b _ _ _ => b
  | .mkcbLp _ b _ _ _ _ | .mkcbHp _ b _ _ _ _ => b
  | .proca _ _ b _ | .procblp b _ | .procbhp b _ => b

/-- One input to the block. A state-space address has 13 bits (20_memory.md R72), a control-space offset 8
(R71). A command is given as its words: the command word first, then the operand words (30_encoding.md R110). -/
inductive HostInput
  /-- ST_RD(a) (20_memory.md R76). -/
  | stRd (a : BitVec 13)
  /-- ST_WR(a, v) (R77). -/
  | stWr (a : BitVec 13) (v : Word)
  /-- CSR_RD(o) (R78). -/
  | csrRd (o : BitVec 8)
  /-- CSR_WR(o, v) (R79). -/
  | csrWr (o : BitVec 8) (v : Word)
  /-- CMD(w, o[0..k-1]) (30_encoding.md R110). -/
  | cmd (words : List Word)
  /-- The hardware reset event, not a transaction (70_reset_and_hazards.md R400). -/
  | hwReset
  deriving DecidableEq, Repr

end Sys2Proof
end

