-- ==== Sys2Proof/WellFormed.lean ====
section
/-! DEFINITION. What makes an instruction or an input one the host may issue (spec 30_encoding.md R115, R121,
R123; 20_memory.md R75, R80). Every other field of `Instr` is of a type that holds only legal values. -/

namespace Sys2Proof

/-- A command names an existing bank: INST < N_INST (R115, R121). -/
def Instr.wf (nInst : Nat) (i : Instr) : Bool := decide (i.inst.toNat < nInst)

/-- The number k of operand words, by OP alone (R119, R123); none for a reserved OP, which "has no defined k". -/
def operandCount? (w : Word) : Option Nat :=
  match (w.extractLsb' 0 4).toNat with
  | 1 => some 2
  | 2 => some 3
  | 3 => some 4
  | 4 => some 4
  | 5 => some 4
  | _ => none

/-- The addresses and lengths a host may use: aligned and not reserved (20_memory.md R75, R80); a command of
one command word and exactly k operand words (30_encoding.md R123). That the command word decodes is
`decode`'s to say. -/
def HostInput.wf (nInst : Nat) : HostInput → Bool
  | .stRd a | .stWr a _ =>
    decide (a.toNat % 4 = 0) && decide (a.toNat % 0x200 < 0x180) && decide (a.toNat / 0x200 < nInst)
  | .csrRd o | .csrWr o _ => decide (o.toNat % 4 = 0) && decide (o.toNat < 0x10)
  | .cmd [] => false
  | .cmd (w :: os) => operandCount? w == some os.length
  | .hwReset => true

end Sys2Proof
end

