-- ==== Sys2Proof/Decode.lean ====
section
/-! DEFINITION. Decoding a command's words (spec 30_encoding.md R111 to R123), total on any list of words and
rejecting by name, and the encoder written from the same tables. -/

namespace Sys2Proof

/-- Why the words of a command are no command. -/
inductive DecodeError
  /-- A reserved word (R121). -/
  | reservedEncoding
  /-- INST >= N_INST (R115, R121). -/
  | instRange
  /-- Not one command word followed by exactly k operand words (R123). -/
  | operandCount
  deriving DecidableEq, Repr

/-! ### Fields of the command word (R111) -/

def opField (w : Word) : BitVec 4 := w.extractLsb' 0 4
def subField (w : Word) : BitVec 4 := w.extractLsb' 4 4
def maskField (w : Word) : BitVec 4 := w.extractLsb' 8 4
def instField (w : Word) : BitVec 4 := w.extractLsb' 12 4
def rampField (w : Word) : BitVec 12 := w.extractLsb' 16 12
def rsvField (w : Word) : BitVec 4 := w.extractLsb' 28 4

/-- SUB[1:0] of PROCA (R113). -/
def nstgField (w : Word) : BitVec 2 := w.extractLsb' 4 2

/-- SUB[2] of PROCA (R113, R125). -/
def satkField (w : Word) : SatKind := if w.getLsbD 6 then .soft else .tanh

/-- FTYPE = SUB[2:0] of MKCA where SUB[3] = 0; values 5, 6 and 7 are reserved (R113, R125). -/
def ftypeOf (sub : BitVec 4) : Option FilterType :=
  if sub = 0 then some .lp
  else if sub = 1 then some .hp
  else if sub = 2 then some .notch
  else if sub = 3 then some .bp
  else if sub = 4 then some .ap
  else none

/-- HPSEL = SUB[0] of MKCB where SUB[3:1] = 0 (R113, R125). -/
def hpselOf (sub : BitVec 4) : Option PassMode :=
  if sub = 0 then some .lp
  else if sub = 1 then some .hp
  else none

/-- A decoded command word, still without its operand words: what `decode(w)` of R120 returns. -/
inductive Header
  | mkca (ft : FilterType) (ramp : BitVec 12) (inst mask : BitVec 4)
  | mkcb (mode : PassMode) (ramp : BitVec 12) (inst mask : BitVec 4)
  | proca (nstg : BitVec 2) (satk : SatKind) (inst : BitVec 4)
  | procblp (inst : BitVec 4)
  | procbhp (inst : BitVec 4)
  deriving DecidableEq, Repr

/-- `decode(w)` of R120, its checks in the order written there. -/
def decodeHeader (nInst : Nat) (w : Word) : Except DecodeError Header :=
  if rsvField w ≠ 0 then .error .reservedEncoding
  else if nInst ≤ (instField w).toNat then .error .instRange
  else if opField w = 1 then
    match ftypeOf (subField w) with
    | none => .error .reservedEncoding
    | some ft => .ok (.mkca ft (rampField w) (instField w) (maskField w))
  else if opField w = 2 then
    match hpselOf (subField w) with
    | none => .error .reservedEncoding
    | some mode => .ok (.mkcb mode (rampField w) (instField w) (maskField w))
  else if opField w = 3 then
    if w.getLsbD 7 ∨ maskField w ≠ 0 ∨ rampField w ≠ 0 then .error .reservedEncoding
    else .ok (.proca (nstgField w) (satkField w) (instField w))
  else if opField w = 4 then
    if subField w ≠ 0 ∨ maskField w ≠ 0 ∨ rampField w ≠ 0 then .error .reservedEncoding
    else .ok (.procblp (instField w))
  else if opField w = 5 then
    if subField w ≠ 0 ∨ maskField w ≠ 0 ∨ rampField w ≠ 0 then .error .reservedEncoding
    else .ok (.procbhp (instField w))
  else .error .reservedEncoding

/-- The Family A maker of a filter type (R124). -/
def mkcaInstr (ft : FilterType) (n : BitVec 12) (b m : BitVec 4) (pitch reso : Word) : Instr :=
  match ft with
  | .lp => .mkcaLp n b m pitch reso
  | .hp => .mkcaHp n b m pitch reso
  | .notch => .mkcaNotch n b m pitch reso
  | .bp => .mkcaBp n b m pitch reso
  | .ap => .mkcaAp n b m pitch reso

/-- The Family B maker of a mode (R124). -/
def mkcbInstr (mode : PassMode) (n : BitVec 12) (b m : BitVec 4) (pitch reso drive : Word) : Instr :=
  match mode with
  | .lp => .mkcbLp n b m pitch reso drive
  | .hp => .mkcbHp n b m pitch reso drive

/-- The operand words o[0..k-1] joined to the command word (R118, R119, R123): exactly k of them. -/
def withOperands : Header → List Word → Option Instr
  | .mkca ft n b m, [pitch, reso] => some (mkcaInstr ft n b m pitch reso)
  | .mkcb mode n b m, [pitch, reso, drive] => some (mkcbInstr mode n b m pitch reso drive)
  | .proca n k b, [x0, x1, x2, x3] => some (.proca n k b ⟨x0, x1, x2, x3⟩)
  | .procblp b, [x0, x1, x2, x3] => some (.procblp b ⟨x0, x1, x2, x3⟩)
  | .procbhp b, [x0, x1, x2, x3] => some (.procbhp b ⟨x0, x1, x2, x3⟩)
  | _, _ => none

/-- The instruction a command's words stand for in a block of `nInst` banks (R110, R120, R123). -/
def decode (nInst : Nat) (ws : List Word) : Except DecodeError Instr :=
  match ws with
  | [] => .error .operandCount
  | w :: os =>
    match decodeHeader nInst w with
    | .error e => .error e
    | .ok h =>
      match withOperands h os with
      | none => .error .operandCount
      | some i => .ok i

/-! ### The encoder (R111 to R113, R119, R124) -/

/-- A command word from its fields, most significant first (R111). RSV is 0 (R117). -/
def commandWord (ramp : BitVec 12) (inst mask sub op : BitVec 4) : Word :=
  0#4 ++ ramp ++ inst ++ mask ++ sub ++ op

/-- SATK of R125. -/
def satkBit : SatKind → BitVec 1
  | .tanh => 0
  | .soft => 1

/-- The words of an instruction: the command word, then the operand words (R110, R123). -/
def encode : Instr → List Word
  | .mkcaLp n b m pitch reso => [commandWord n b m 0 1, pitch, reso]
  | .mkcaHp n b m pitch reso => [commandWord n b m 1 1, pitch, reso]
  | .mkcaNotch n b m pitch reso => [commandWord n b m 2 1, pitch, reso]
  | .mkcaBp n b m pitch reso => [commandWord n b m 3 1, pitch, reso]
  | .mkcaAp n b m pitch reso => [commandWord n b m 4 1, pitch, reso]
  | .mkcbLp n b m pitch reso drive => [commandWord n b m 0 2, pitch, reso, drive]
  | .mkcbHp n b m pitch reso drive => [commandWord n b m 1 2, pitch, reso, drive]
  | .proca nstg k b x => commandWord 0 b 0 (0#1 ++ satkBit k ++ nstg) 3 :: x.toList
  | .procblp b x => commandWord 0 b 0 0 4 :: x.toList
  | .procbhp b x => commandWord 0 b 0 0 5 :: x.toList

/-! ### The opcode table's numbering -/

/-- The words of a command whose first `nbits` bits are `w`, bit 0 the least significant of the command word
and operand words counting on from it; every bit above `nbits` is 0. -/
def tableWords (nbits w : Nat) : List Word :=
  let v := w % 2 ^ nbits
  let c := BitVec.ofNat 32 v
  c :: (List.range ((operandCount? c).getD 0)).map fun j => BitVec.ofNat 32 (v >>> (32 * (j + 1)))

/-- The instruction the decoder reads from a row of the opcode table. A row holds for every N_INST, and its
INST field takes every value at the largest, N_INST = 16 (R115, R124), so it is read there (log 13); a
machine's own decoder is `decode` at its own N_INST. -/
def decodeTableWord (nbits w : Nat) : Option Instr :=
  match decode 16 (tableWords nbits w) with
  | .ok i => some i
  | .error _ => none

end Sys2Proof
end

