-- ==== Sys2Proof/Machine/State.lean ====
section
/-! DEFINITION. The state of the block (spec 10_state.md), the reasons a step can stop (60_exceptions.md R370,
R371), and the state after reset (10_state.md R48, R49). -/

namespace Sys2Proof.Machine

/-- The three arrays of a bank (10_state.md R30). -/
inductive Region
  | C | dC | R
  deriving DecidableEq, Repr

/-- The name of one state word: `C[b][i][l]`, `dC[b][i][l]` or `R[b][j][l]` (10_state.md R30, 00_scope.md
R11). -/
structure WordRef where
  region : Region
  bank : Nat
  slot : Slot
  lane : Lane
  deriving DecidableEq, Repr

/-- The state space (20_memory.md R72): the bytes written since reset, by byte address, in one canonical form
(`Memory.wf`, Machine/Ops.lean). An unlisted byte is unwritten (10_state.md R48; log 4); what a word of such
bytes holds is `resetWord`. -/
structure Memory where
  cells : List Host.Cell
  deriving DecidableEq, Repr

/-- What a word of C, dC or R holds until something writes it. "The hardware computes with whatever the word
holds" (60_exceptions.md R372), and R48 gives no value: DESIGN CHOICE, unsafe (log 5). -/
def resetWord : Word := 0x00000000

/-- Why a step faults: for no reason, since the block "raises no exception, takes no trap and signals no error"
(60_exceptions.md R370). UNINIT_READ is the record of a model's run, "not a hardware event" (R372): see
`State.uninit` and Machine/Run.lean. -/
inductive Fault
  deriving DecidableEq, Repr

/-- Why a step is refused: the spec gives the block no behaviour there (60_exceptions.md R371). -/
inductive Refusal
  /-- An instruction of the opcode table without a meaning. Raised by an arm of `exec` only; no arm does.
  Safe. -/
  | notModelled (mnemonic : String)
  /-- RESERVED_ENCODING (30_encoding.md R121). Raised by the decoder, for a command input. Safe. -/
  | reservedEncoding
  /-- INST_RANGE (R115, R121). Raised by the decoder, for a command input. Safe. -/
  | instRange
  /-- A command input without exactly k operand words (R123): no transaction of the spec (log 9). Raised by
  the decoder. Safe. -/
  | operandCount
  /-- MISALIGNED (20_memory.md R75). Raised by ST_RD, ST_WR, CSR_RD and CSR_WR. Safe. -/
  | misaligned
  /-- RESERVED_ADDRESS (20_memory.md R80). Raised by ST_RD, ST_WR, CSR_RD and CSR_WR. Safe. -/
  | reservedAddress
  /-- SR_INVALID (42_bilinear_coeff_mapper.md R231). Raised by MKCA and MKCB. Safe. -/
  | srInvalid
  deriving DecidableEq, Repr

/-- The state. CFG and STATUS[31:1] are hard-wired (10_state.md R41, R42) and so are no fields: see `cfgWord`
and `statusWord` in Machine/Ops.lean. -/
structure State where
  /-- C, dC and R of every bank (10_state.md R30). -/
  mem : Memory
  /-- SR, the sample rate (R43). -/
  sr : Word
  /-- SR_INV, the sample-rate reciprocal (R43). -/
  srInv : Word
  /-- STATUS.NF, the sticky non-finite flag (R44). -/
  nf : Bool
  /-- The model's own: the inputs still to come, the next one first (log 7). -/
  pending : List HostInput
  /-- The model's own: the words the latest input returned (30_encoding.md R110, R119; log 8). -/
  results : List Word
  /-- The model's own: the pitch the latest input sent to the tuning provider (60_exceptions.md R383; log 8). -/
  query : Option Word
  /-- The model's own: the first word unwritten since reset that the latest input read (R372, R374), none if it
  read none (log 8). -/
  uninit : Option WordRef
  /-- The model's own: the number of commands completed, which names their NaN draws (40_numerics.md R153;
  log 3). -/
  draws : Nat
  deriving DecidableEq, Repr

/-- The state after a hardware reset (10_state.md R48, R49; 70_reset_and_hazards.md R400): SR = SR_INV = +0.0,
NF = 0, every word of C, dC and R unwritten and holding `resetWord`. The model's own fields start empty (logs
3, 7, 8). -/
def State.reset : State :=
  { mem := ⟨[]⟩, sr := 0, srInv := 0, nf := false,
    pending := [], results := [], query := none, uninit := none, draws := 0 }

end Sys2Proof.Machine
end

