-- ==== Sys2Proof/Machine/Ops.lean ====
section
/-! DEFINITION. The named operations over the state space, the control registers and the draws. The block
takes no exception and has none to return from (spec 60_exceptions.md R370, R375), so there is no operation
for either. -/

namespace Sys2Proof.Machine

/-! ### Addresses of the state space (20_memory.md R72) -/

/-- The offset of an array in its bank. -/
def Region.offset : Region → Nat
  | .C => 0x000
  | .dC => 0x080
  | .R => 0x100

/-- `addr_C`, `addr_dC` and `addr_R`: the byte address of a state word. It follows R72's formula, which puts
dC[0][7][3] at 0x0FC; the example of R73 says 0x0BC, which is dC[0][3][3] by the formula (DEDUCED, log 23). -/
def WordRef.addr (w : WordRef) : Nat :=
  w.bank * 0x200 + w.region.offset + w.slot.val * 0x10 + w.lane.val * 4

/-- a[8:7]: 0 is C, 1 is dC, 2 is R and 3 is reserved. -/
def regionOf (r : BitVec 2) : Option Region :=
  if r = 0 then some .C else if r = 1 then some .dC else if r = 2 then some .R else none

/-- The state word at an aligned address, or none where it is reserved: region 3, or a bank >= N_INST
(20_memory.md R72, R80). -/
def decodeAddr (nInst : Nat) (a : BitVec 13) : Option WordRef :=
  if nInst ≤ (a.extractLsb' 9 4).toNat then none
  else (regionOf (a.extractLsb' 7 2)).map fun r =>
    ⟨r, (a.extractLsb' 9 4).toNat, (a.extractLsb' 4 3).toFin, (a.extractLsb' 2 2).toFin⟩

/-- The system address of a state-space address and of a control-space offset (20_memory.md R83). -/
def stateSystemAddr (p : Params) (a : BitVec 13) : Nat := p.stateBase + a.toNat

def csrSystemAddr (p : Params) (o : BitVec 8) : Nat := p.csrBase + o.toNat

/-! ### Cells -/

/-- The byte at an address: the first cell that lists it. -/
def lookupCell : List Host.Cell → Nat → Option Byte
  | [], _ => none
  | (k, v) :: t, a => if k = a then some v else lookupCell t a

/-- Write a byte, keeping addresses rising. -/
def insertCell (a : Nat) (v : Byte) : List Host.Cell → List Host.Cell
  | [] => [(a, v)]
  | (k, w) :: t =>
    if a < k then (a, v) :: (k, w) :: t
    else if a = k then (a, v) :: t
    else (k, w) :: insertCell a v t

/-- The canonical form: addresses strictly rising. An unlisted byte reads as unwritten, and no listed one does, so
equal state spaces are equal lists (log 4). -/
def Memory.wf (m : Memory) : Bool := decide ((m.cells.map Prod.fst).Pairwise (· < ·))

/-- One byte of the state space, none where it is unwritten since reset. -/
def Memory.byte (m : Memory) (a : Nat) : Option Byte := lookupCell m.cells a

/-! ### Words (20_memory.md R74, R81) -/

/-- The word whose lowest byte is at `a`, little-endian (R81), none where it is unwritten since reset. -/
def Memory.wordAt (m : Memory) (a : Nat) : Option Word :=
  match m.byte a, m.byte (a + 1), m.byte (a + 2), m.byte (a + 3) with
  | some b0, some b1, some b2, some b3 => some (b3 ++ b2 ++ b1 ++ b0)
  | _, _, _, _ => none

/-- Write the word whose lowest byte is at `a`. -/
def Memory.setWordAt (m : Memory) (a : Nat) (v : Word) : Memory :=
  ⟨insertCell a (v.extractLsb' 0 8) (insertCell (a + 1) (v.extractLsb' 8 8)
    (insertCell (a + 2) (v.extractLsb' 16 8) (insertCell (a + 3) (v.extractLsb' 24 8) m.cells)))⟩

/-- A state word, none where it is unwritten since reset (10_state.md R48). -/
def Memory.word (m : Memory) (w : WordRef) : Option Word := m.wordAt w.addr

/-- What a state word holds: what was written, or else its value at reset (log 5). Every read of the block is
this one. -/
def Memory.get (m : Memory) (w : WordRef) : Word := (m.word w).getD resetWord

/-- Write a state word. -/
def Memory.set (m : Memory) (w : WordRef) (v : Word) : Memory := m.setWordAt w.addr v

/-- Write a list of state words, the first of the list first. -/
def Memory.setAll (m : Memory) (ws : List (WordRef × Word)) : Memory :=
  ws.foldl (fun m' wv => m'.set wv.1 wv.2) m

/-- The first word of a list of reads that is unwritten since reset (60_exceptions.md R372, R374). -/
def firstUnwritten (m : Memory) (reads : List WordRef) : Option WordRef :=
  reads.find? fun w => (m.word w).isNone

/-! ### Control and status registers (10_state.md R41 to R44) -/

/-- CFG (R42), hard-wired, from its most significant field down. -/
def cfgWord (p : Params) : Word :=
  0#8 ++ p.nInstM1 ++ 4#4 ++ 3#4 ++ 8#4 ++ 8#4 ++ 5#4

/-- What a read of STATUS returns: `zext_32(NF)` (20_memory.md R78). -/
def statusWord (s : State) : Word := if s.nf then 1 else 0

/-- The CSR at offset 0x00, 0x04, 0x08 or 0x0C (R41); nothing at another offset. -/
def csrRead (p : Params) (s : State) (o : BitVec 8) : Option Word :=
  if o = 0x00 then some (cfgWord p)
  else if o = 0x04 then some s.sr
  else if o = 0x08 then some s.srInv
  else if o = 0x0C then some (statusWord s)
  else none

/-- A write to a CSR (20_memory.md R79): CFG and STATUS[31:1] ignore it, STATUS bit 0 is write-1-to-clear. -/
def csrWrite (s : State) (o : BitVec 8) (v : Word) : State :=
  if o = 0x04 then { s with sr := v }
  else if o = 0x08 then { s with srInv := v }
  else if o = 0x0C then { s with nf := s.nf && !v.getLsbD 0 }
  else s

/-! ### What an input answers -/

/-- The state after a host access: the state words it read, what it returns to the host; no tuning query. -/
def State.answer (s : State) (reads : List WordRef) (ys : List Word) : State :=
  { s with results := ys, query := none, uninit := firstUnwritten s.mem reads }

/-- The hardware reset event (70_reset_and_hazards.md R400): the state of reset. The inputs still to come and
the naming of the NaN draws are no state of the block (logs 3, 7, 22). -/
def State.hwReset (s : State) : State := { State.reset with pending := s.pending, draws := s.draws }

end Sys2Proof.Machine
end

