-- ==== Sys2Proof/Machine/Flags.lean ====
section
/-! DEFINITION. STATUS.NF, the block's only flag (spec 10_state.md R44, R46), and the completion of a command,
which sets it (60_exceptions.md R373). -/

namespace Sys2Proof.Machine

/-- A value among these is a NaN or an infinity. -/
def anyNonFinite (vs : List Word) : Bool := vs.any fun v => !isFinite v

/-- NF after a command that writes `written` to C, dC or R and returns `ys` (R373): sticky. -/
def nfAfter (nf : Bool) (written ys : List Word) : Bool := nf || anyNonFinite written || anyNonFinite ys

/-- A command completes (30_encoding.md R110, 20_memory.md R84): it has read `reads`, it makes its writes `ws`,
returns `ys`, sets NF, and has asked the tuning provider `q`. -/
def State.complete (s : State) (reads : List WordRef) (ws : List (WordRef × Word)) (ys : List Word)
    (q : Option Word) : State :=
  { s with
    mem := s.mem.setAll ws
    nf := nfAfter s.nf (ws.map Prod.snd) ys
    results := ys
    query := q
    uninit := firstUnwritten s.mem reads
    draws := s.draws + 1 }

end Sys2Proof.Machine
end

