-- ==== Sys2Proof/Machine/Constants.lean ====
section
/-! DEFINITION. The literal constants of the rules, as binary32 patterns (spec 40_numerics.md R159), the
unaudited ones under the names 93_implementation_defined.md section 3 gives them. -/

namespace Sys2Proof.Machine.Const

def piF : Word := 0x40490FDB
/-- 5 Hz. -/
def fMin : Word := 0x40A00000
/-- 0.3. -/
def fMaxFrac : Word := 0x3E99999A
/-- 18. -/
def qScale : Word := 0x41900000
/-- 0.1. -/
def qMin : Word := 0x3DCCCCCD
/-- 1.96, the scaling of the resonance (K_SCALE). -/
def kScale : Word := 0x3FFAE148
/-- 1.96, the upper end of the clamp (K_MAX). -/
def kMax : Word := 0x3FFAE148
/-- 0.01. -/
def kMin : Word := 0x3C23D70A
/-- +0.0. -/
def zero : Word := 0x00000000
def half : Word := 0x3F000000
def negHalf : Word := 0xBF000000
def one : Word := 0x3F800000
def negOne : Word := 0xBF800000
def two : Word := 0x40000000
def negTwo : Word := 0xC0000000
def three : Word := 0x40400000
def negThree : Word := 0xC0400000
def nine : Word := 0x41100000
def twentySeven : Word := 0x41D80000
def oneAndHalf : Word := 0x3FC00000
def negOneAndHalf : Word := 0xBFC00000
/-- 4/27. -/
def fourOver27 : Word := 0x3E17B426

end Sys2Proof.Machine.Const
end

