-- ==== Sys2Proof/Machine/Functions.lean ====
section
/-! DEFINITION. The configuration functions of spec 40_numerics.md R160 to R163, with the properties those
rules, R232 and R285 require. Each is the implementation's raw function, replaced at an operand only where it breaks its
rule there (log 2): a conforming raw function is left as it is, so the functions below range over exactly the
conforming ones. -/

namespace Sys2Proof.Machine

/-- `raw` where it is `ok`, else `other`. -/
def conform (ok : Word → Bool) (other raw : Word) : Word := if ok raw then raw else other

/-- The largest w MKCA can give: fl(PI_F * 0.6) one ulp up (R160; log 12). -/
def sinArgMax : Nat := 0x3FF1463C

/-- The largest arg MKCB can give, "about 0.3*pi, that is 0.9425" (R161; log 12). -/
def tanArgMax : Nat := 0x3F7147AE

/-- A word is a positive number of magnitude bits at most `m` (a sign bit makes `toNat` larger). -/
def positiveUpTo (m : Nat) (w : Word) : Bool := decide (0 < w.toNat) && decide (w.toNat ≤ m)

/-- A configured function of an angle at `w`, its raw value `raw`: a NaN for a NaN, as "every target is NaN"
needs where f is one (42_bilinear_coeff_mapper.md R232; log 2); inside the range of its arguments, `ok`. -/
def angleFunction (argMax : Nat) (ok : Word → Bool) (other w raw : Word) : Word :=
  if isNaN w then conform isNaN w raw else if positiveUpTo argMax w then conform ok other raw else raw

/-- FASTSIN (R160): 0 < FASTSIN(w) <= 1 for every w MKCA can give; a NaN of a NaN. -/
def fastSin (p : Params) (w : Word) : Word :=
  angleFunction sinArgMax (positiveUpTo 0x3F800000) Const.one w (p.fastSin w)

/-- FASTCOS (R160): -1 <= FASTCOS(w) <= 1 for every w MKCA can give; a NaN of a NaN. -/
def fastCos (p : Params) (w : Word) : Word :=
  angleFunction sinArgMax (fun r => decide (magOf r ≤ 0x3F800000)) Const.zero w (p.fastCos w)

/-- FASTTAN (R161): finite and > 0 for every argument MKCB can give; a NaN of a NaN. -/
def fastTan (p : Params) (w : Word) : Word :=
  angleFunction tanArgMax (positiveUpTo 0x7F7FFFFF) Const.one w (p.fastTan w)

/-- What is required of a saturator's result `r` at `x`: for a NaN, a NaN (R162, R163); else
-bound <= r <= bound, for a finite x by R162 and R163, and for an infinity because the saturator "maps ±inf to a
bounded value" (43_biquad_cascade_saturator.md R285; the bound of SAT_SOFT there: log 2). -/
def satOk (bound x r : Word) : Bool :=
  if isNaN x then isNaN r else decide (magOf r ≤ magOf bound)

/-- SAT_TANH (R162). -/
def satTanh (p : Params) (x : Word) : Word :=
  conform (satOk Const.one x) (if isNaN x then x else Const.zero) (p.satTanh x)

/-- SOFT_BOUND, a finite constant that is not negative (R163; log 15). -/
def softBound (p : Params) : Word :=
  conform (fun r => isFinite r && !signOf r) Const.one p.softBound

/-- SAT_SOFT (R163). -/
def satSoft (p : Params) (x : Word) : Word :=
  conform (satOk (softBound p) x) (if isNaN x then x else Const.zero) (p.satSoft x)

/-- SAT of PROCA (43_biquad_cascade_saturator.md R281). -/
def saturator (p : Params) (k : SatKind) : Word → Word :=
  match k with
  | .tanh => satTanh p
  | .soft => satSoft p

/-- The saturator's bound: 1 for SAT_TANH, SOFT_BOUND for SAT_SOFT (R162, R163). -/
def saturatorBound (p : Params) (k : SatKind) : Word :=
  match k with
  | .tanh => Const.one
  | .soft => softBound p

/-- Tune(pitch), the tuning query (60_exceptions.md R383). -/
def tune (p : Params) (pitch : Word) : Word := p.tune pitch

end Sys2Proof.Machine
end

