-- ==== Sys2Proof/Machine/Operands.lean ====
section
/-! DEFINITION. Operands of the commands: fields (spec 30_encoding.md R113 to R118), the coefficient and
register enumerations of the two families (10_state.md R33, R34, R36, R37), and the scopes of the NaN draws. -/

namespace Sys2Proof.Machine

/-! ### Fields -/

/-- b = zext(INST) (R118). -/
def bankOf (inst : BitVec 4) : Nat := inst.toNat

/-- The lanes MASK selects, in lane order (R114, 42_bilinear_coeff_mapper.md R230). -/
def maskLanes (mask : BitVec 4) : List Lane := allLanes.filter fun l => mask.getLsbD l.val

/-- n = zext(NSTG) + 1 (R118). -/
def stageCount (nstg : BitVec 2) : Nat := nstg.toNat + 1

/-! ### Scopes of NaN draws (40_numerics.md R153; log 3) -/

/-- The target computation of a maker. -/
def scopeTargets : Nat := 0

/-- The processing of lane `l` by a processor. -/
def scopeLane (l : Lane) : Nat := 1 + l.val

/-- The ramp arithmetic of slot `i`, lane `l`. -/
def scopeRamp (i : Slot) (l : Lane) : Nat := 8 + 4 * i.val + l.val

/-- The arithmetic of a scope of the command that `draws` names. -/
def arith (p : Params) (draws scope : Nat) : Fp := ⟨p.ftz, p.nanDraw draws scope⟩

/-! ### Family A (10_state.md R33, R36) -/

/-- The five coefficients of Family A. -/
structure CoeffsA where
  a1 : Word
  a2 : Word
  b0 : Word
  b1 : Word
  b2 : Word
  deriving DecidableEq, Repr

/-- The slots A_A1, A_A2, A_B0, A_B1, A_B2. -/
def slotA1 : Slot := 0
def slotA2 : Slot := 1
def slotB0 : Slot := 2
def slotB1 : Slot := 3
def slotB2 : Slot := 4

/-- The target vector T[0..7] (42_bilinear_coeff_mapper.md R235): +0.0 in the unused slots 5..7. -/
def CoeffsA.slot (c : CoeffsA) (i : Slot) : Word :=
  match i with
  | 0 => c.a1
  | 1 => c.a2
  | 2 => c.b0
  | 3 => c.b1
  | 4 => c.b2
  | _ => 0

/-- The Family A coefficients of a lane. -/
def coeffsA (m : Memory) (b : Nat) (l : Lane) : CoeffsA :=
  { a1 := m.get ⟨.C, b, slotA1, l⟩
    a2 := m.get ⟨.C, b, slotA2, l⟩
    b0 := m.get ⟨.C, b, slotB0, l⟩
    b1 := m.get ⟨.C, b, slotB1, l⟩
    b2 := m.get ⟨.C, b, slotB2, l⟩ }

/-- The register slots of stage s: A_Z1(s) = 2s and A_Z2(s) = 2s + 1 (R36). -/
def stageSlots : List (Slot × Slot) := [(0, 1), (2, 3), (4, 5), (6, 7)]

/-! ### Family B (10_state.md R34, R37) -/

/-- The eight coefficients of Family B, in slot order. -/
structure CoeffsB where
  g : Word
  lb : Word
  hb : Word
  k : Word
  alpha : Word
  sat : Word
  blend : Word
  binv : Word
  deriving DecidableEq, Repr

/-- The target vector T[0..7] (42_bilinear_coeff_mapper.md R245). -/
def CoeffsB.slot (c : CoeffsB) (i : Slot) : Word :=
  match i with
  | 0 => c.g
  | 1 => c.lb
  | 2 => c.hb
  | 3 => c.k
  | 4 => c.alpha
  | 5 => c.sat
  | 6 => c.blend
  | 7 => c.binv

/-- The Family B coefficients of a lane (R34): B_G, B_LB, B_HB, B_K, B_ALPHA, B_SAT, B_BLEND, B_BINV. -/
def coeffsB (m : Memory) (b : Nat) (l : Lane) : CoeffsB :=
  { g := m.get ⟨.C, b, 0, l⟩
    lb := m.get ⟨.C, b, 1, l⟩
    hb := m.get ⟨.C, b, 2, l⟩
    k := m.get ⟨.C, b, 3, l⟩
    alpha := m.get ⟨.C, b, 4, l⟩
    sat := m.get ⟨.C, b, 5, l⟩
    blend := m.get ⟨.C, b, 6, l⟩
    binv := m.get ⟨.C, b, 7, l⟩ }

/-- The register slots B_ZFIRST, B_ZSECOND and B_ZTHIRD (R37). -/
def slotZFirst : Slot := 0
def slotZSecond : Slot := 1
def slotZThird : Slot := 2

end Sys2Proof.Machine
end

