-- ==== Sys2Proof/Machine/Ramp.lean ====
section
/-! DEFINITION. coeff_ramp_interpolator: RAMP_SET and RAMP_STEP (spec 41_coeff_ramp_interpolator.md). They are
no commands; the makers run the first, the processors the second. -/

namespace Sys2Proof.Machine

/-! ### RAMP_SET (R201) -/

/-- The words RAMP_SET reads, for each lane MASK selects: C of the lane when N >= 1, nothing in a snap. -/
def rampSetReads (n : BitVec 12) (b : Nat) (mask : BitVec 4) : List WordRef :=
  if n = 0 then []
  else (maskLanes mask).flatMap fun l => allSlots.map fun i => ⟨.C, b, i, l⟩

/-- What RAMP_SET writes for slot `i` of lane `l`. A command stores no subnormal under `ftz` (40_numerics.md
R158; log 11). The ramp's difference and its quotient are two operations of R201, each rounded (R151), although
R202 and R205 derive a dC that is "rounded once" (DEDUCED, log 31). -/
def rampSetWord (fp : Fp) (m : Memory) (b : Nat) (t : Word) (n : BitVec 12) (i : Slot) (l : Lane) :
    List (WordRef × Word) :=
  if n = 0 then [(⟨.C, b, i, l⟩, fp.flush t), (⟨.dC, b, i, l⟩, 0)]
  else [(⟨.dC, b, i, l⟩, fp.div 1 (fp.sub 0 t (m.get ⟨.C, b, i, l⟩)) (floatOfNat n.toNat))]

/-- What RAMP_SET(b, l, T, N) writes, for each lane MASK selects. -/
def rampSetWrites (p : Params) (draws : Nat) (m : Memory) (b : Nat) (mask : BitVec 4) (t : Slot → Word)
    (n : BitVec 12) : List (WordRef × Word) :=
  (maskLanes mask).flatMap fun l => allSlots.flatMap fun i =>
    rampSetWord (arith p draws (scopeRamp i l)) m b (t i) n i l

/-! ### RAMP_STEP (R203) -/

/-- The words RAMP_STEP(b) reads, in its order. -/
def rampStepReads (b : Nat) : List WordRef :=
  allSlots.flatMap fun i => allLanes.flatMap fun l => [⟨.C, b, i, l⟩, ⟨.dC, b, i, l⟩]

/-- C + dC of one slot and lane, a rounded sum, which is all the ramp does: R410's "without bound" and "never
overshoots" (70_reset_and_hazards.md) hold of it only up to the rounding (DEDUCED, log 31). -/
def rampStepWord (p : Params) (draws : Nat) (m : Memory) (b : Nat) (i : Slot) (l : Lane) : Word :=
  (arith p draws (scopeRamp i l)).add 0 (m.get ⟨.C, b, i, l⟩) (m.get ⟨.dC, b, i, l⟩)

/-- What RAMP_STEP(b) writes: all eight slots of all four lanes. -/
def rampStepWrites (p : Params) (draws : Nat) (m : Memory) (b : Nat) : List (WordRef × Word) :=
  allSlots.flatMap fun i => allLanes.map fun l => (⟨.C, b, i, l⟩, rampStepWord p draws m b i l)

end Sys2Proof.Machine
end

