-- ==== Sys2Proof/Machine/Cascade.lean ====
section
/-! DEFINITION. biquad_cascade_saturator: the Family A Processor (spec 43_biquad_cascade_saturator.md) and the
meaning of PROCA. -/

namespace Sys2Proof.Machine

/-- What a biquad stage gives: its output and the two saturated registers it stores. -/
structure StageOut where
  out : Word
  r1 : Word
  r2 : Word
  deriving DecidableEq, Repr

/-- One stage (R281): transposed direct form II, the output unsaturated, both registers saturated. Its draws
are numbered from `k`. A command stores no subnormal under `ftz` (40_numerics.md R158; log 11). Finite operands can
overflow to inf - inf, a NaN register, although R284 derives that a NaN needs one that is not finite (DEDUCED,
log 30). -/
def biquadStage (fp : Fp) (k : Nat) (sat : Word → Word) (c : CoeffsA) (x z1 z2 : Word) : StageOut :=
  let out := fp.add (k + 1) (fp.mul k c.b0 x) z1
  let t1 := fp.add (k + 5) (fp.sub (k + 4) (fp.mul (k + 2) c.b1 x) (fp.mul (k + 3) c.a1 out)) z2
  let t2 := fp.sub (k + 8) (fp.mul (k + 6) c.b2 x) (fp.mul (k + 7) c.a2 out)
  { out := out, r1 := fp.flush (sat t1), r2 := fp.flush (sat t2) }

/-- The stages of one lane in series (R281, R282), stage `j` first: each takes the unsaturated output of the
one before it and owns one register pair of `zs`. The new pairs, and the output of the last stage. -/
def biquadChain (fp : Fp) (sat : Word → Word) (c : CoeffsA) : Nat → List (Word × Word) → Word →
    List (Word × Word) × Word
  | _, [], x => ([], x)
  | j, z :: zs, x =>
    let o := biquadStage fp (16 * j) sat c x z.1 z.2
    let r := biquadChain fp sat c (j + 1) zs o.out
    ((o.r1, o.r2) :: r.1, r.2)

/-- The register slots of the first `n` stages (10_state.md R36). -/
def procaSlots (n : Nat) : List (Slot × Slot) := stageSlots.take n

/-- The registers of the first `n` stages of a lane, as they stand. -/
def procaRegs (m : Memory) (b n : Nat) (l : Lane) : List (Word × Word) :=
  (procaSlots n).map fun z => (m.get ⟨.R, b, z.1, l⟩, m.get ⟨.R, b, z.2, l⟩)

/-- The words PROCA reads, in the order of R281's pseudocode. -/
def procaReads (n b : Nat) : List WordRef :=
  (allLanes.flatMap fun l => (procaSlots n).flatMap fun z =>
    [⟨.R, b, z.1, l⟩, ⟨.R, b, z.2, l⟩, ⟨.C, b, slotB0, l⟩, ⟨.C, b, slotB1, l⟩, ⟨.C, b, slotA1, l⟩,
     ⟨.C, b, slotB2, l⟩, ⟨.C, b, slotA2, l⟩])
  ++ rampStepReads b

/-- The new registers and the output of one lane. -/
def procaLane (p : Params) (draws : Nat) (m : Memory) (n : Nat) (satk : SatKind) (b : Nat) (x : Lanes)
    (l : Lane) : List (Word × Word) × Word :=
  biquadChain (arith p draws (scopeLane l)) (saturator p satk) (coeffsA m b l) 0 (procaRegs m b n l) (x.at l)

/-- What the stages of one lane write: slots 0 .. 2n-1 of R. -/
def procaLaneWrites (p : Params) (draws : Nat) (m : Memory) (n : Nat) (satk : SatKind) (b : Nat) (x : Lanes)
    (l : Lane) : List (WordRef × Word) :=
  ((procaSlots n).zip (procaLane p draws m n satk b x l).1).flatMap fun zr =>
    [(⟨.R, b, zr.1.1, l⟩, zr.2.1), (⟨.R, b, zr.1.2, l⟩, zr.2.2)]

/-- What PROCA writes: the registers, then RAMP_STEP's coefficients (R283). -/
def procaWrites (p : Params) (draws : Nat) (m : Memory) (n : Nat) (satk : SatKind) (b : Nat) (x : Lanes) :
    List (WordRef × Word) :=
  (allLanes.flatMap (procaLaneWrites p draws m n satk b x)) ++ rampStepWrites p draws m b

/-- PROCA(n, satk, b; x[0..3]) -> y[0..3] (R281). It completes whatever its words hold (60_exceptions.md R370,
R372). -/
def proca (p : Params) (nstg : BitVec 2) (satk : SatKind) (inst : BitVec 4) (x : Lanes) (s : State) :
    Host.Outcome State Fault Refusal :=
  let n := stageCount nstg
  let b := bankOf inst
  let y := Lanes.ofFn fun l => (procaLane p s.draws s.mem n satk b x l).2
  .next (s.complete (procaReads n b) (procaWrites p s.draws s.mem n satk b x) y.toList none)

/-- PROCA (R281). -/
def execProca (nstg : BitVec 2) (satk : SatKind) (inst : BitVec 4) (x : Lanes) (s : State) :
    Host.Outcome State Fault Refusal := proca Config.hw nstg satk inst x s

end Sys2Proof.Machine
end

