-- ==== Sys2Proof/Machine/Ladder.lean ====
section
/-! DEFINITION. ladder_filter_nlf: the Family B Processor (spec 44_ladder_filter_nlf.md), the one-pole
primitives it is built from (40_numerics.md R164, R165), and the meanings of PROCBLP and PROCBHP. -/

namespace Sys2Proof.Machine

/-! ### One-pole sections (40_numerics.md R164, R165) -/

/-- LPF1(G, x, z) -> (y, z'), its draws numbered from `k`. -/
def lpf1 (fp : Fp) (k : Nat) (g x z : Word) : Word × Word :=
  let v := fp.mul (k + 1) (fp.sub k x z) g
  let y := fp.add (k + 2) v z
  (y, fp.add (k + 3) y v)

/-- HPF1(G, x, z) -> (y, z'): the input minus the low-pass result, the same register update. -/
def hpf1 (fp : Fp) (k : Nat) (g x z : Word) : Word × Word :=
  let r := lpf1 fp k g x z
  (fp.sub (k + 4) x r.1, r.2)

/-- The section of the variant's own type: first and second (R321). -/
def ownSection (mode : PassMode) (fp : Fp) (k : Nat) (g x z : Word) : Word × Word :=
  match mode with
  | .lp => lpf1 fp k g x z
  | .hp => hpf1 fp k g x z

/-- The section of the other type: third (R321). -/
def otherSection (mode : PassMode) (fp : Fp) (k : Nat) (g x z : Word) : Word × Word :=
  match mode with
  | .lp => hpf1 fp k g x z
  | .hp => lpf1 fp k g x z

/-! ### One lane of the ladder (R325, R326) -/

/-- What one lane gives: its output and the three registers. -/
structure LadderOut where
  y : Word
  z1 : Word
  z2 : Word
  z3 : Word
  deriving DecidableEq, Repr

/-- The feedback sum s35 (R322): lb weights the low-pass section's register, hb the high-pass one's. -/
def feedbackSum (mode : PassMode) (fp : Fp) (c : CoeffsB) (z2 z3 : Word) : Word :=
  match mode with
  | .lp => fp.add 12 (fp.mul 10 c.lb z2) (fp.mul 11 c.hb z3)
  | .hp => fp.add 12 (fp.mul 10 c.hb z2) (fp.mul 11 c.lb z3)

/-- Steps (2) to (8) of one lane, on the coefficients as RAMP_STEP left them and the old registers. With k = 0
the last step divides zero by zero: the result is a NaN, as R328 and 70_reset_and_hazards.md R416 say, though
R402 says that a processor "returns zeros" on a bank that `initbank` cleared (DEDUCED, log 25). The drive blend is
R327's formula also where uc is -0.0 or an infinity and the values R327 derives from it do not hold (DEDUCED,
log 30). -/
def ladderLane (mode : PassMode) (fp : Fp) (sat : Word → Word) (c : CoeffsB) (x z1 z2 z3 : Word) : LadderOut :=
  let s1 := ownSection mode fp 0 c.g x z1
  let s35 := feedbackSum mode fp c z2 z3
  let uc := fp.mul 14 c.alpha (fp.add 13 s1.1 s35)
  let ud := sat (fp.mul 15 uc c.sat)
  let u := fp.add 18 (fp.mul 16 uc c.binv) (fp.mul 17 ud c.blend)
  let s2 := ownSection mode fp 20 c.g u z2
  let yk := fp.mul 25 c.k s2.1
  let s3 := otherSection mode fp 30 c.g yk z3
  { y := fp.div 35 yk c.k, z1 := s1.2, z2 := s2.2, z3 := s3.2 }

/-! ### The command -/

/-- The words a Family B processor reads: RAMP_STEP's, then each lane's registers in the order of R325's
pseudocode; by then every C has been written. -/
def procbReads (b : Nat) : List WordRef :=
  rampStepReads b ++ allLanes.flatMap fun l =>
    [⟨.R, b, slotZSecond, l⟩, ⟨.R, b, slotZThird, l⟩, ⟨.R, b, slotZFirst, l⟩]

/-- One lane on the stepped coefficients: `m1` is the memory after RAMP_STEP. -/
def procbLane (p : Params) (draws : Nat) (mode : PassMode) (m1 : Memory) (b : Nat) (x : Lanes) (l : Lane) :
    LadderOut :=
  ladderLane mode (arith p draws (scopeLane l)) (satTanh p) (coeffsB m1 b l) (x.at l)
    (m1.get ⟨.R, b, slotZFirst, l⟩) (m1.get ⟨.R, b, slotZSecond, l⟩) (m1.get ⟨.R, b, slotZThird, l⟩)

/-- What one lane writes: slots 0, 1 and 2 of R (10_state.md R37). -/
def procbLaneWrites (b : Nat) (l : Lane) (o : LadderOut) : List (WordRef × Word) :=
  [(⟨.R, b, slotZFirst, l⟩, o.z1), (⟨.R, b, slotZSecond, l⟩, o.z2), (⟨.R, b, slotZThird, l⟩, o.z3)]

/-- PROCBLP (R325) and PROCBHP (R326): step (1) is RAMP_STEP, and every C is read after it. So a zero the host
writes to C[B_K] during a ramp has become 0 + dC when it is read, and gives a NaN only where that is a zero, although
70_reset_and_hazards.md R416 derives that every later output is a NaN (DEDUCED, log 32). It completes whatever its
words hold (60_exceptions.md R370, R372). -/
def procb (p : Params) (mode : PassMode) (inst : BitVec 4) (x : Lanes) (s : State) :
    Host.Outcome State Fault Refusal :=
  let b := bankOf inst
  let ramp := rampStepWrites p s.draws s.mem b
  let lane := procbLane p s.draws mode (s.mem.setAll ramp) b x
  let ws := ramp ++ allLanes.flatMap fun l => procbLaneWrites b l (lane l)
  .next (s.complete (procbReads b) ws (Lanes.ofFn fun l => (lane l).y).toList none)

/-- PROCBLP (R325). -/
def execProcblp (inst : BitVec 4) (x : Lanes) (s : State) : Host.Outcome State Fault Refusal :=
  procb Config.hw .lp inst x s

/-- PROCBHP (R326). -/
def execProcbhp (inst : BitVec 4) (x : Lanes) (s : State) : Host.Outcome State Fault Refusal :=
  procb Config.hw .hp inst x s

end Sys2Proof.Machine
end

