-- ==== Sys2Proof/Machine/Mapper.lean ====
section
/-! DEFINITION. bilinear_coeff_mapper: the Frequency Mapper and the two Coefficient Makers (spec
42_bilinear_coeff_mapper.md), and the meanings of MKCA.LP, MKCA.HP, MKCA.NOTCH, MKCA.BP, MKCA.AP, MKCB.LP and
MKCB.HP. -/

namespace Sys2Proof.Machine

/-! ### Common part (R230 to R234) -/

/-- The check of SR (R231): isfinite(SR), SR > 0.0 and (0.3 * SR) >= 5.0. -/
def srOk (fp : Fp) (sr : Word) : Bool :=
  isFinite sr && fp.lt Const.zero sr && fp.ge (fp.mul 0 Const.fMaxFrac sr) Const.fMin

/-- The check of SR_INV, for MKCB only (R231). -/
def srInvOk (fp : Fp) (srInv : Word) : Bool := isFinite srInv && fp.lt Const.zero srInv

/-- FMAP(pitch) (R232), `r` the tuning provider's answer. R232's corner cases of r hold of a REF_FREQ that is finite
and positive; of any other the pseudocode is followed (DEDUCED, log 29). -/
def fmap (fp : Fp) (refFreq r sr : Word) : Word :=
  fp.clamp (fp.mul 0 refFreq r) Const.fMin (fp.mul 1 Const.fMaxFrac sr)

/-- Steps 3 to 5 of a maker (R230), the checks passed and the target vector `t` at hand: RAMP_SET of every lane
MASK selects. It completes whatever its words hold (60_exceptions.md R370, R372). -/
def maker (p : Params) (t : Slot → Word) (n : BitVec 12) (inst mask : BitVec 4) (pitch : Word) (s : State) :
    Host.Outcome State Fault Refusal :=
  .next (s.complete (rampSetReads n (bankOf inst) mask) (rampSetWrites p s.draws s.mem (bankOf inst) mask t n) []
    (some pitch))

/-! ### MKCA (R235 to R237) -/

/-- The feed-forward targets b0, b1, b2 per filter type (R237). BP's b1 is the +0.0 of R237's table also where reso
or f is a NaN, although R239 and R232 say that every target is one there (DEDUCED, log 26). -/
def feedForward (fp : Fp) (ft : FilterType) (s c alpha a0r a1 a2 : Word) : Word × Word × Word :=
  match ft with
  | .lp =>
    let b1 := fp.mul 21 (fp.sub 20 Const.one c) a0r
    let b0 := fp.mul 22 b1 Const.half
    (b0, b1, b0)
  | .hp =>
    let b1 := fneg (fp.mul 21 (fp.add 20 Const.one c) a0r)
    let b0 := fp.mul 22 b1 Const.negHalf
    (b0, b1, b0)
  | .notch => (a0r, a1, a0r)
  | .bp =>
    let b0 := fp.mul 21 (fp.mul 20 s Const.half) a0r
    (b0, Const.zero, fneg b0)
  | .ap => (a2, a1, fp.mul 21 (fp.add 20 Const.one alpha) a0r)

/-- The Family A targets (R235, R236) at frequency `f`. The formulas are followed where their binary32 value leaves
the bounds R238 derives: a0r may be 1.0, and alpha 0.0 (DEDUCED, log 27). -/
def targetsA (p : Params) (fp : Fp) (ft : FilterType) (f sr reso : Word) : CoeffsA :=
  let res := fp.clamp reso Const.zero Const.one
  let q := fp.add 5 (fp.mul 4 (fp.mul 3 (fp.mul 2 res res) res) Const.qScale) Const.qMin
  let nf := fp.div 7 (fp.mul 6 Const.two f) sr
  let w := fp.mul 8 Const.piF nf
  let s := fastSin p w
  let c := fastCos p w
  let alpha := fp.div 10 s (fp.mul 9 Const.two q)
  let a0r := fp.div 12 Const.one (fp.add 11 Const.one alpha)
  let a1 := fp.mul 14 (fp.mul 13 Const.negTwo c) a0r
  let a2 := fp.mul 16 (fp.sub 15 Const.one alpha) a0r
  let b := feedForward fp ft s c alpha a0r a1 a2
  { a1 := a1, a2 := a2, b0 := b.1, b1 := b.2.1, b2 := b.2.2 }

/-- MKCA(ftype, b, MASK, N; pitch, reso) (R235). -/
def mkca (p : Params) (ft : FilterType) (n : BitVec 12) (inst mask : BitVec 4) (pitch reso : Word) (s : State) :
    Host.Outcome State Fault Refusal :=
  let fp := arith p s.draws scopeTargets
  if srOk fp s.sr then
    maker p (targetsA p fp ft (fmap fp p.refFreq (tune p pitch) s.sr) s.sr reso).slot n inst mask pitch s
  else .refused .srInvalid

/-! ### MKCB (R245 to R249) -/

/-- lb and hb per mode (R248); `kG` is the one product k * G. -/
def feedback (fp : Fp) (mode : PassMode) (k kG gp1 : Word) : Word × Word :=
  match mode with
  | .lp => (fp.div 21 (fp.sub 20 k kG) gp1, fp.div 22 Const.negOne gp1)
  | .hp => (fp.div 21 Const.one gp1, fp.div 22 (fneg kG) gp1)

/-- The Family B targets (R245 to R249) at frequency `f`. The formulas are followed where their binary32 value leaves
the bounds R250 and R251 derive: wa may overflow and G be a NaN, or G be 0.0 or 1.0 (DEDUCED, log 28). -/
def targetsB (p : Params) (fp : Fp) (mode : PassMode) (f sr srInv reso drive : Word) : CoeffsB :=
  let wd := fp.mul 3 (fp.mul 2 Const.two f) Const.piF
  let arg := fp.mul 5 (fp.mul 4 wd srInv) Const.half
  let t := fastTan p arg
  let wa := fp.mul 7 (fp.mul 6 Const.two sr) t
  let g := fp.mul 9 (fp.mul 8 wa srInv) Const.half
  let gp1 := fp.add 10 Const.one g
  let gg := fp.div 11 g gp1
  let k := fp.clamp (fp.mul 12 reso Const.kScale) Const.kMin Const.kMax
  let kG := fp.mul 13 k gg
  let b := feedback fp mode k kG gp1
  let alpha := fp.div 17 Const.one (fp.add 16 (fp.sub 14 Const.one kG) (fp.mul 15 kG gg))
  let blend := fp.clamp drive Const.zero Const.one
  let binv := fp.sub 18 Const.one blend
  { g := gg, lb := b.1, hb := b.2, k := k, alpha := alpha, sat := drive, blend := blend, binv := binv }

/-- MKCB(hp, b, MASK, N; pitch, reso, drive) (R245). -/
def mkcb (p : Params) (mode : PassMode) (n : BitVec 12) (inst mask : BitVec 4) (pitch reso drive : Word)
    (s : State) : Host.Outcome State Fault Refusal :=
  let fp := arith p s.draws scopeTargets
  if srOk fp s.sr && srInvOk fp s.srInv then
    maker p (targetsB p fp mode (fmap fp p.refFreq (tune p pitch) s.sr) s.sr s.srInv reso drive).slot
      n inst mask pitch s
  else .refused .srInvalid

/-! ### The meanings -/

/-- MKCA.LP (R235). -/
def execMkcaLp (n : BitVec 12) (inst mask : BitVec 4) (pitch reso : Word) (s : State) :
    Host.Outcome State Fault Refusal := mkca Config.hw .lp n inst mask pitch reso s

/-- MKCA.HP (R235). -/
def execMkcaHp (n : BitVec 12) (inst mask : BitVec 4) (pitch reso : Word) (s : State) :
    Host.Outcome State Fault Refusal := mkca Config.hw .hp n inst mask pitch reso s

/-- MKCA.NOTCH (R235). -/
def execMkcaNotch (n : BitVec 12) (inst mask : BitVec 4) (pitch reso : Word) (s : State) :
    Host.Outcome State Fault Refusal := mkca Config.hw .notch n inst mask pitch reso s

/-- MKCA.BP (R235). -/
def execMkcaBp (n : BitVec 12) (inst mask : BitVec 4) (pitch reso : Word) (s : State) :
    Host.Outcome State Fault Refusal := mkca Config.hw .bp n inst mask pitch reso s

/-- MKCA.AP (R235). -/
def execMkcaAp (n : BitVec 12) (inst mask : BitVec 4) (pitch reso : Word) (s : State) :
    Host.Outcome State Fault Refusal := mkca Config.hw .ap n inst mask pitch reso s

/-- MKCB.LP (R245). -/
def execMkcbLp (n : BitVec 12) (inst mask : BitVec 4) (pitch reso drive : Word) (s : State) :
    Host.Outcome State Fault Refusal := mkcb Config.hw .lp n inst mask pitch reso drive s

/-- MKCB.HP (R245). -/
def execMkcbHp (n : BitVec 12) (inst mask : BitVec 4) (pitch reso drive : Word) (s : State) :
    Host.Outcome State Fault Refusal := mkcb Config.hw .hp n inst mask pitch reso drive s

end Sys2Proof.Machine
end

