-- ==== Sys2Proof/Machine/Dispatch.lean ====
section
/-! DEFINITION. What each instruction does: one arm for each constructor of `Instr`, each a direct call of its
meaning. -/

namespace Sys2Proof.Machine

def exec (i : Instr) (s : State) : Host.Outcome State Fault Refusal :=
  match i with
  | .mkcaLp n b m pitch reso => Sys2Proof.Machine.execMkcaLp n b m pitch reso s
  | .mkcaHp n b m pitch reso => Sys2Proof.Machine.execMkcaHp n b m pitch reso s
  | .mkcaNotch n b m pitch reso => Sys2Proof.Machine.execMkcaNotch n b m pitch reso s
  | .mkcaBp n b m pitch reso => Sys2Proof.Machine.execMkcaBp n b m pitch reso s
  | .mkcaAp n b m pitch reso => Sys2Proof.Machine.execMkcaAp n b m pitch reso s
  | .mkcbLp n b m pitch reso drive => Sys2Proof.Machine.execMkcbLp n b m pitch reso drive s
  | .mkcbHp n b m pitch reso drive => Sys2Proof.Machine.execMkcbHp n b m pitch reso drive s
  | .proca nstg satk b x => Sys2Proof.Machine.execProca nstg satk b x s
  | .procblp b x => Sys2Proof.Machine.execProcblp b x s
  | .procbhp b x => Sys2Proof.Machine.execProcbhp b x s

end Sys2Proof.Machine
end

