-- ==== Sys2Proof/Machine/Port.lean ====
section
/-! DEFINITION. The host port (spec 20_memory.md R70 to R84): the four host accesses, and the one input a step
performs. -/

namespace Sys2Proof.Machine

/-- ST_RD(a) (R76). A word that nothing has written returns what it holds (60_exceptions.md R372). -/
def stRd (p : Params) (a : BitVec 13) (s : State) : Host.Outcome State Fault Refusal :=
  if a.toNat % 4 ≠ 0 then .refused .misaligned
  else
    match decodeAddr p.nInst a with
    | none => .refused .reservedAddress
    | some w => .next (s.answer [w] [s.mem.get w])

/-- ST_WR(a, v) (R77): any 32-bit pattern; NF is not touched. -/
def stWr (p : Params) (a : BitVec 13) (v : Word) (s : State) : Host.Outcome State Fault Refusal :=
  if a.toNat % 4 ≠ 0 then .refused .misaligned
  else
    match decodeAddr p.nInst a with
    | none => .refused .reservedAddress
    | some w => .next ({ s with mem := s.mem.set w v }.answer [] [])

/-- CSR_RD(o) (R78). -/
def csrRd (p : Params) (o : BitVec 8) (s : State) : Host.Outcome State Fault Refusal :=
  if o.toNat % 4 ≠ 0 then .refused .misaligned
  else
    match csrRead p s o with
    | none => .refused .reservedAddress
    | some v => .next (s.answer [] [v])

/-- CSR_WR(o, v) (R79). -/
def csrWr (p : Params) (o : BitVec 8) (v : Word) (s : State) : Host.Outcome State Fault Refusal :=
  if o.toNat % 4 ≠ 0 then .refused .misaligned
  else
    match csrRead p s o with
    | none => .refused .reservedAddress
    | some _ => .next ((csrWrite s o v).answer [] [])

/-- The refusal a decode error is (30_encoding.md R121, 60_exceptions.md R371; log 9). -/
def refusalOf : DecodeError → Refusal
  | .reservedEncoding => .reservedEncoding
  | .instRange => .instRange
  | .operandCount => .operandCount

/-- CMD(w, o[0..k-1]) (30_encoding.md R110): decode, then run what it decodes to. -/
def command (p : Params) (run : Instr → State → Host.Outcome State Fault Refusal) (ws : List Word) (s : State) :
    Host.Outcome State Fault Refusal :=
  match decode p.nInst ws with
  | .error e => .refused (refusalOf e)
  | .ok i => run i s

/-- One input, performed whole (20_memory.md R84). -/
def perform (p : Params) (run : Instr → State → Host.Outcome State Fault Refusal) (x : HostInput) (s : State) :
    Host.Outcome State Fault Refusal :=
  match x with
  | .stRd a => stRd p a s
  | .stWr a v => stWr p a v s
  | .csrRd o => csrRd p o s
  | .csrWr o v => csrWr p o v s
  | .cmd ws => command p run ws s
  | .hwReset => .next s.hwReset

/-- Take the next pending input and perform it; with none pending the block "holds its state and does nothing"
(60_exceptions.md R386). -/
def performNext (p : Params) (run : Instr → State → Host.Outcome State Fault Refusal) (s : State) :
    Host.Outcome State Fault Refusal :=
  match s.pending with
  | [] => .next s
  | x :: rest => perform p run x { s with pending := rest }

end Sys2Proof.Machine
end

