-- ==== Sys2Proof/Machine/Step.lean ====
section
/-! DEFINITION. One step of the machine: one input of the outside world (spec 20_memory.md R84), and how an
instruction is put where the step takes its next one (log 7). -/

namespace Sys2Proof.Machine

/-- One step of the hardware. -/
def step (s : State) : Host.Outcome State Fault Refusal := performNext Config.hw exec s

/-- `s` with the host about to issue the command of the opcode table's bits `w` (log 7): nothing else is
changed. -/
def State.withFetchWord (s : State) (nbits w : Nat) : State :=
  { s with pending := .cmd (tableWords nbits w) :: s.pending }

end Sys2Proof.Machine
end

