-- ==== Sys2Proof/Machine/Assembler.lean ====
section
/-! DEFINITION. The assembler lines and pseudo-instructions of spec 30_encoding.md R126 and R127, as data: what
inputs each line stands for. The text form of a line is no part of the model (log 21). -/

namespace Sys2Proof.Machine

/-- A value of an assembler line (R126): `#0xHHHHHHHH`, or a decimal literal, `-`? `digits` / 10^`places`. -/
inductive AsmValue
  | raw (w : Word)
  | decimal (negative : Bool) (digits places : Nat)
  deriving DecidableEq, Repr

/-- A decimal literal stands for its nearest binary32 (R10, R126). -/
def AsmValue.word : AsmValue → Word
  | .raw w => w
  | .decimal neg digits places => pack neg (roundMag (digits * 2 ^ 149) (10 ^ places))

/-- The lines of R126 and the pseudo-instructions of R127. `b`, `m`, `n` are the numbers after `i`, `m`, `n`
and `s` there. -/
inductive AsmLine
  | mkca (ft : FilterType) (b m n : Nat) (pitch reso : AsmValue)
  | mkcb (mode : PassMode) (b m n : Nat) (pitch reso drive : AsmValue)
  | proca (n : Nat) (satk : SatKind) (b : Nat) (x0 x1 x2 x3 : AsmValue)
  | procblp (b : Nat) (x0 x1 x2 x3 : AsmValue)
  | procbhp (b : Nat) (x0 x1 x2 x3 : AsmValue)
  | stWr (a : BitVec 13) (v : AsmValue)
  | stRd (a : BitVec 13)
  | csrWr (o : BitVec 8) (v : AsmValue)
  | csrRd (o : BitVec 8)
  | mkcaSnap (ft : FilterType) (b m : Nat) (pitch reso : AsmValue)
  | mkcbSnap (mode : PassMode) (b m : Nat) (pitch reso drive : AsmValue)
  | setsr (fs : AsmValue)
  | clrnf
  | clrr (b : Nat)
  | initbank (b : Nat)
  deriving DecidableEq, Repr

/-- The input that issues an instruction (R110). -/
def issue (i : Instr) : HostInput := .cmd (encode i)

/-- ST_WR of +0.0 to a state word. -/
def clearWord (w : WordRef) : HostInput := .stWr (BitVec.ofNat 13 w.addr) 0

/-- `clrr i<b>`: the 32 register words, slots outer (R127; 70_reset_and_hazards.md R404). -/
def clrrWords (b : Nat) : List WordRef :=
  allSlots.flatMap fun j => allLanes.map fun l => ⟨.R, b, j, l⟩

/-- `initbank i<b>`: the 96 words of C, dC and R, in increasing address order (R127). -/
def initbankWords (b : Nat) : List WordRef :=
  [Region.C, Region.dC, Region.R].flatMap fun r => allSlots.flatMap fun i => allLanes.map fun l => ⟨r, b, i, l⟩

/-- The arithmetic of `fl(1/fs)` in `setsr` (R127), done by the assembler: subnormals kept. Of a NaN it is some
NaN, whose sign and payload 40_numerics.md R153 leaves open: a free value (DESIGN CHOICE, log 24). -/
def asmReciprocal (fs : Word) : Word := (Fp.mk false fun _ => Config.hw.asmNaN fs).div 0 Const.one fs

/-- The inputs a line stands for (R126, R127), none where a number is out of its range: b and m 0..15, n 0..4095,
a stage count 1..4. -/
def assemble : AsmLine → Option (List HostInput)
  | .mkca ft b m n pitch reso =>
    if b < 16 ∧ m < 16 ∧ n < 4096 then
      some [issue (mkcaInstr ft (BitVec.ofNat 12 n) (BitVec.ofNat 4 b) (BitVec.ofNat 4 m) pitch.word reso.word)]
    else none
  | .mkcb mode b m n pitch reso drive =>
    if b < 16 ∧ m < 16 ∧ n < 4096 then
      some [issue (mkcbInstr mode (BitVec.ofNat 12 n) (BitVec.ofNat 4 b) (BitVec.ofNat 4 m) pitch.word reso.word
        drive.word)]
    else none
  | .proca n satk b x0 x1 x2 x3 =>
    if 1 ≤ n ∧ n ≤ 4 ∧ b < 16 then
      some [issue (.proca (BitVec.ofNat 2 (n - 1)) satk (BitVec.ofNat 4 b) ⟨x0.word, x1.word, x2.word, x3.word⟩)]
    else none
  | .procblp b x0 x1 x2 x3 =>
    if b < 16 then some [issue (.procblp (BitVec.ofNat 4 b) ⟨x0.word, x1.word, x2.word, x3.word⟩)] else none
  | .procbhp b x0 x1 x2 x3 =>
    if b < 16 then some [issue (.procbhp (BitVec.ofNat 4 b) ⟨x0.word, x1.word, x2.word, x3.word⟩)] else none
  | .stWr a v => some [.stWr a v.word]
  | .stRd a => some [.stRd a]
  | .csrWr o v => some [.csrWr o v.word]
  | .csrRd o => some [.csrRd o]
  | .mkcaSnap ft b m pitch reso =>
    if b < 16 ∧ m < 16 then
      some [issue (mkcaInstr ft 0 (BitVec.ofNat 4 b) (BitVec.ofNat 4 m) pitch.word reso.word)]
    else none
  | .mkcbSnap mode b m pitch reso drive =>
    if b < 16 ∧ m < 16 then
      some [issue (mkcbInstr mode 0 (BitVec.ofNat 4 b) (BitVec.ofNat 4 m) pitch.word reso.word drive.word)]
    else none
  | .setsr fs => some [.csrWr 0x04 fs.word, .csrWr 0x08 (asmReciprocal fs.word)]
  | .clrnf => some [.csrWr 0x0C 1]
  | .clrr b => if b < 16 then some ((clrrWords b).map clearWord) else none
  | .initbank b => if b < 16 then some ((initbankWords b).map clearWord) else none

end Sys2Proof.Machine
end

