-- ==== Sys2Proof/Machine/Reference.lean ====
section
/-! DEFINITION. The reference configuration REF (spec 40_numerics.md R166 to R168) and the machine that takes
the parameters as an argument (00_scope.md R5): with REF it reproduces the vectors of 95_test_vectors.md. The
hardware's machine is `execWith` and `performNext` at `Config.hw`. -/

namespace Sys2Proof.Machine

/-- The arithmetic of REF: `ieee`, and the NaN the vectors show "only for readability" (log 14). -/
def refFp : Fp := ⟨false, fun _ => 0x7FC00000⟩

/-- SAT_TANH_REF (R167). -/
def satTanhRef (x : Word) : Word :=
  let xc := refFp.clamp x Const.negThree Const.three
  let x2 := refFp.mul 0 xc xc
  let num := refFp.mul 2 xc (refFp.add 1 Const.twentySeven x2)
  let den := refFp.add 4 Const.twentySeven (refFp.mul 3 Const.nine x2)
  refFp.clamp (refFp.div 5 num den) Const.negOne Const.one

/-- SAT_SOFT_REF (R168). -/
def satSoftRef (x : Word) : Word :=
  let xc := refFp.clamp x Const.negOneAndHalf Const.oneAndHalf
  let x3 := refFp.mul 1 (refFp.mul 0 xc xc) xc
  refFp.clamp (refFp.sub 3 xc (refFp.mul 2 Const.fourOver27 x3)) Const.negOne Const.one

/-! ### Sine, cosine and tangent, correctly rounded (R166)

In fixed point with 512 fraction bits: reduce by a multiple of pi/2, sum the Taylor series, round once. The
error is below 2^-350 of the result's scale, far below the distance of any binary32 tangent, sine or cosine
from a rounding boundary; that the rounding is therefore correct is not proved here (log 14). -/

/-- pi/2 with 512 fraction bits. -/
def halfPi512 : Nat :=
  0x1921fb54442d18469898cc51701b839a252049c1114cf98e804177d4c76273644a29410f31c6809bbdf2a33679a748636605614dbe4be286e9fc26adadaa3848b

/-- The tail of the Taylor series from `term`, of degree `j`: sum of (-1)^i r^(j+2i)/(j+2i)! in fixed point. -/
def taylorTail (r2 : Int) : Nat → Nat → Int → Int
  | 0, _, _ => 0
  | fuel + 1, j, term => term + taylorTail r2 fuel (j + 2) (-(term * r2 / (2 ^ 512 * ((j + 1) * (j + 2) : Nat))))

/-- sin and cos of `r` with 512 fraction bits, |r| at most pi/4. -/
def sinCosSmall (r : Int) : Int × Int :=
  let r2 := r * r / 2 ^ 512
  (taylorTail r2 64 1 r, taylorTail r2 64 0 (2 ^ 512))

/-- sin and cos of a finite word with 512 fraction bits. -/
def sinCos512 (w : Word) : Int × Int :=
  let x : Int := signedUnits w * 2 ^ 363
  let k := (2 * x + halfPi512) / (2 * halfPi512)
  let sc := sinCosSmall (x - k * halfPi512)
  match (k % 4).toNat with
  | 0 => sc
  | 1 => (sc.2, -sc.1)
  | 2 => (-sc.1, -sc.2)
  | _ => (-sc.2, sc.1)

/-- The binary32 nearest to n/d. Of n = 0 it is +0.0: R166 does not say which zero FASTSIN and FASTTAN give at a
zero, and the model gives +0.0 at -0.0 too (DESIGN CHOICE, log 14). -/
def nearestRatio (n d : Int) : Word :=
  pack (decide (n < 0) != decide (d < 0)) (roundMag (n.natAbs * 2 ^ 149) d.natAbs)

/-- FASTSIN, FASTCOS and FASTTAN of REF; R166 defines them on real values, and a NaN stands for the rest. -/
def sinRef (w : Word) : Word := if isFinite w then nearestRatio (sinCos512 w).1 (2 ^ 512) else 0x7FC00000
def cosRef (w : Word) : Word := if isFinite w then nearestRatio (sinCos512 w).2 (2 ^ 512) else 0x7FC00000
def tanRef (w : Word) : Word :=
  if isFinite w then nearestRatio (sinCos512 w).1 (sinCos512 w).2 else 0x7FC00000

/-- REF (R166). N_INST, TUNE and REF_FREQ are "not part of REF": each vector states them. -/
def refParams (nInstM1 : BitVec 4) (tune : Word → Word) (refFreq : Word) : Params :=
  { nInstM1 := nInstM1, ftz := false
    fastSin := sinRef, fastCos := cosRef, fastTan := tanRef
    satTanh := satTanhRef, satSoft := satSoftRef, softBound := Const.one
    tune := tune, refFreq := refFreq
    nanDraw := fun _ _ _ => 0x7FC00000
    asmNaN := fun _ => 0x7FC00000
    csrBase := 0, stateBase := 0 }

/-- What each instruction does in a block of the given parameters. -/
def execWith (p : Params) (i : Instr) (s : State) : Host.Outcome State Fault Refusal :=
  match i with
  | .mkcaLp n b m pitch reso => mkca p .lp n b m pitch reso s
  | .mkcaHp n b m pitch reso => mkca p .hp n b m pitch reso s
  | .mkcaNotch n b m pitch reso => mkca p .notch n b m pitch reso s
  | .mkcaBp n b m pitch reso => mkca p .bp n b m pitch reso s
  | .mkcaAp n b m pitch reso => mkca p .ap n b m pitch reso s
  | .mkcbLp n b m pitch reso drive => mkcb p .lp n b m pitch reso drive s
  | .mkcbHp n b m pitch reso drive => mkcb p .hp n b m pitch reso drive s
  | .proca nstg satk b x => proca p nstg satk b x s
  | .procblp b x => procb p .lp b x s
  | .procbhp b x => procb p .hp b x s

/-- One step of a block of the given parameters. -/
def stepWith (p : Params) (s : State) : Host.Outcome State Fault Refusal := performNext p (execWith p) s

end Sys2Proof.Machine
end

