-- ==== Sys2Proof/Machine/Run.lean ====
section
/-! DEFINITION. The run of a model (spec 60_exceptions.md R371, R372; 92_eei_decisions.md D40): the hardware's
steps, ended where a step has no behaviour, or where it computed from a word unwritten since reset. The end is the
run's; the block goes on ("A fault is not a hardware event", R372), and so does `step`. -/

namespace Sys2Proof.Machine

/-- Why a model's run ends. -/
inductive RunEnd
  /-- UNINIT_READ (R372): the transaction read `w`, the first such word (R374), unwritten since reset. -/
  | uninitRead (w : WordRef)
  /-- The transaction is refused (R371). -/
  | refused (r : Refusal)
  deriving DecidableEq, Repr

/-- What a model's run makes of a step: the next state, or the end of the run. NF is raised by no transaction
that ends it (R374), since the end carries no state. -/
def endRun : Host.Outcome State Fault Refusal → Except RunEnd State
  | .next t =>
    match t.uninit with
    | none => .ok t
    | some w => .error (.uninitRead w)
  | .fault f => nomatch f
  | .refused r => .error (.refused r)

/-- One step of a model's run of the hardware. -/
def runStep (s : State) : Except RunEnd State := endRun (step s)

/-- One step of a model's run of a block of the given parameters. -/
def runStepWith (p : Params) (s : State) : Except RunEnd State := endRun (stepWith p s)

end Sys2Proof.Machine
end

