-- ==== Sys2Proof/Safety.lean ====
section
/-! DEFINITION. What counts as a safe run, in the terms the statements use: which state words each command
reaches (spec 20_memory.md R82), the invariant of the state space, and the readiness of a bank
(70_reset_and_hazards.md R402). -/

namespace Sys2Proof

/-- The words a maker writes (R82): C and dC of the masked lanes in a snap, dC alone in a ramp. -/
def makerStores (n : BitVec 12) (b m : BitVec 4) (w : Machine.WordRef) : Bool :=
  decide (w.bank = b.toNat) && m.getLsbD w.lane.val &&
    (decide (w.region = .dC) || (decide (w.region = .C) && decide (n = 0)))

/-- The words a maker reads (R82): C of the masked lanes in a ramp, none in a snap. -/
def makerLoads (n : BitVec 12) (b m : BitVec 4) (w : Machine.WordRef) : Bool :=
  decide (w.bank = b.toNat) && m.getLsbD w.lane.val && decide (w.region = .C) && decide (n ≠ 0)

/-- The words a processor using register slots 0 .. k-1 writes (R82): all C, and those slots of R. -/
def processorStores (k : Nat) (b : BitVec 4) (w : Machine.WordRef) : Bool :=
  decide (w.bank = b.toNat) &&
    (decide (w.region = .C) || (decide (w.region = .R) && decide (w.slot.val < k)))

/-- The words a processor using register slots 0 .. k-1 reads (R82): all C and dC, and those slots of R. -/
def processorLoads (k : Nat) (b : BitVec 4) (w : Machine.WordRef) : Bool :=
  decide (w.bank = b.toNat) && (decide (w.region ≠ .R) || decide (w.slot.val < k))

/-- The state words a command writes (R82). -/
def Instr.stores : Instr → Machine.WordRef → Bool
  | .mkcaLp n b m _ _ | .mkcaHp n b m _ _ | .mkcaNotch n b m _ _ | .mkcaBp n b m _ _ | .mkcaAp n b m _ _ =>
    makerStores n b m
  | .mkcbLp n b m _ _ _ | .mkcbHp n b m _ _ _ => makerStores n b m
  | .proca nstg _ b _ => processorStores (2 * (nstg.toNat + 1)) b
  | .procblp b _ | .procbhp b _ => processorStores 3 b

/-- The state words a command reads (R82). -/
def Instr.loads : Instr → Machine.WordRef → Bool
  | .mkcaLp n b m _ _ | .mkcaHp n b m _ _ | .mkcaNotch n b m _ _ | .mkcaBp n b m _ _ | .mkcaAp n b m _ _ =>
    makerLoads n b m
  | .mkcbLp n b m _ _ _ | .mkcbHp n b m _ _ _ => makerLoads n b m
  | .proca nstg _ b _ => processorLoads (2 * (nstg.toNat + 1)) b
  | .procblp b _ | .procbhp b _ => processorLoads 3 b

/-- PROCA, PROCBLP and PROCBHP (30_encoding.md R112). -/
def Instr.isProcessor : Instr → Bool
  | .proca .. | .procblp .. | .procbhp .. => true
  | .mkcaLp .. | .mkcaHp .. | .mkcaNotch .. | .mkcaBp .. | .mkcaAp .. | .mkcbLp .. | .mkcbHp .. => false

/-- Two commands that differ at most in the inputs of lanes other than `l` (10_state.md R39). -/
def Instr.agreeAt (l : Lane) : Instr → Instr → Prop
  | .proca n k b x, .proca n' k' b' x' => n = n' ∧ k = k' ∧ b = b' ∧ x.at l = x'.at l
  | .procblp b x, .procblp b' x' => b = b' ∧ x.at l = x'.at l
  | .procbhp b x, .procbhp b' x' => b = b' ∧ x.at l = x'.at l
  | i, i' => i = i'

/-- The pitch operand of a maker (30_encoding.md R119). -/
def Instr.pitch? : Instr → Option Word
  | .mkcaLp _ _ _ v _ | .mkcaHp _ _ _ v _ | .mkcaNotch _ _ _ v _ | .mkcaBp _ _ _ v _ | .mkcaAp _ _ _ v _ => some v
  | .mkcbLp _ _ _ v _ _ | .mkcbHp _ _ _ v _ _ => some v
  | .proca .. | .procblp .. | .procbhp .. => none

namespace Machine

/-- The sample-rate check of the command (42_bilinear_coeff_mapper.md R231): SR for MKCA, SR and SR_INV for
MKCB, nothing for a processor. -/
def rateOk (p : Params) (i : Instr) (s : State) : Bool :=
  match i with
  | .mkcaLp .. | .mkcaHp .. | .mkcaNotch .. | .mkcaBp .. | .mkcaAp .. => srOk (arith p s.draws scopeTargets) s.sr
  | .mkcbLp .. | .mkcbHp .. =>
    srOk (arith p s.draws scopeTargets) s.sr && srInvOk (arith p s.draws scopeTargets) s.srInv
  | .proca .. | .procblp .. | .procbhp .. => true

/-- A byte address of a state word of an existing bank (20_memory.md R72, R80). -/
def stateByte (nInst a : Nat) : Bool := decide (a / 0x200 < nInst) && decide (a % 0x200 < 0x180)

/-- The invariant of the state space: it is in canonical form, holds no byte of a reserved address (20_memory.md
R80), and every word is written whole or not at all (R74). -/
def State.Inv (s : State) : Prop :=
  s.mem.wf = true ∧
  (∀ a, (s.mem.byte a).isSome = true → stateByte Config.hw.nInst a = true) ∧
  (∀ a, (s.mem.byte a).isSome = true → ∀ j, j < 4 → (s.mem.byte (a / 4 * 4 + j)).isSome = true)

/-- Every word of C, dC and R of bank `b` has been written since reset: what the boot sequence of R402 brings
about. -/
def State.bankReady (s : State) (b : Nat) : Prop :=
  ∀ (r : Region) (i : Slot) (l : Lane), (s.mem.word ⟨r, b, i, l⟩).isSome = true

/-- The outcome is a next state. -/
def Completes (o : Host.Outcome State Fault Refusal) : Prop := ∃ t, o = .next t

/-- Commands one after another, stopping at the first fault or refusal (20_memory.md R84). -/
def execAll : List Instr → State → Host.Outcome State Fault Refusal
  | [], s => .next s
  | i :: is, s =>
    match exec i s with
    | .next t => execAll is t
    | .fault r => .fault r
    | .refused r => .refused r

end Machine

end Sys2Proof
end

