-- ==== Sys2Proof/Certificates/Slice0/Obligations.lean ====
section
/-! DEFINITION. The statements for the provers. Each `def Obligations.<Name> : Prop` says what its name says;
its docstring names the rules of spec/ it rests on. First the terms the statements share, transcribed from the
rules and independent of the meanings. In a formula the number an operation takes first names its own NaN draw
(log 3); no statement rests on what is drawn. `Memory.get` reads what a state word holds; of a word that nothing
has written since reset that is the model's choice (log 5), and no statement rests on its value. -/

open Sys2Proof Sys2Proof.Machine

namespace Sys2Proof.Stated

/-! ### Makers (42_bilinear_coeff_mapper.md) -/

/-- The arithmetic of the target computation of a maker. -/
def targetFp (s : State) : Fp := arith Config.hw s.draws 0

/-- The arithmetic of the ramp of slot `i`, lane `l`. -/
def rampFp (s : State) (i : Slot) (l : Lane) : Fp := arith Config.hw s.draws (8 + 4 * i.val + l.val)

/-- The arithmetic of lane `l` of a processor. -/
def laneFp (s : State) (l : Lane) : Fp := arith Config.hw s.draws (1 + l.val)

/-- R231 for MKCA: isfinite(SR), SR > 0.0 and (0.3 * SR) >= 5.0. -/
def SrValid (s : State) : Prop :=
  isFinite s.sr = true ∧ (targetFp s).lt 0x00000000 s.sr = true ∧
  (targetFp s).ge ((targetFp s).mul 0 0x3E99999A s.sr) 0x40A00000 = true

/-- R231 for MKCB, beside `SrValid`: isfinite(SR_INV) and SR_INV > 0.0. -/
def SrInvValid (s : State) : Prop := isFinite s.srInv = true ∧ (targetFp s).lt 0x00000000 s.srInv = true

/-- f of R232: CLAMP(REF_FREQ * Tune(pitch), 5.0, 0.3 * SR). -/
def frequency (s : State) (pitch : Word) : Word :=
  (targetFp s).clamp ((targetFp s).mul 0 Config.hw.refFreq (Config.hw.tune pitch)) 0x40A00000
    ((targetFp s).mul 1 0x3E99999A s.sr)

/-- T[A_B0], T[A_B1], T[A_B2] per filter type (R237). -/
def FeedForward (fp : Fp) (ft : FilterType) (s c alpha a0r : Word) (T : Slot → Word) : Prop :=
  match ft with
  | .lp => T 3 = fp.mul 21 (fp.sub 20 0x3F800000 c) a0r ∧ T 2 = fp.mul 22 (T 3) 0x3F000000 ∧ T 4 = T 2
  | .hp => T 3 = fneg (fp.mul 21 (fp.add 20 0x3F800000 c) a0r) ∧ T 2 = fp.mul 22 (T 3) 0xBF000000 ∧ T 4 = T 2
  | .notch => T 2 = a0r ∧ T 3 = T 0 ∧ T 4 = a0r
  | .bp => T 2 = fp.mul 21 (fp.mul 20 s 0x3F000000) a0r ∧ T 3 = 0x00000000 ∧ T 4 = fneg (T 2)
  | .ap => T 2 = T 1 ∧ T 3 = T 0 ∧ T 4 = fp.mul 21 (fp.add 20 0x3F800000 alpha) a0r

/-- T is the Family A target vector at frequency `f` (R235, R236, R237). -/
def FamilyATarget (fp : Fp) (ft : FilterType) (f sr reso : Word) (T : Slot → Word) : Prop :=
  ∃ res q nf w s c alpha a0r : Word,
    res = fp.clamp reso 0x00000000 0x3F800000 ∧
    q = fp.add 5 (fp.mul 4 (fp.mul 3 (fp.mul 2 res res) res) 0x41900000) 0x3DCCCCCD ∧
    nf = fp.div 7 (fp.mul 6 0x40000000 f) sr ∧
    w = fp.mul 8 0x40490FDB nf ∧
    s = fastSin Config.hw w ∧ c = fastCos Config.hw w ∧
    alpha = fp.div 10 s (fp.mul 9 0x40000000 q) ∧
    a0r = fp.div 12 0x3F800000 (fp.add 11 0x3F800000 alpha) ∧
    T 0 = fp.mul 14 (fp.mul 13 0xC0000000 c) a0r ∧
    T 1 = fp.mul 16 (fp.sub 15 0x3F800000 alpha) a0r ∧
    FeedForward fp ft s c alpha a0r T ∧
    T 5 = 0x00000000 ∧ T 6 = 0x00000000 ∧ T 7 = 0x00000000

/-- T is the Family B target vector at frequency `f` (R245 to R249). -/
def FamilyBTarget (fp : Fp) (mode : PassMode) (f sr srInv reso drive : Word) (T : Slot → Word) : Prop :=
  ∃ wd arg t wa g gp1 k kG : Word,
    wd = fp.mul 3 (fp.mul 2 0x40000000 f) 0x40490FDB ∧
    arg = fp.mul 5 (fp.mul 4 wd srInv) 0x3F000000 ∧
    t = fastTan Config.hw arg ∧
    wa = fp.mul 7 (fp.mul 6 0x40000000 sr) t ∧
    g = fp.mul 9 (fp.mul 8 wa srInv) 0x3F000000 ∧
    gp1 = fp.add 10 0x3F800000 g ∧
    T 0 = fp.div 11 g gp1 ∧
    k = fp.clamp (fp.mul 12 reso 0x3FFAE148) 0x3C23D70A 0x3FFAE148 ∧
    T 3 = k ∧
    kG = fp.mul 13 k (T 0) ∧
    (match mode with
     | .lp => T 1 = fp.div 21 (fp.sub 20 k kG) gp1 ∧ T 2 = fp.div 22 0xBF800000 gp1
     | .hp => T 1 = fp.div 21 0x3F800000 gp1 ∧ T 2 = fp.div 22 (fneg kG) gp1) ∧
    T 4 = fp.div 17 0x3F800000 (fp.add 16 (fp.sub 14 0x3F800000 kG) (fp.mul 15 kG (T 0))) ∧
    T 5 = drive ∧
    T 6 = fp.clamp drive 0x00000000 0x3F800000 ∧
    T 7 = fp.sub 18 0x3F800000 (T 6)

/-- The selected lanes of bank `b` have taken T by a snap (41_coeff_ramp_interpolator.md R201, N = 0): C holds T,
a subnormal of it as a zero under `ftz` (40_numerics.md R158; log 11), and dC holds +0.0. -/
def Snapped (s t : State) (b m : BitVec 4) (T : Slot → Word) : Prop :=
  ∀ (i : Slot) (l : Lane), m.getLsbD l.val = true →
    t.mem.word ⟨.C, b.toNat, i, l⟩ = some ((targetFp s).flush (T i)) ∧
    t.mem.word ⟨.dC, b.toNat, i, l⟩ = some 0x00000000

/-- The selected lanes of bank `b` have started a ramp of `n` samples toward T (R201, N >= 1): dC holds
(T - C) / float(N), and C is what it was, written or not. -/
def Ramped (s t : State) (n : BitVec 12) (b m : BitVec 4) (T : Slot → Word) : Prop :=
  ∀ (i : Slot) (l : Lane), m.getLsbD l.val = true →
    t.mem.word ⟨.dC, b.toNat, i, l⟩ =
      some ((rampFp s i l).div 1 ((rampFp s i l).sub 0 (T i) (s.mem.get ⟨.C, b.toNat, i, l⟩))
        (floatOfNat n.toNat)) ∧
    t.mem.word ⟨.C, b.toNat, i, l⟩ = s.mem.word ⟨.C, b.toNat, i, l⟩

/-! ### Processors -/

/-- RAMP_STEP has advanced every coefficient of bank `b` (R203). -/
def RampStepped (s t : State) (b : BitVec 4) : Prop :=
  ∀ (i : Slot) (l : Lane),
    t.mem.word ⟨.C, b.toNat, i, l⟩ =
      some ((rampFp s i l).add 0 (s.mem.get ⟨.C, b.toNat, i, l⟩) (s.mem.get ⟨.dC, b.toNat, i, l⟩)) ∧
    t.mem.word ⟨.dC, b.toNat, i, l⟩ = s.mem.word ⟨.dC, b.toNat, i, l⟩

/-- The stages 0 .. n-1 of one lane (43_biquad_cascade_saturator.md R281): the outputs `out`, and the register
values `t1`, `t2` before the saturator; `z j` is the old value of register slot j and `x` the lane's input. -/
def Stages (fp : Fp) (a1 a2 b0 b1 b2 : Word) (z : Nat → Word) (x : Word) (n : Nat) (out t1 t2 : Nat → Word) :
    Prop :=
  ∀ s, s < n →
    let inp := if s = 0 then x else out (s - 1)
    out s = fp.add (16 * s + 1) (fp.mul (16 * s) b0 inp) (z (2 * s)) ∧
    t1 s = fp.add (16 * s + 5)
      (fp.sub (16 * s + 4) (fp.mul (16 * s + 2) b1 inp) (fp.mul (16 * s + 3) a1 (out s))) (z (2 * s + 1)) ∧
    t2 s = fp.sub (16 * s + 8) (fp.mul (16 * s + 6) b2 inp) (fp.mul (16 * s + 7) a2 (out s))

/-- `Stages` on what bank `b` holds in lane `l`, with the coefficients as they stand when the command begins. -/
def LaneStages (s : State) (b : BitVec 4) (l : Lane) (x : Word) (n : Nat) (out t1 t2 : Nat → Word) : Prop :=
  Stages (laneFp s l) (s.mem.get ⟨.C, b.toNat, 0, l⟩) (s.mem.get ⟨.C, b.toNat, 1, l⟩)
    (s.mem.get ⟨.C, b.toNat, 2, l⟩) (s.mem.get ⟨.C, b.toNat, 3, l⟩) (s.mem.get ⟨.C, b.toNat, 4, l⟩)
    (fun j => s.mem.get ⟨.R, b.toNat, Fin.ofNat 8 j, l⟩) x n out t1 t2

/-- Steps (2) to (8) of the ladder in one lane (44_ladder_filter_nlf.md R325, R326), `c` the stepped coefficients
in slot order, `z` the old registers in slot order: the output `y` and the new registers. -/
def LadderSteps (mode : PassMode) (fp : Fp) (c : Slot → Word) (x : Word) (z : Slot → Word)
    (y n1 n2 n3 : Word) : Prop :=
  ∃ y1 s35 uc ud u y2 yk y3 : Word,
    (y1, n1) = (match mode with
      | .lp => lpf1 fp 0 (c 0) x (z 0)
      | .hp => hpf1 fp 0 (c 0) x (z 0)) ∧
    s35 = (match mode with
      | .lp => fp.add 12 (fp.mul 10 (c 1) (z 1)) (fp.mul 11 (c 2) (z 2))
      | .hp => fp.add 12 (fp.mul 10 (c 2) (z 1)) (fp.mul 11 (c 1) (z 2))) ∧
    uc = fp.mul 14 (c 4) (fp.add 13 y1 s35) ∧
    ud = satTanh Config.hw (fp.mul 15 uc (c 5)) ∧
    u = fp.add 18 (fp.mul 16 uc (c 7)) (fp.mul 17 ud (c 6)) ∧
    (y2, n2) = (match mode with
      | .lp => lpf1 fp 20 (c 0) u (z 1)
      | .hp => hpf1 fp 20 (c 0) u (z 1)) ∧
    yk = fp.mul 25 (c 3) y2 ∧
    (y3, n3) = (match mode with
      | .lp => hpf1 fp 30 (c 0) yk (z 2)
      | .hp => lpf1 fp 30 (c 0) yk (z 2)) ∧
    y = fp.div 35 yk (c 3)

/-- What a Family B processor leaves in bank `b`, on the inputs `x`: the ladder's registers and results, on the
coefficients as RAMP_STEP left them. -/
def LadderRan (mode : PassMode) (s t : State) (b : BitVec 4) (x : Lanes) : Prop :=
  ∃ y : Lanes, t.results = y.toList ∧ ∀ l : Lane, ∃ n1 n2 n3 : Word,
    LadderSteps mode (laneFp s l) (fun i => t.mem.get ⟨.C, b.toNat, i, l⟩) (x.at l)
      (fun i => s.mem.get ⟨.R, b.toNat, i, l⟩) (y.at l) n1 n2 n3 ∧
    t.mem.word ⟨.R, b.toNat, 0, l⟩ = some n1 ∧ t.mem.word ⟨.R, b.toNat, 1, l⟩ = some n2 ∧
    t.mem.word ⟨.R, b.toNat, 2, l⟩ = some n3

/-- Every word a command reads is written. -/
def LoadsWritten (i : Instr) (s : State) : Prop := ∀ w, i.loads w = true → (s.mem.word w).isSome = true

/-! ### Numerics (40_numerics.md) -/

/-- From this many units of 2^-149 on, the midpoint above the largest finite value, rounding gives an infinity
(R150). -/
def overflowUnits : Int := 2 ^ 277 - 2 ^ 252

/-- `r` is num/den units of 2^-149 rounded to nearest: finite exactly below the overflow midpoint, and then no
finite word is nearer. -/
def NearestTo (r : Word) (num den : Int) : Prop :=
  (isFinite r = true ↔ |num| < overflowUnits * den) ∧
  (isFinite r = true → ∀ c, isFinite c = true → |signedUnits r * den - num| ≤ |signedUnits c * den - num|)

/-- The rest of R150 about `r` as num/den units rounded: an infinity from the overflow midpoint on; the word with
an even significand where another finite word is equally near; and the sign `neg`. -/
def RoundedEdges (r : Word) (num den : Int) (neg : Bool) : Prop :=
  (overflowUnits * den ≤ |num| → isInf r = true) ∧
  (isFinite r = true → ∀ c, isFinite c = true → signedUnits c ≠ signedUnits r →
    |signedUnits r * den - num| = |signedUnits c * den - num| → magOf r % 2 = 0) ∧
  signOf r = neg

/-- Every byte outside the words `stored` names reads as before. -/
def BytesUnchangedOutside (stored : WordRef → Prop) (s t : State) : Prop :=
  ∀ a, (∀ w, stored w → a < w.addr ∨ w.addr + 4 ≤ a) → t.mem.byte a = s.mem.byte a

/-- SR, SR_INV and the inputs still to come are unchanged. -/
def ControlUnchanged (s t : State) : Prop := t.sr = s.sr ∧ t.srInv = s.srInv ∧ t.pending = s.pending

end Sys2Proof.Stated

open Sys2Proof.Stated

/-! ### Encoding (30_encoding.md) -/

/-- R128: the example words, both ways, in a block of at least four banks. -/
def Obligations.ExampleWordsEncodeAndDecode : Prop :=
  ∀ (nInst : Nat) (p r d x0 x1 x2 x3 : Word), 4 ≤ nInst →
    (encode (.mkcaLp 0 0 15 p r) = [0x00000F01, p, r] ∧ decode nInst [0x00000F01, p, r] = .ok (.mkcaLp 0 0 15 p r)) ∧
    (encode (.mkcaBp 32 1 1 p r) = [0x00201131, p, r] ∧ decode nInst [0x00201131, p, r] = .ok (.mkcaBp 32 1 1 p r)) ∧
    (encode (.mkcbHp 64 0 15 p r d) = [0x00400F12, p, r, d] ∧
      decode nInst [0x00400F12, p, r, d] = .ok (.mkcbHp 64 0 15 p r d)) ∧
    (encode (.proca 3 .soft 0 ⟨x0, x1, x2, x3⟩) = [0x00000073, x0, x1, x2, x3] ∧
      decode nInst [0x00000073, x0, x1, x2, x3] = .ok (.proca 3 .soft 0 ⟨x0, x1, x2, x3⟩)) ∧
    (encode (.proca 0 .tanh 3 ⟨x0, x1, x2, x3⟩) = [0x00003003, x0, x1, x2, x3] ∧
      decode nInst [0x00003003, x0, x1, x2, x3] = .ok (.proca 0 .tanh 3 ⟨x0, x1, x2, x3⟩)) ∧
    (encode (.procblp 2 ⟨x0, x1, x2, x3⟩) = [0x00002004, x0, x1, x2, x3] ∧
      decode nInst [0x00002004, x0, x1, x2, x3] = .ok (.procblp 2 ⟨x0, x1, x2, x3⟩)) ∧
    (encode (.procbhp 0 ⟨x0, x1, x2, x3⟩) = [0x00000005, x0, x1, x2, x3] ∧
      decode nInst [0x00000005, x0, x1, x2, x3] = .ok (.procbhp 0 ⟨x0, x1, x2, x3⟩))

/-- Decode and encode agree (R111, R113, R119, R124): for every number of banks and every instruction that names
one of them, with every field and operand at every value. -/
def Obligations.DecodeOfEncodeIsTheInstruction : Prop :=
  ∀ (nInst : Nat) (i : Instr), i.wf nInst = true → decode nInst (encode i) = .ok i

/-- The other direction: the words a command decodes from are the words its instruction encodes to, so no two
word lists stand for one instruction, and the instruction names an existing bank (R120, R122, R123). -/
def Obligations.EncodeOfDecodeIsTheWords : Prop :=
  ∀ (nInst : Nat) (ws : List Word) (i : Instr), decode nInst ws = .ok i → encode i = ws ∧ i.wf nInst = true

/-- R124: the complete opcode map. A word is the command of a row, with the fields of its pattern, exactly when
`(w & mask) == match` and INST < N_INST; and no two rows match the same word. -/
def Obligations.OpcodeMapByMatchAndMask : Prop :=
  ∀ (nInst : Nat) (w : Word),
    let inst := w.extractLsb' 12 4
    let ramp := w.extractLsb' 16 12
    let lanes := w.extractLsb' 8 4
    let satk := if w.getLsbD 6 then SatKind.soft else SatKind.tanh
    let row := fun (mask mtch : Word) (h : Header) =>
      ((w &&& mask = mtch ∧ inst.toNat < nInst) ↔ decodeHeader nInst w = .ok h)
    row 0xF00000FF 0x00000001 (.mkca .lp ramp inst lanes) ∧
    row 0xF00000FF 0x00000011 (.mkca .hp ramp inst lanes) ∧
    row 0xF00000FF 0x00000021 (.mkca .notch ramp inst lanes) ∧
    row 0xF00000FF 0x00000031 (.mkca .bp ramp inst lanes) ∧
    row 0xF00000FF 0x00000041 (.mkca .ap ramp inst lanes) ∧
    row 0xF00000FF 0x00000002 (.mkcb .lp ramp inst lanes) ∧
    row 0xF00000FF 0x00000012 (.mkcb .hp ramp inst lanes) ∧
    row 0xFFFF0F8F 0x00000003 (.proca (w.extractLsb' 4 2) satk inst) ∧
    row 0xFFFF0FFF 0x00000004 (.procblp inst) ∧
    row 0xFFFF0FFF 0x00000005 (.procbhp inst) ∧
    ([(0xF00000FF, 0x00000001), (0xF00000FF, 0x00000011), (0xF00000FF, 0x00000021), (0xF00000FF, 0x00000031),
      (0xF00000FF, 0x00000041), (0xF00000FF, 0x00000002), (0xF00000FF, 0x00000012), (0xFFFF0F8F, 0x00000003),
      (0xFFFF0FFF, 0x00000004), (0xFFFF0FFF, 0x00000005)] : List (Word × Word)).Pairwise
      fun r r' => ¬ (w &&& r.1 = r.2 ∧ w &&& r'.1 = r'.2)

/-- R121, in the order of R120: a word with RSV != 0 is refused RESERVED_ENCODING; else one with INST >= N_INST is
refused INST_RANGE; else one with a reserved OP or SUB, or a processor's with MASK or RAMP != 0, is refused
RESERVED_ENCODING; and every other word, with exactly its k operand words, is a command. -/
def Obligations.ReservedWordsRefusedInOrder : Prop :=
  ∀ (nInst : Nat) (w : Word) (os : List Word),
    let op := (w.extractLsb' 0 4).toNat
    let sub := (w.extractLsb' 4 4).toNat
    let mask := (w.extractLsb' 8 4).toNat
    let inst := (w.extractLsb' 12 4).toNat
    let ramp := (w.extractLsb' 16 12).toNat
    let rsv := (w.extractLsb' 28 4).toNat
    let reserved := op = 0 ∨ 6 ≤ op ∨ (op = 1 ∧ 5 ≤ sub) ∨ (op = 2 ∧ 2 ≤ sub) ∨ (op = 3 ∧ 8 ≤ sub) ∨
      ((op = 4 ∨ op = 5) ∧ sub ≠ 0) ∨ ((op = 3 ∨ op = 4 ∨ op = 5) ∧ (mask ≠ 0 ∨ ramp ≠ 0))
    (rsv ≠ 0 → decode nInst (w :: os) = .error .reservedEncoding) ∧
    (rsv = 0 → nInst ≤ inst → decode nInst (w :: os) = .error .instRange) ∧
    (rsv = 0 → inst < nInst → reserved → decode nInst (w :: os) = .error .reservedEncoding) ∧
    (rsv = 0 → inst < nInst → ¬ reserved →
      os.length = (if op = 1 then 2 else if op = 2 then 3 else 4) → ∃ i, decode nInst (w :: os) = .ok i)

/-- A command word that decodes, with another number of operand words than its k, is refused by a name of the
model's own; so is a command without a command word (R123; the model's choice, log 9). -/
def Obligations.WrongOperandCountRefused : Prop :=
  ∀ (nInst : Nat) (w : Word) (h : Header) (os : List Word), decodeHeader nInst w = .ok h →
    operandCount? w ≠ some os.length →
    decode nInst (w :: os) = .error .operandCount ∧ decode nInst [] = .error .operandCount

/-! ### A step -/

/-- A step runs the decoded instruction: with a command next whose words decode to `i`, the step is `exec i` on
the state with that input taken off the list (20_memory.md R84, 30_encoding.md R110). -/
def Obligations.StepRunsTheDecodedCommand : Prop :=
  ∀ (s : State) (ws : List Word) (rest : List HostInput) (i : Instr),
    s.pending = .cmd ws :: rest → decode Config.hw.nInst ws = .ok i →
    step s = exec i { s with pending := rest }

/-- A command whose words do not decode is refused with the reason of the decoder (R121, 60_exceptions.md R371;
the operand count is the model's own, log 9). N_INST is open, so this is said of a block of any parameters; the
hardware's step is the step of the block of `Config.hw`. -/
def Obligations.StepRefusesUndecodableCommands : Prop :=
  ∀ (p : Params) (s : State) (ws : List Word) (rest : List HostInput), s.pending = .cmd ws :: rest →
    step s = stepWith Config.hw s ∧
    (decode p.nInst ws = .error .reservedEncoding → stepWith p s = .refused .reservedEncoding) ∧
    (decode p.nInst ws = .error .instRange → stepWith p s = .refused .instRange) ∧
    (decode p.nInst ws = .error .operandCount → stepWith p s = .refused .operandCount)

/-- A word of the opcode table, placed by `withFetchWord`, is the next command a step runs, wherever its bank
exists in the block (logs 7 and 13). -/
def Obligations.PlacedWordIsTheNextCommand : Prop :=
  ∀ (s : State) (nbits w : Nat) (i : Instr), decodeTableWord nbits w = some i → i.wf Config.hw.nInst = true →
    step (s.withFetchWord nbits w) = exec i s

/-- With no input pending the block holds its state and does nothing (60_exceptions.md R386). -/
def Obligations.IdleStepHoldsTheState : Prop :=
  ∀ s : State, s.pending = [] → step s = .next s

/-- The hardware reset event puts the block in the state of reset; the inputs still to come and the naming of the
draws are not the block's (70_reset_and_hazards.md R400; log 22). -/
def Obligations.ResetEventRestoresResetState : Prop :=
  ∀ (s : State) (rest : List HostInput), s.pending = .hwReset :: rest →
    step s = .next { State.reset with pending := rest, draws := s.draws }

/-! ### State and host port (10_state.md, 20_memory.md) -/

/-- R49: the reset values. Every word of C, dC and R is unwritten (what such a word holds is log 5's choice, and
not said here); SR = SR_INV = +0.0; NF = 0; CFG reads its constant and STATUS reads 0. -/
def Obligations.ResetValues : Prop :=
  (∀ w : WordRef, State.reset.mem.word w = none) ∧
  State.reset.sr = 0x00000000 ∧ State.reset.srInv = 0x00000000 ∧ State.reset.nf = false ∧
  csrRead Config.hw State.reset 0x00 = some (BitVec.ofNat 32 (0x00043885 + ((Config.hw.nInst - 1) <<< 20))) ∧
  csrRead Config.hw State.reset 0x0C = some 0x00000000

/-- R72: the layout of the state space. The byte addresses of the words of C, dC and R; and an aligned address
decodes to exactly the state word of an existing bank that is there, or to none where it is reserved. -/
def Obligations.StateSpaceLayout : Prop :=
  (∀ (b : Nat) (i : Slot) (l : Lane),
    (WordRef.mk .C b i l).addr = b * 0x200 + 0x000 + i.val * 0x10 + l.val * 4 ∧
    (WordRef.mk .dC b i l).addr = b * 0x200 + 0x080 + i.val * 0x10 + l.val * 4 ∧
    (WordRef.mk .R b i l).addr = b * 0x200 + 0x100 + i.val * 0x10 + l.val * 4) ∧
  (∀ (nInst : Nat) (a : BitVec 13) (w : WordRef), nInst ≤ 16 → a.toNat % 4 = 0 →
    (decodeAddr nInst a = some w ↔ w.bank < nInst ∧ w.addr = a.toNat)) ∧
  (∀ (nInst : Nat) (a : BitVec 13), a.toNat % 4 = 0 →
    (decodeAddr nInst a = none ↔ nInst ≤ a.toNat / 0x200 ∨ 0x180 ≤ a.toNat % 0x200))

/-- R76: ST_RD(a). Misaligned, then reserved; else it returns the word, and nothing but what the host is answered
changes. Of an unwritten word it returns what the word holds, and a model's run ends there (60_exceptions.md
R372). -/
def Obligations.StateReadReturnsTheWord : Prop :=
  ∀ (s : State) (a : BitVec 13) (rest : List HostInput), s.pending = .stRd a :: rest →
    let reserved := Config.hw.nInst ≤ a.toNat / 0x200 ∨ 0x180 ≤ a.toNat % 0x200
    (a.toNat % 4 ≠ 0 → step s = .refused .misaligned) ∧
    (a.toNat % 4 = 0 → reserved → step s = .refused .reservedAddress) ∧
    (a.toNat % 4 = 0 → ¬ reserved → s.mem.wordAt a.toNat = none →
      ∃ w : WordRef, w.addr = a.toNat ∧
        step s = .next { s with pending := rest, results := [s.mem.get w], query := none, uninit := some w } ∧
        runStep s = .error (.uninitRead w)) ∧
    (∀ v, a.toNat % 4 = 0 → ¬ reserved → s.mem.wordAt a.toNat = some v →
      step s = .next { s with pending := rest, results := [v], query := none, uninit := none })

/-- R77: ST_WR(a, v). Misaligned, then reserved; else the word at `a` is `v`, every other byte, NF and the control
registers are as before. -/
def Obligations.StateWriteStoresTheWord : Prop :=
  ∀ (s : State) (a : BitVec 13) (v : Word) (rest : List HostInput), s.pending = .stWr a v :: rest →
    let reserved := Config.hw.nInst ≤ a.toNat / 0x200 ∨ 0x180 ≤ a.toNat % 0x200
    (a.toNat % 4 ≠ 0 → step s = .refused .misaligned) ∧
    (a.toNat % 4 = 0 → reserved → step s = .refused .reservedAddress) ∧
    (a.toNat % 4 = 0 → ¬ reserved → ∃ t, step s = .next t ∧
      t.mem.wordAt a.toNat = some v ∧
      (∀ a', a' < a.toNat ∨ a.toNat + 4 ≤ a' → t.mem.byte a' = s.mem.byte a') ∧
      t.nf = s.nf ∧ t.sr = s.sr ∧ t.srInv = s.srInv ∧ t.pending = rest ∧ t.results = [] ∧ t.query = none ∧
      t.uninit = none)

/-- R78: CSR_RD(o), with the value of CFG (10_state.md R42). -/
def Obligations.ControlReadReturnsTheRegister : Prop :=
  ∀ (s : State) (o : BitVec 8) (rest : List HostInput), s.pending = .csrRd o :: rest →
    let answer := fun (v : Word) => Host.Outcome.next (φ := Fault) (ρ := Refusal)
      { s with pending := rest, results := [v], query := none, uninit := none }
    (o.toNat % 4 ≠ 0 → step s = .refused .misaligned) ∧
    (o.toNat % 4 = 0 → 0x10 ≤ o.toNat → step s = .refused .reservedAddress) ∧
    (o = 0x00 → step s = answer (BitVec.ofNat 32 (0x00043885 + ((Config.hw.nInst - 1) <<< 20)))) ∧
    (o = 0x04 → step s = answer s.sr) ∧
    (o = 0x08 → step s = answer s.srInv) ∧
    (o = 0x0C → step s = answer (if s.nf then 1 else 0))

/-- R79: CSR_WR(o, v). CFG ignores it, SR and SR_INV take any pattern, a 1 in bit 0 clears NF. -/
def Obligations.ControlWriteEffects : Prop :=
  ∀ (s : State) (o : BitVec 8) (v : Word) (rest : List HostInput), s.pending = .csrWr o v :: rest →
    let s1 : State := { s with pending := rest, results := [], query := none, uninit := none }
    (o.toNat % 4 ≠ 0 → step s = .refused .misaligned) ∧
    (o.toNat % 4 = 0 → 0x10 ≤ o.toNat → step s = .refused .reservedAddress) ∧
    (o = 0x00 → step s = .next s1) ∧
    (o = 0x04 → step s = .next { s1 with sr := v }) ∧
    (o = 0x08 → step s = .next { s1 with srInv := v }) ∧
    (o = 0x0C → step s = .next { s1 with nf := if v.getLsbD 0 then false else s.nf })

/-! ### The invariant of the state space -/

/-- Every step keeps the state space in canonical form, free of reserved addresses, and whole words. -/
def Obligations.StepKeepsTheStateSpaceInvariant : Prop :=
  ∀ s t : State, s.Inv → step s = .next t → t.Inv

def Obligations.ResetMeetsTheStateSpaceInvariant : Prop := State.reset.Inv

/-! ### Makers (42_bilinear_coeff_mapper.md, 41_coeff_ramp_interpolator.md) -/

/-- MKCA.LP, MKCA.HP, MKCA.NOTCH, MKCA.BP and MKCA.AP with N = 0 complete and snap the selected lanes to the
Family A targets (R236, R237). -/
def Obligations.FamilyASnapTakesTheTargets : Prop :=
  ∀ (ft : FilterType) (b m : BitVec 4) (pitch reso : Word) (s : State) (T : Slot → Word), SrValid s →
    FamilyATarget (targetFp s) ft (frequency s pitch) s.sr reso T →
    ∃ t, exec (mkcaInstr ft 0 b m pitch reso) s = .next t ∧ Snapped s t b m T ∧
      t.results = [] ∧ t.query = some pitch

/-- MKCA.LP, MKCA.HP, MKCA.NOTCH, MKCA.BP and MKCA.AP with N >= 1 complete and start the ramp toward the Family A
targets (R235, R201). -/
def Obligations.FamilyARampStartsTowardTheTargets : Prop :=
  ∀ (ft : FilterType) (n : BitVec 12) (b m : BitVec 4) (pitch reso : Word) (s : State) (T : Slot → Word),
    n ≠ 0 → SrValid s →
    FamilyATarget (targetFp s) ft (frequency s pitch) s.sr reso T →
    ∃ t, exec (mkcaInstr ft n b m pitch reso) s = .next t ∧ Ramped s t n b m T ∧
      t.results = [] ∧ t.query = some pitch

/-- MKCB.LP and MKCB.HP with N = 0 complete and snap the selected lanes to the Family B targets (R245 to R249).
Under `ftz` it rests on two choices of the model: that a subnormal target is stored as a zero (40_numerics.md R158),
T[5] = drive and T[6] too though R249 says that sat is stored as given (log 11, DEDUCED), and that the clamp of a
subnormal drive compares it as a zero (log 10, DEDUCED). -/
def Obligations.FamilyBSnapTakesTheTargets : Prop :=
  ∀ (mode : PassMode) (b m : BitVec 4) (pitch reso drive : Word) (s : State) (T : Slot → Word), SrValid s →
    SrInvValid s → FamilyBTarget (targetFp s) mode (frequency s pitch) s.sr s.srInv reso drive T →
    ∃ t, exec (mkcbInstr mode 0 b m pitch reso drive) s = .next t ∧ Snapped s t b m T ∧
      t.results = [] ∧ t.query = some pitch

/-- MKCB.LP and MKCB.HP with N >= 1 complete and start the ramp toward the Family B targets (R245, R201). That under
`ftz` the clamp of a negative subnormal drive compares it as a zero and keeps it, so that a dC may be -0.0 where +0.0
would be, is the model's choice (log 10, DEDUCED). -/
def Obligations.FamilyBRampStartsTowardTheTargets : Prop :=
  ∀ (mode : PassMode) (n : BitVec 12) (b m : BitVec 4) (pitch reso drive : Word) (s : State) (T : Slot → Word),
    n ≠ 0 → SrValid s → SrInvValid s →
    FamilyBTarget (targetFp s) mode (frequency s pitch) s.sr s.srInv reso drive T →
    ∃ t, exec (mkcbInstr mode n b m pitch reso drive) s = .next t ∧ Ramped s t n b m T ∧
      t.results = [] ∧ t.query = some pitch

/-- R231: where the sample rate fails its check, every maker is refused SR_INVALID; MKCB also where the reciprocal
fails its own. Where the checks pass, every maker completes. That under `ftz` the check of a subnormal SR_INV
compares it as a zero, so that MKCB is refused, is the model's choice (log 10, DEDUCED). -/
def Obligations.MakersRefusedOnInvalidSampleRate : Prop :=
  ∀ (n : BitVec 12) (b m : BitVec 4) (pitch reso drive : Word) (s : State),
    (¬ SrValid s → ∀ ft, exec (mkcaInstr ft n b m pitch reso) s = .refused .srInvalid) ∧
    (¬ (SrValid s ∧ SrInvValid s) →
      ∀ mode, exec (mkcbInstr mode n b m pitch reso drive) s = .refused .srInvalid) ∧
    (SrValid s → ∀ ft, ∃ t, exec (mkcaInstr ft n b m pitch reso) s = .next t) ∧
    (SrValid s → SrInvValid s → ∀ mode, ∃ t, exec (mkcbInstr mode n b m pitch reso drive) s = .next t)

/-- A ramped maker whose check passes completes, and records the first unwritten C word of the selected lanes, lanes
outer and slots inner (R201, 60_exceptions.md R372, R374); a model's run ends there. -/
def Obligations.RampedMakersRecordFirstUnwrittenC : Prop :=
  ∀ (n : BitVec 12) (b m : BitVec 4) (pitch reso drive : Word) (s : State) (i : Slot) (l : Lane),
    n ≠ 0 → SrValid s → m.getLsbD l.val = true → s.mem.word ⟨.C, b.toNat, i, l⟩ = none →
    (∀ (i' : Slot) (l' : Lane), m.getLsbD l'.val = true → (l' < l ∨ (l' = l ∧ i' < i)) →
      (s.mem.word ⟨.C, b.toNat, i', l'⟩).isSome = true) →
    (∀ ft, ∃ t, exec (mkcaInstr ft n b m pitch reso) s = .next t ∧ t.uninit = some ⟨.C, b.toNat, i, l⟩ ∧
      endRun (.next t) = .error (.uninitRead ⟨.C, b.toNat, i, l⟩)) ∧
    (SrInvValid s → ∀ mode, ∃ t, exec (mkcbInstr mode n b m pitch reso drive) s = .next t ∧
      t.uninit = some ⟨.C, b.toNat, i, l⟩ ∧ endRun (.next t) = .error (.uninitRead ⟨.C, b.toNat, i, l⟩))

/-- R232's corner case r = NaN: where f is a NaN, every target computed from it is one (R237 and R247, R249 compute
MKCA.BP's b1, the unused slots, k, sat, blend and binv without it; logs 2, 26); and in a block of any parameters whose
tuning product is a NaN, every maker that passes its check with a lane selected sets NF. -/
def Obligations.NaNFrequencyGivesNaNTargets : Prop :=
  (∀ (fp : Fp) (ft : FilterType) (f sr reso : Word) (T : Slot → Word), FamilyATarget fp ft f sr reso T →
    isNaN f = true → isNaN (T 0) = true ∧ isNaN (T 1) = true ∧ isNaN (T 2) = true ∧ isNaN (T 4) = true ∧
      (ft ≠ .bp → isNaN (T 3) = true)) ∧
  (∀ (fp : Fp) (mode : PassMode) (f sr srInv reso drive : Word) (T : Slot → Word),
    FamilyBTarget fp mode f sr srInv reso drive T → isNaN f = true →
      isNaN (T 0) = true ∧ isNaN (T 1) = true ∧ isNaN (T 2) = true ∧ isNaN (T 4) = true) ∧
  (∀ (p : Params) (n : BitVec 12) (b m : BitVec 4) (pitch reso drive : Word) (s : State), m ≠ 0 →
    isNaN ((arith p s.draws 0).mul 0 p.refFreq (p.tune pitch)) = true →
    (∀ ft, rateOk p (mkcaInstr ft n b m pitch reso) s = true →
      ∃ t, execWith p (mkcaInstr ft n b m pitch reso) s = .next t ∧ t.nf = true) ∧
    (∀ mode, rateOk p (mkcbInstr mode n b m pitch reso drive) s = true →
      ∃ t, execWith p (mkcbInstr mode n b m pitch reso drive) s = .next t ∧ t.nf = true))

/-- R233: a maker with MASK = 0 completes, having asked the tuning provider, and writes no state and leaves NF
unchanged. -/
def Obligations.EmptyMaskWritesNothing : Prop :=
  ∀ (n : BitVec 12) (b : BitVec 4) (pitch reso drive : Word) (s : State), SrValid s →
    (∀ ft, ∃ t, exec (mkcaInstr ft n b 0 pitch reso) s = .next t ∧ t.mem = s.mem ∧ t.nf = s.nf ∧
      t.query = some pitch ∧ ControlUnchanged s t) ∧
    (SrInvValid s → ∀ mode, ∃ t, exec (mkcbInstr mode n b 0 pitch reso drive) s = .next t ∧ t.mem = s.mem ∧
      t.nf = s.nf ∧ t.query = some pitch ∧ ControlUnchanged s t)

/-- The frame of the seven makers (10_state.md R35, 20_memory.md R82): dC of the selected lanes of the bank, and C
of them in a snap, are all of memory they may change; they return nothing and leave SR, SR_INV alone. -/
def Obligations.MakersChangeOnlyTheMaskedCoefficients : Prop :=
  ∀ (n : BitVec 12) (b m : BitVec 4) (pitch reso drive : Word) (s t : State),
    ((∃ ft, exec (mkcaInstr ft n b m pitch reso) s = .next t) ∨
      (∃ mode, exec (mkcbInstr mode n b m pitch reso drive) s = .next t)) →
    BytesUnchangedOutside (fun w => w.bank = b.toNat ∧ m.getLsbD w.lane.val = true ∧
      (w.region = .dC ∨ (w.region = .C ∧ n = 0))) s t ∧
    ControlUnchanged s t ∧ t.results = [] ∧ t.query = some pitch

/-! ### PROCA (43_biquad_cascade_saturator.md) -/

/-- PROCA completes, and does what R281 says: the saturated registers, the outputs, the ramp step. A subnormal register is stored as a zero under `ftz` (40_numerics.md R158; log 11). -/
def Obligations.ProcaRunsItsStages : Prop :=
  ∀ (nstg : BitVec 2) (k : SatKind) (b : BitVec 4) (x : Lanes) (s : State) (out t1 t2 : Lane → Nat → Word),
    (∀ l, LaneStages s b l (x.at l) (nstg.toNat + 1) (out l) (t1 l) (t2 l)) →
    ∃ t, exec (.proca nstg k b x) s = .next t ∧
      (∀ (l : Lane) (j : Nat) (i1 i2 : Slot), j < nstg.toNat + 1 → i1.val = 2 * j → i2.val = 2 * j + 1 →
        t.mem.word ⟨.R, b.toNat, i1, l⟩ = some ((laneFp s l).flush (saturator Config.hw k (t1 l j))) ∧
        t.mem.word ⟨.R, b.toNat, i2, l⟩ = some ((laneFp s l).flush (saturator Config.hw k (t2 l j)))) ∧
      t.results = [out 0 nstg.toNat, out 1 nstg.toNat, out 2 nstg.toNat, out 3 nstg.toNat] ∧
      RampStepped s t b

/-- The frame of PROCA (R282, R36): register slots 0 .. 2n-1 and C of its bank are all of memory it may change; it
asks the tuning provider nothing. -/
def Obligations.ProcaChangesOnlyItsRegistersAndC : Prop :=
  ∀ (nstg : BitVec 2) (k : SatKind) (b : BitVec 4) (x : Lanes) (s t : State),
    exec (.proca nstg k b x) s = .next t →
    BytesUnchangedOutside (fun w => w.bank = b.toNat ∧
      (w.region = .C ∨ (w.region = .R ∧ w.slot.val < 2 * (nstg.toNat + 1)))) s t ∧
    ControlUnchanged s t ∧ t.query = none

/-- R284, R285: wherever a stage's register value is no NaN before the saturator, an infinity too, the register
PROCA writes is within the saturator's bound: 1 for SAT_TANH, SOFT_BOUND for SAT_SOFT. A NaN gives a NaN register
and sets NF. R284 binds finite values; R285 gives an infinity "a bounded value", and that SAT_SOFT's bound there is
SOFT_BOUND is the model's choice (log 2, DEDUCED). -/
def Obligations.ProcaRegistersStayBounded : Prop :=
  ∀ (nstg : BitVec 2) (k : SatKind) (b : BitVec 4) (x : Lanes) (s t : State) (l : Lane)
    (out t1 t2 : Nat → Word) (j : Nat) (i1 i2 : Slot),
    exec (.proca nstg k b x) s = .next t →
    LaneStages s b l (x.at l) (nstg.toNat + 1) out t1 t2 →
    j < nstg.toNat + 1 → i1.val = 2 * j → i2.val = 2 * j + 1 →
    let bound := match k with
      | .tanh => 0x3F800000
      | .soft => softBound Config.hw
    let within := fun (v : Word) (i : Slot) =>
      (isNaN v = false → ∃ r, t.mem.word ⟨.R, b.toNat, i, l⟩ = some r ∧ isFinite r = true ∧
        orderKey (fneg bound) ≤ orderKey r ∧ orderKey r ≤ orderKey bound) ∧
      (isNaN v = true → ∃ r, t.mem.word ⟨.R, b.toNat, i, l⟩ = some r ∧ isNaN r = true ∧ t.nf = true)
    within (t1 j) i1 ∧ within (t2 j) i2

/-! ### PROCBLP and PROCBHP (44_ladder_filter_nlf.md, 40_numerics.md) -/

/-- R164 and R165: the one-pole primitives, their draws numbered from `k`. -/
def Obligations.OnePolePrimitives : Prop :=
  ∀ (fp : Fp) (k : Nat) (g x z v y : Word), v = fp.mul (k + 1) (fp.sub k x z) g → y = fp.add (k + 2) v z →
    lpf1 fp k g x z = (y, fp.add (k + 3) y v) ∧
    hpf1 fp k g x z = (fp.sub (k + 4) x y, fp.add (k + 3) y v)

/-- PROCBLP completes, and does what R325 says: the ramp step first, then the low-pass ladder on the stepped
coefficients. -/
def Obligations.ProcblpRunsTheLowpassLadder : Prop :=
  ∀ (b : BitVec 4) (x : Lanes) (s : State),
    ∃ t, exec (.procblp b x) s = .next t ∧ RampStepped s t b ∧ LadderRan .lp s t b x

/-- PROCBHP completes, and does what R326 says. -/
def Obligations.ProcbhpRunsTheHighpassLadder : Prop :=
  ∀ (b : BitVec 4) (x : Lanes) (s : State),
    ∃ t, exec (.procbhp b x) s = .next t ∧ RampStepped s t b ∧ LadderRan .hp s t b x

/-- The frame of PROCBLP and PROCBHP (10_state.md R37): register slots 0, 1, 2 and C of the bank are all of memory
they may change; they ask the tuning provider nothing. -/
def Obligations.LaddersChangeOnlyThreeRegistersAndC : Prop :=
  ∀ (b : BitVec 4) (x : Lanes) (s t : State),
    (exec (.procblp b x) s = .next t ∨ exec (.procbhp b x) s = .next t) →
    BytesUnchangedOutside (fun w => w.bank = b.toNat ∧
      (w.region = .C ∨ (w.region = .R ∧ w.slot.val < 3))) s t ∧
    ControlUnchanged s t ∧ t.query = none

/-! ### All commands -/

/-- R203: each processor, PROCA, PROCBLP and PROCBHP, advances all eight slots of all four lanes of C by dC, and
leaves dC alone. -/
def Obligations.ProcessorsAdvanceEveryCoefficient : Prop :=
  ∀ (i : Instr) (s t : State), i.isProcessor = true → exec i s = .next t → RampStepped s t i.inst

/-- A processor that reads an unwritten word completes and records such a word (60_exceptions.md R372, R374). PROCA's
first read is register slot 0 of lane 0. A ladder's is C of slot 0, lane 0, also where dC of that slot is unwritten
too: that the operands of C + dC are read from left to right is the model's choice (log 6, DEDUCED). -/
def Obligations.ProcessorsRecordUnwrittenReads : Prop :=
  (∀ (i : Instr) (s : State) (w : WordRef), i.isProcessor = true → i.loads w = true → s.mem.word w = none →
    ∃ w' t, i.loads w' = true ∧ s.mem.word w' = none ∧ exec i s = .next t ∧ t.uninit = some w') ∧
  (∀ (nstg : BitVec 2) (k : SatKind) (b : BitVec 4) (x : Lanes) (s : State),
    s.mem.word ⟨.R, b.toNat, 0, 0⟩ = none →
    ∃ t, exec (.proca nstg k b x) s = .next t ∧ t.uninit = some ⟨.R, b.toNat, 0, 0⟩) ∧
  (∀ (b : BitVec 4) (x : Lanes) (s : State), s.mem.word ⟨.C, b.toNat, 0, 0⟩ = none →
    (∃ t, exec (.procblp b x) s = .next t ∧ t.uninit = some ⟨.C, b.toNat, 0, 0⟩) ∧
    ∃ t, exec (.procbhp b x) s = .next t ∧ t.uninit = some ⟨.C, b.toNat, 0, 0⟩)

/-- R372: a model's run of a command whose check passes goes on where every word the command reads is written, and
ends UNINIT_READ on an unwritten one where there is one. The hardware's step completes in both cases. -/
def Obligations.RunEndsOnlyAtUnwrittenReads : Prop :=
  ∀ (s : State) (ws : List Word) (rest : List HostInput) (i : Instr), s.pending = .cmd ws :: rest →
    decode Config.hw.nInst ws = .ok i → rateOk Config.hw i { s with pending := rest } = true →
    ∃ t, step s = .next t ∧
      (LoadsWritten i s → runStep s = .ok t) ∧
      (∀ w, i.loads w = true → s.mem.word w = none →
        ∃ w', i.loads w' = true ∧ s.mem.word w' = none ∧ runStep s = .error (.uninitRead w'))

/-- R373: after a command completes, NF is set exactly when it was set, or a value the command wrote to C, dC or R
(`Instr.stores`, the table of 20_memory.md R82) or returned is a NaN or an infinity. -/
def Obligations.NonFiniteFlagAfterACommand : Prop :=
  ∀ (i : Instr) (s t : State), exec i s = .next t →
    (t.nf = true ↔
      s.nf = true ∨ (∃ w v, i.stores w = true ∧ t.mem.word w = some v ∧ isFinite v = false) ∨
      ∃ y ∈ t.results, isFinite y = false)

/-- R39: lane independence. Two runs of a command that agree in lane l (its words of the bank, its input), in the
command's fields and scalar operands, and in SR and SR_INV, leave the same words in lane l and return the same
result for it, whatever the other lanes hold and are given. That they agree in `draws` too names the same NaN draws
in both runs: the counter is the model's own (log 3). -/
def Obligations.LanesDoNotInterfere : Prop :=
  ∀ (l : Lane) (i i' : Instr) (s s' t t' : State), i.agreeAt l i' →
    s.sr = s'.sr → s.srInv = s'.srInv → s.draws = s'.draws →
    (∀ (r : Region) (j : Slot), s.mem.word ⟨r, i.inst.toNat, j, l⟩ = s'.mem.word ⟨r, i.inst.toNat, j, l⟩) →
    exec i s = .next t → exec i' s' = .next t' →
    (∀ (r : Region) (j : Slot), t.mem.word ⟨r, i.inst.toNat, j, l⟩ = t'.mem.word ⟨r, i.inst.toNat, j, l⟩) ∧
    t.results[l.val]? = t'.results[l.val]?

/-- Bank independence (10_state.md R38): what a command does depends on no bank but its own. Two states that agree
on the bank's words, SR, SR_INV and NF complete alike, with the same words in the bank, results and NF. That they
agree in `draws` too names the same NaN draws in both (log 3). -/
def Obligations.BanksDoNotInterfere : Prop :=
  ∀ (i : Instr) (s s' t : State), s.sr = s'.sr → s.srInv = s'.srInv → s.draws = s'.draws → s.nf = s'.nf →
    (∀ (r : Region) (j : Slot) (l : Lane),
      s.mem.word ⟨r, i.inst.toNat, j, l⟩ = s'.mem.word ⟨r, i.inst.toNat, j, l⟩) →
    exec i s = .next t →
    ∃ t', exec i s' = .next t' ∧ t'.results = t.results ∧ t'.nf = t.nf ∧ t'.query = t.query ∧
      t'.uninit = t.uninit ∧
      ∀ (r : Region) (j : Slot) (l : Lane),
        t.mem.word ⟨r, i.inst.toNat, j, l⟩ = t'.mem.word ⟨r, i.inst.toNat, j, l⟩

/-! ### Whole-machine rules -/

/-- R43: no command writes SR or SR_INV. A step that changes SR or SR_INV is a write to that register, which then
holds what was written, or the reset event. -/
def Obligations.SampleRateChangesOnlyByControlWrite : Prop :=
  ∀ (s t : State), step s = .next t →
    (t.sr ≠ s.sr → (∃ v rest, s.pending = .csrWr 0x04 v :: rest ∧ t.sr = v) ∨
      ∃ rest, s.pending = .hwReset :: rest) ∧
    (t.srInv ≠ s.srInv → (∃ v rest, s.pending = .csrWr 0x08 v :: rest ∧ t.srInv = v) ∨
      ∃ rest, s.pending = .hwReset :: rest)

/-- NF is cleared only by a host write of 1 to STATUS bit 0, and by the reset event, and is set only by a command
(10_state.md R44, 60_exceptions.md R373). -/
def Obligations.NonFiniteFlagIsSticky : Prop :=
  ∀ (s t : State), step s = .next t →
    (s.nf = true → t.nf = false →
      (∃ v rest, s.pending = .csrWr 0x0C v :: rest ∧ v.getLsbD 0 = true) ∨ ∃ rest, s.pending = .hwReset :: rest) ∧
    (s.nf = false → t.nf = true → ∃ ws rest, s.pending = .cmd ws :: rest)

/-- R changes only by a processor command on its bank, a host write of the word, or the reset event (10_state.md
R35). -/
def Obligations.RegistersChangeOnlyByProcessorOrHostWrite : Prop :=
  ∀ (s t : State) (b : Nat) (j : Slot) (l : Lane), step s = .next t →
    t.mem.word ⟨.R, b, j, l⟩ ≠ s.mem.word ⟨.R, b, j, l⟩ →
    (∃ ws rest i, s.pending = .cmd ws :: rest ∧ decode Config.hw.nInst ws = .ok i ∧ i.isProcessor = true ∧
      i.inst.toNat = b) ∨
    (∃ a v rest, s.pending = .stWr a v :: rest ∧ (WordRef.mk .R b j l).addr = a.toNat) ∨
    ∃ rest, s.pending = .hwReset :: rest

/-- dC changes only by a maker on its bank, a host write of the word, or the reset event (10_state.md R32). -/
def Obligations.RampDeltasChangeOnlyByMakerOrHostWrite : Prop :=
  ∀ (s t : State) (b : Nat) (j : Slot) (l : Lane), step s = .next t →
    t.mem.word ⟨.dC, b, j, l⟩ ≠ s.mem.word ⟨.dC, b, j, l⟩ →
    (∃ ws rest i, s.pending = .cmd ws :: rest ∧ decode Config.hw.nInst ws = .ok i ∧ i.isProcessor = false ∧
      i.inst.toNat = b) ∨
    (∃ a v rest, s.pending = .stWr a v :: rest ∧ (WordRef.mk .dC b j l).addr = a.toNat) ∨
    ∃ rest, s.pending = .hwReset :: rest

/-- Once every word of a bank is written, every command on it whose sample-rate check passes (SR for MKCA, SR and
SR_INV for MKCB, none for a processor) completes without reading an unwritten word, and the bank stays so
(70_reset_and_hazards.md R402, 60_exceptions.md R372). -/
def Obligations.ReadyBankRunsAndStaysReady : Prop :=
  ∀ (i : Instr) (s : State), s.bankReady i.inst.toNat → rateOk Config.hw i s = true →
    ∃ t, exec i s = .next t ∧ t.uninit = none ∧ t.bankReady i.inst.toNat

/-- The last step of the boot sequence (R402): with the registers of the bank written, a snap maker on all four
lanes makes the bank ready, for every filter type and mode. -/
def Obligations.SnapOnAllLanesReadiesTheBank : Prop :=
  ∀ (b : BitVec 4) (pitch reso drive : Word) (s : State), SrValid s →
    (∀ (j : Slot) (l : Lane), (s.mem.word ⟨.R, b.toNat, j, l⟩).isSome = true) →
    (∀ ft, ∃ t, exec (mkcaInstr ft 0 b 15 pitch reso) s = .next t ∧ t.bankReady b.toNat) ∧
    (SrInvValid s →
      ∀ mode, ∃ t, exec (mkcbInstr mode 0 b 15 pitch reso drive) s = .next t ∧ t.bankReady b.toNat)

/-- `clrr i<b>` (30_encoding.md R127, 70_reset_and_hazards.md R404): its 32 host writes, one a step, leave +0.0 in
every register word of an existing bank, and every other word, SR, SR_INV and NF as they were. -/
def Obligations.ClrrSilencesTheBank : Prop :=
  ∀ (b : Nat) (s : State) (rest ins : List HostInput), b < Config.hw.nInst → assemble (.clrr b) = some ins →
    ∃ t, Host.Core.run Sys2Proof.core 32 { s with pending := ins ++ rest } = .next t ∧
      (∀ (j : Slot) (l : Lane), (State.mem t).word ⟨.R, b, j, l⟩ = some 0x00000000) ∧
      (∀ w : WordRef, ¬ (w.region = .R ∧ w.bank = b) → (State.mem t).word w = s.mem.word w) ∧
      State.sr t = s.sr ∧ State.srInv t = s.srInv ∧ State.nf t = s.nf ∧ State.pending t = rest

/-- The ramp has no counter (R204) and arrives by repeated rounded sums (R205): after any list of processor
commands on a bank, whichever they are, each coefficient is the old one with dC added once for each command, each
sum rounded, and dC is as it was. The sums' draws are those of the successive commands. -/
def Obligations.RampIsTheRepeatedSum : Prop :=
  ∀ (is : List Instr) (b : BitVec 4) (s : State), (∀ j ∈ is, j.isProcessor = true ∧ j.inst = b) →
    ∃ t, execAll is s = .next t ∧ ∀ (i : Slot) (l : Lane),
      t.mem.word ⟨.dC, b.toNat, i, l⟩ = s.mem.word ⟨.dC, b.toNat, i, l⟩ ∧
      t.mem.get ⟨.C, b.toNat, i, l⟩ =
        (List.range is.length).foldl
          (fun acc k => (arith Config.hw (s.draws + k) (8 + 4 * i.val + l.val)).add 0 acc
            (s.mem.get ⟨.dC, b.toNat, i, l⟩))
          (s.mem.get ⟨.C, b.toNat, i, l⟩)

/-! ### Numerics (40_numerics.md) -/

/-- Each operation on finite operands is the exact result rounded to nearest, under `ieee` (R150, R151): finite
exactly where the exact result is below the overflow midpoint, and then no finite word is nearer to the exact sum,
difference, product or quotient. -/
def Obligations.OperationsRoundToNearest : Prop :=
  ∀ (fp : Fp) (k : Nat) (a b : Word), fp.ftz = false → isFinite a = true → isFinite b = true →
    let A := signedUnits a
    let B := signedUnits b
    NearestTo (fp.add k a b) (A + B) 1 ∧
    NearestTo (fp.sub k a b) (A - B) 1 ∧
    NearestTo (fp.mul k a b) (A * B) (2 ^ 149) ∧
    (B ≠ 0 → NearestTo (fp.div k a b) (A * 2 ^ 149 * B.sign) |B|)

/-- Ties, overflow and signs (R150). Rounding of a positive ratio of units: on a tie the result has an even
significand, and it is an infinity exactly from the overflow midpoint on. The same of each operation on finite
operands under `ieee`, with the sign of its result: that of the exact sum or difference, of a zero one negative only
where both terms are; the XOR of the signs for a product and a quotient. -/
def Obligations.TiesGoToEvenAndOverflowToInfinity : Prop :=
  (∀ n d : Nat, 0 < d →
    (∀ m, m < 0x7F800000 → roundMag n d < 0x7F800000 → m ≠ roundMag n d →
      |(unitsOfMag m * d : Int) - n| = |(unitsOfMag (roundMag n d) * d : Int) - n| → roundMag n d % 2 = 0) ∧
    (roundMag n d = 0x7F800000 ↔ (2 ^ 277 - 2 ^ 252) * d ≤ n)) ∧
  (∀ (fp : Fp) (k : Nat) (a b : Word), fp.ftz = false → isFinite a = true → isFinite b = true →
    let A := signedUnits a
    let B := signedUnits b
    RoundedEdges (fp.add k a b) (A + B) 1 (if A + B = 0 then signOf a && signOf b else decide (A + B < 0)) ∧
    RoundedEdges (fp.sub k a b) (A - B) 1 (if A - B = 0 then signOf a && !signOf b else decide (A - B < 0)) ∧
    RoundedEdges (fp.mul k a b) (A * B) (2 ^ 149) (signOf a != signOf b) ∧
    (B ≠ 0 → RoundedEdges (fp.div k a b) (A * 2 ^ 149 * B.sign) |B| (signOf a != signOf b)))

/-- The special cases of R150 and R153: a NaN operand or an invalid operation gives a NaN; what an infinite operand
gives beside a finite one or another infinity; division by zero; the sign of a zero sum. An operand counts as a zero
when the mode reads it as one (R152). -/
def Obligations.SpecialOperands : Prop :=
  ∀ (fp : Fp) (k : Nat) (a b : Word),
    ((isNaN a = true ∨ isNaN b = true) →
      isNaN (fp.add k a b) = true ∧ isNaN (fp.sub k a b) = true ∧ isNaN (fp.mul k a b) = true ∧
      isNaN (fp.div k a b) = true) ∧
    (isInf a = true → isInf b = true →
      (isNaN (fp.add k a b) = true ↔ signOf a ≠ signOf b) ∧
      (isNaN (fp.sub k a b) = true ↔ signOf a = signOf b) ∧ isNaN (fp.div k a b) = true) ∧
    (isInf a = true → isInf b = true →
      (signOf a = signOf b → fp.add k a b = a) ∧ (signOf a ≠ signOf b → fp.sub k a b = a)) ∧
    (isInf a = true → isFinite b = true →
      fp.add k a b = a ∧ fp.add k b a = a ∧ fp.sub k a b = a ∧ fp.sub k b a = fneg a ∧
      isInf (fp.div k a b) = true ∧ signOf (fp.div k a b) = (signOf a != signOf b) ∧
      isZero (fp.div k b a) = true ∧ signOf (fp.div k b a) = (signOf b != signOf a)) ∧
    (isInf a = true → isNaN b = false → isZero (fp.flush b) = false →
      isInf (fp.mul k a b) = true ∧ signOf (fp.mul k a b) = (signOf a != signOf b) ∧
      isInf (fp.mul k b a) = true ∧ signOf (fp.mul k b a) = (signOf a != signOf b)) ∧
    (isZero (fp.flush a) = true → isInf b = true →
      isNaN (fp.mul k a b) = true ∧ isNaN (fp.mul k b a) = true) ∧
    (isZero (fp.flush a) = true → isZero (fp.flush b) = true → isNaN (fp.div k a b) = true ∧
      isZero (fp.add k a b) = true ∧ (signOf (fp.add k a b) = true ↔ signOf a = true ∧ signOf b = true)) ∧
    (isFinite a = true → isZero (fp.flush a) = false → isZero (fp.flush b) = true →
      isInf (fp.div k a b) = true ∧ signOf (fp.div k a b) = (signOf a != signOf b)) ∧
    (isFinite a = true → fp.add k a (fneg a) = 0x00000000)

/-- R152: under `ftz` an operation reads a subnormal operand as a zero of the same sign and replaces a subnormal
result by a zero of the same sign: it is the flush of what `ieee` gives on the flushed operands. Under `ieee` nothing
is flushed. That the comparisons `<` and `>=` too read a subnormal as a zero under `ftz` is the model's choice
(log 10, DEDUCED). -/
def Obligations.DenormModes : Prop :=
  ∀ (fp : Fp) (k : Nat) (a b : Word),
    (fp.ftz = true →
      (∀ w, isSubnormal (fp.flush w) = false ∧ signOf (fp.flush w) = signOf w ∧
        (isSubnormal w = true → isZero (fp.flush w) = true) ∧ (isSubnormal w = false → fp.flush w = w)) ∧
      let ieee : Fp := ⟨false, fp.nan⟩
      fp.add k a b = fp.flush (ieee.add k (fp.flush a) (fp.flush b)) ∧
      fp.sub k a b = fp.flush (ieee.sub k (fp.flush a) (fp.flush b)) ∧
      fp.mul k a b = fp.flush (ieee.mul k (fp.flush a) (fp.flush b)) ∧
      fp.div k a b = fp.flush (ieee.div k (fp.flush a) (fp.flush b)) ∧
      fp.lt a b = ieee.lt (fp.flush a) (fp.flush b) ∧ fp.ge a b = ieee.ge (fp.flush a) (fp.flush b)) ∧
    (fp.ftz = false → fp.flush a = a)

/-- R155 under `ieee`: `<` and `>=` are false on a NaN, the two zeros are equal, and finite values and infinities are
ordered as numbers. -/
def Obligations.ComparisonsAreIeeeOrdered : Prop :=
  ∀ (fp : Fp) (a b : Word), fp.ftz = false →
    ((isNaN a = true ∨ isNaN b = true) → fp.lt a b = false ∧ fp.ge a b = false) ∧
    (isZero a = true → isZero b = true → fp.lt a b = false ∧ fp.ge a b = true) ∧
    (isFinite a = true → isFinite b = true →
      (fp.lt a b = true ↔ signedUnits a < signedUnits b) ∧ (fp.ge a b = true ↔ signedUnits b ≤ signedUnits a)) ∧
    (isFinite a = true → fp.lt 0xFF800000 a = true ∧ fp.lt a 0x7F800000 = true ∧ fp.ge a 0xFF800000 = true ∧
      fp.ge 0x7F800000 a = true ∧ fp.ge 0xFF800000 a = false ∧ fp.ge a 0x7F800000 = false) ∧
    fp.lt 0xFF800000 0x7F800000 = true ∧ fp.ge 0xFF800000 0x7F800000 = false ∧
    (isInf a = true → fp.ge a a = true ∧ fp.lt a a = false)

/-- R156: CLAMP. It is x, lo or hi, bit for bit; a NaN is returned unchanged; an infinity gives the end on its
side; a value inside the range is returned as it is, a -0 too. -/
def Obligations.ClampCases : Prop :=
  ∀ (fp : Fp) (x lo hi : Word), isFinite lo = true → isFinite hi = true → fp.lt hi lo = false →
    (fp.clamp x lo hi = x ∨ fp.clamp x lo hi = lo ∨ fp.clamp x lo hi = hi) ∧
    (fp.lt x lo = true → fp.clamp x lo hi = lo) ∧
    (fp.lt hi x = true → fp.clamp x lo hi = hi) ∧
    (fp.lt x lo = false → fp.lt hi x = false → fp.clamp x lo hi = x) ∧
    (isNaN x = true → fp.clamp x lo hi = x) ∧
    fp.clamp 0x7F800000 lo hi = hi ∧ fp.clamp 0xFF800000 lo hi = lo ∧
    (fp.ge 0x80000000 lo = true → fp.ge hi 0x80000000 = true → fp.clamp 0x80000000 lo hi = 0x80000000)

/-- R157: `float(N)` is exact below 2^24. -/
def Obligations.FloatOfSmallNaturalsIsExact : Prop :=
  ∀ n : Nat, n < 2 ^ 24 → isFinite (floatOfNat n) = true ∧ signedUnits (floatOfNat n) = (n : Int) * 2 ^ 149

/-- R162 and, for an infinity, R285: SAT_TANH is finite and within [-1, 1] on every operand that is no NaN, and a
NaN on a NaN. -/
def Obligations.SatTanhIsBounded : Prop :=
  ∀ x : Word,
    (isNaN x = false → isFinite (satTanh Config.hw x) = true ∧
      orderKey 0xBF800000 ≤ orderKey (satTanh Config.hw x) ∧
      orderKey (satTanh Config.hw x) ≤ orderKey 0x3F800000) ∧
    (isNaN x = true → isNaN (satTanh Config.hw x) = true)

/-- The required properties of SAT_SOFT (R163), and of FASTSIN, FASTCOS and FASTTAN (R160, R161). Three points are the
model's choice: SOFT_BOUND as the bound of SAT_SOFT at an infinity, where R285 says "a bounded value", and a NaN of a
NaN for the three angle functions, read from R232 (log 2, DEDUCED); and the two words that bound their arguments
(log 12, DEDUCED). -/
def Obligations.ConfiguredFunctionsConform : Prop :=
  ∀ x : Word,
    (isNaN x = false → isFinite (satSoft Config.hw x) = true ∧
      orderKey (fneg (softBound Config.hw)) ≤ orderKey (satSoft Config.hw x) ∧
      orderKey (satSoft Config.hw x) ≤ orderKey (softBound Config.hw)) ∧
    (isNaN x = true → isNaN (satSoft Config.hw x) = true ∧ isNaN (fastSin Config.hw x) = true ∧
      isNaN (fastCos Config.hw x) = true ∧ isNaN (fastTan Config.hw x) = true) ∧
    (0 < orderKey x → orderKey x ≤ orderKey 0x3FF1463C →
      0 < orderKey (fastSin Config.hw x) ∧ orderKey (fastSin Config.hw x) ≤ orderKey 0x3F800000 ∧
      orderKey 0xBF800000 ≤ orderKey (fastCos Config.hw x) ∧
      orderKey (fastCos Config.hw x) ≤ orderKey 0x3F800000) ∧
    (0 < orderKey x → orderKey x ≤ orderKey 0x3F7147AE →
      isFinite (fastTan Config.hw x) = true ∧ 0 < orderKey (fastTan Config.hw x))

/-- R232 at work: FMAP of any tuning answer, wherever the sample rate passes its check: within
[5.0, fl(0.3 * SR)] when the product REF_FREQ * Tune(pitch) is no NaN, and a NaN when it is one. `frequency` is
FMAP of the hardware's own tuning answer. -/
def Obligations.FrequencyStaysInItsRange : Prop :=
  (∀ (fp : Fp) (refFreq r sr : Word), isFinite sr = true → fp.lt 0x00000000 sr = true →
    fp.ge (fp.mul 0 0x3E99999A sr) 0x40A00000 = true →
    (isNaN (fp.mul 0 refFreq r) = false →
      fp.ge (fmap fp refFreq r sr) 0x40A00000 = true ∧
      fp.ge (fp.mul 1 0x3E99999A sr) (fmap fp refFreq r sr) = true) ∧
    (isNaN (fp.mul 0 refFreq r) = true → isNaN (fmap fp refFreq r sr) = true)) ∧
  (∀ (s : State) (pitch : Word),
    frequency s pitch = fmap (targetFp s) Config.hw.refFreq (Config.hw.tune pitch) s.sr)
end

