-- ==== Sys2Proof/Laws/Memory.lean ====
section
/-! SUPPORT. The laws of the state space: a write is read back, and leaves every other byte and word alone;
every operation keeps the canonical form; what a list of writes leaves. None needs the canonical form but the
last section, which keeps it. -/

namespace Sys2Proof.Machine

/-! ### Cells -/

theorem lookupCell_insertCell (l : List Host.Cell) (a a' : Nat) (v : Byte) :
    lookupCell (insertCell a v l) a' = if a = a' then some v else lookupCell l a' := by
  induction l with
  | nil => simp [insertCell, lookupCell]
  | cons c t ih =>
    obtain ⟨k, w⟩ := c
    by_cases h1 : a < k
    · simp [insertCell, h1, lookupCell]
    · by_cases h2 : a = k
      · subst h2; by_cases h3 : a = a' <;> simp [insertCell, lookupCell, h3]
      · simp only [insertCell, h1, h2, if_false, lookupCell, ih]
        by_cases h3 : k = a' <;> by_cases h4 : a = a' <;> simp_all

theorem byte_setWordAt (m : Memory) (a a' : Nat) (v : Word) :
    (m.setWordAt a v).byte a' =
      if a = a' then some (v.extractLsb' 0 8)
      else if a + 1 = a' then some (v.extractLsb' 8 8)
      else if a + 2 = a' then some (v.extractLsb' 16 8)
      else if a + 3 = a' then some (v.extractLsb' 24 8)
      else m.byte a' := by
  simp [Memory.byte, Memory.setWordAt, lookupCell_insertCell]

theorem byte_setWordAt_outside {m : Memory} {a a' : Nat} {v : Word} (h : a' < a ∨ a + 4 ≤ a') :
    (m.setWordAt a v).byte a' = m.byte a' := by
  rw [byte_setWordAt]; split_ifs <;> first | omega | rfl

theorem bytes_append (v : Word) :
    v.extractLsb' 24 8 ++ v.extractLsb' 16 8 ++ v.extractLsb' 8 8 ++ v.extractLsb' 0 8 = v := by
  apply BitVec.eq_of_getLsbD_eq
  intro i hi
  simp only [BitVec.getLsbD_append, BitVec.getLsbD_extractLsb']
  by_cases h0 : i < 8
  · simp [h0]
  by_cases h1 : i < 16
  · have : i - 8 < 8 := by omega
    simp [h0, this, show 8 + (i - 8) = i by omega]
  by_cases h2 : i < 24
  · have h3 : ¬ i - 8 < 8 := by omega
    have h4 : i - 16 < 8 := by omega
    simp [h0, h3, show i - 8 - 8 = i - 16 by omega, h4, show 16 + (i - 16) = i by omega]
  · have h3 : ¬ i - 8 < 8 := by omega
    have h4 : ¬ i - 16 < 8 := by omega
    have h5 : i - 24 < 8 := by omega
    simp [h0, h3, show i - 8 - 8 = i - 16 by omega, h4, show i - 16 - 8 = i - 24 by omega, h5,
      show 24 + (i - 24) = i by omega]

/-! ### Words by address -/

theorem wordAt_setWordAt_same (m : Memory) (a : Nat) (v : Word) : (m.setWordAt a v).wordAt a = some v := by
  simp only [Memory.wordAt, byte_setWordAt]
  simp [bytes_append]

theorem wordAt_setWordAt_disjoint {m : Memory} {a a' : Nat} {v : Word} (h : a' + 4 ≤ a ∨ a + 4 ≤ a') :
    (m.setWordAt a v).wordAt a' = m.wordAt a' := by
  have hb : ∀ j, j < 4 → (m.setWordAt a v).byte (a' + j) = m.byte (a' + j) := fun j hj =>
    byte_setWordAt_outside (by omega)
  simp only [Memory.wordAt]
  rw [show a' = a' + 0 from rfl, hb 0 (by omega), hb 1 (by omega), hb 2 (by omega), hb 3 (by omega)]

/-- A word depends only on its four bytes. -/
theorem wordAt_congr {m m' : Memory} {a : Nat} (h : ∀ a', a ≤ a' → a' < a + 4 → m'.byte a' = m.byte a') :
    m'.wordAt a = m.wordAt a := by
  simp only [Memory.wordAt]
  rw [h a (by omega) (by omega), h (a + 1) (by omega) (by omega), h (a + 2) (by omega) (by omega),
    h (a + 3) (by omega) (by omega)]

/-! ### Names of state words (20_memory.md R72) -/

theorem offset_lt (r : Region) : r.offset ≤ 0x100 := by cases r <;> simp [Region.offset]

theorem addr_mod_four (w : WordRef) : w.addr % 4 = 0 := by
  have h : w.region.offset % 4 = 0 := by cases w.region <;> simp [Region.offset]
  unfold WordRef.addr; omega

theorem addr_div_bank (w : WordRef) : w.addr / 0x200 = w.bank := by
  have := offset_lt w.region; have := w.slot.isLt; have := w.lane.isLt
  unfold WordRef.addr; omega

theorem addr_mod_bank (w : WordRef) :
    w.addr % 0x200 = w.region.offset + w.slot.val * 0x10 + w.lane.val * 4 := by
  have := offset_lt w.region; have := w.slot.isLt; have := w.lane.isLt
  unfold WordRef.addr; omega

theorem addr_mod_bank_lt (w : WordRef) : w.addr % 0x200 < 0x180 := by
  rw [addr_mod_bank]
  have := offset_lt w.region; have := w.slot.isLt; have := w.lane.isLt
  omega

/-- The layout gives every state word an address of its own. -/
theorem addr_injective {w w' : WordRef} (h : w.addr = w'.addr) : w = w' := by
  have hb : w.bank = w'.bank := by rw [← addr_div_bank w, ← addr_div_bank w', h]
  have hm := congrArg (· % 0x200) h
  simp only [addr_mod_bank] at hm
  have h1 := w.slot.isLt; have h2 := w.lane.isLt; have h3 := w'.slot.isLt; have h4 := w'.lane.isLt
  obtain ⟨r, b, i, l⟩ := w
  obtain ⟨r', b', i', l'⟩ := w'
  simp only at *
  subst hb
  have hr : r = r' := by
    cases r <;> cases r' <;> first | rfl | (simp only [Region.offset] at hm; omega)
  subst hr
  have hi : i = i' := by ext; omega
  have hl : l = l' := by ext; omega
  subst hi; subst hl; rfl

/-- Two different state words share no byte. -/
theorem addr_disjoint {w w' : WordRef} (h : w ≠ w') : w.addr + 4 ≤ w'.addr ∨ w'.addr + 4 ≤ w.addr := by
  have := addr_mod_four w; have := addr_mod_four w'
  have : w.addr ≠ w'.addr := fun e => h (addr_injective e)
  omega

/-! ### Words by name -/

@[simp] theorem word_set_same (m : Memory) (w : WordRef) (v : Word) : (m.set w v).word w = some v :=
  wordAt_setWordAt_same m w.addr v

theorem word_set_other {m : Memory} {w w' : WordRef} {v : Word} (h : w ≠ w') :
    (m.set w v).word w' = m.word w' :=
  wordAt_setWordAt_disjoint (by have := addr_disjoint h; omega)

theorem word_set (m : Memory) (w w' : WordRef) (v : Word) :
    (m.set w v).word w' = if w = w' then some v else m.word w' := by
  by_cases h : w = w'
  · subst h; simp
  · simp [h, word_set_other h]

theorem byte_set_outside {m : Memory} {w : WordRef} {v : Word} {a : Nat} (h : a < w.addr ∨ w.addr + 4 ≤ a) :
    (m.set w v).byte a = m.byte a := byte_setWordAt_outside h

theorem get_of_word {m : Memory} {w : WordRef} {v : Word} (h : m.word w = some v) : m.get w = v := by
  simp [Memory.get, h]

/-- A word that nothing has written holds its value at reset (log 5). -/
theorem get_of_unwritten {m : Memory} {w : WordRef} (h : m.word w = none) : m.get w = resetWord := by
  simp [Memory.get, h]

theorem word_of_isSome {m : Memory} {w : WordRef} (h : (m.word w).isSome = true) : m.word w = some (m.get w) := by
  obtain ⟨v, hv⟩ := Option.isSome_iff_exists.mp h
  rw [get_of_word hv, hv]

/-! ### A list of writes -/

@[simp] theorem setAll_nil (m : Memory) : m.setAll [] = m := rfl

theorem setAll_cons (m : Memory) (wv : WordRef × Word) (ws : List (WordRef × Word)) :
    m.setAll (wv :: ws) = (m.set wv.1 wv.2).setAll ws := rfl

theorem setAll_append (m : Memory) (ws ws' : List (WordRef × Word)) :
    m.setAll (ws ++ ws') = (m.setAll ws).setAll ws' := by
  simp [Memory.setAll, List.foldl_append]

/-- A byte outside every written word is left alone. -/
theorem byte_setAll_outside {m : Memory} {ws : List (WordRef × Word)} {a : Nat}
    (h : ∀ w ∈ ws.map Prod.fst, a < w.addr ∨ w.addr + 4 ≤ a) : (m.setAll ws).byte a = m.byte a := by
  induction ws generalizing m with
  | nil => rfl
  | cons wv t ih =>
    rw [setAll_cons, ih (fun w hw => h w (by simp only [List.map_cons, List.mem_cons]; exact .inr hw))]
    exact byte_set_outside (h wv.1 (by simp))

/-- A word that is not written is left alone. -/
theorem word_setAll_notMem {m : Memory} {ws : List (WordRef × Word)} {w : WordRef}
    (h : w ∉ ws.map Prod.fst) : (m.setAll ws).word w = m.word w := by
  induction ws generalizing m with
  | nil => rfl
  | cons wv t ih =>
    simp only [List.map_cons, List.mem_cons, not_or] at h
    rw [setAll_cons, ih h.2, word_set_other (Ne.symm h.1)]

/-- A word written once holds what was written. -/
theorem word_setAll_mem {m : Memory} {ws : List (WordRef × Word)} {w : WordRef} {v : Word}
    (hnd : (ws.map Prod.fst).Nodup) (h : (w, v) ∈ ws) : (m.setAll ws).word w = some v := by
  induction ws generalizing m with
  | nil => simp at h
  | cons wv t ih =>
    simp only [List.map_cons, List.nodup_cons] at hnd
    rcases List.mem_cons.mp h with rfl | ht
    · rw [setAll_cons, word_setAll_notMem hnd.1]; simp
    · exact ih hnd.2 ht

/-- A written word stays written. -/
theorem isSome_setAll {m : Memory} (ws : List (WordRef × Word)) {w : WordRef}
    (h : (m.word w).isSome = true) : ((m.setAll ws).word w).isSome = true := by
  induction ws generalizing m with
  | nil => exact h
  | cons wv t ih =>
    rw [setAll_cons]; apply ih; rw [word_set]; split_ifs <;> simp_all

/-- A word among the writes is written. -/
theorem isSome_setAll_of_mem {m : Memory} {ws : List (WordRef × Word)} {w : WordRef}
    (h : w ∈ ws.map Prod.fst) : ((m.setAll ws).word w).isSome = true := by
  induction ws generalizing m with
  | nil => simp at h
  | cons wv t ih =>
    rw [setAll_cons]
    by_cases ht : w ∈ t.map Prod.fst
    · exact ih ht
    · have : w = wv.1 := by simpa [ht] using h
      subst this; exact isSome_setAll t (by simp)

/-! ### Reads -/

@[simp] theorem firstUnwritten_nil (m : Memory) : firstUnwritten m [] = none := rfl

theorem firstUnwritten_eq_none {m : Memory} {reads : List WordRef} :
    firstUnwritten m reads = none ↔ ∀ w ∈ reads, (m.word w).isSome = true := by
  simp [firstUnwritten, List.find?_eq_none, Option.isSome_iff_ne_none]

theorem firstUnwritten_eq_some {m : Memory} {reads : List WordRef} {w : WordRef}
    (h : firstUnwritten m reads = some w) : w ∈ reads ∧ m.word w = none :=
  ⟨List.mem_of_find?_eq_some h, by simpa using List.find?_some h⟩

/-! ### The canonical form -/

theorem mem_insertCell {a : Nat} {v : Byte} {l : List Host.Cell} {k : Nat}
    (h : k ∈ (insertCell a v l).map Prod.fst) : k = a ∨ k ∈ l.map Prod.fst := by
  induction l with
  | nil => simpa [insertCell] using h
  | cons c t ih =>
    obtain ⟨k', w⟩ := c
    simp only [insertCell] at h
    split_ifs at h with h1 h2
    · simpa using h
    · subst h2; simp at h ⊢; tauto
    · simp only [List.map_cons, List.mem_cons] at h ⊢
      rcases h with h | h
      · exact .inr (.inl h)
      · rcases ih h with h | h
        · exact .inl h
        · exact .inr (.inr h)

theorem insertCell_rising {a : Nat} {v : Byte} {l : List Host.Cell}
    (h : (l.map Prod.fst).Pairwise (· < ·)) : ((insertCell a v l).map Prod.fst).Pairwise (· < ·) := by
  induction l with
  | nil => simp [insertCell]
  | cons c t ih =>
    obtain ⟨k, w⟩ := c
    simp only [List.map_cons, List.pairwise_cons] at h
    simp only [insertCell]
    split_ifs with h1 h2
    · simp only [List.map_cons, List.pairwise_cons, List.mem_cons]
      refine ⟨?_, h.1, h.2⟩
      rintro b (rfl | hb)
      · exact h1
      · exact Nat.lt_trans h1 (h.1 b hb)
    · subst h2; simpa using h
    · simp only [List.map_cons, List.pairwise_cons]
      refine ⟨fun b hb => ?_, ih h.2⟩
      rcases mem_insertCell hb with rfl | hb
      · omega
      · exact h.1 b hb

theorem wf_iff (m : Memory) : m.wf = true ↔ (m.cells.map Prod.fst).Pairwise (· < ·) := by
  simp only [Memory.wf, decide_eq_true_eq]

theorem setWordAt_wf {m : Memory} (a : Nat) (v : Word) (h : m.wf = true) : (m.setWordAt a v).wf = true := by
  rw [wf_iff] at h ⊢
  exact insertCell_rising (insertCell_rising (insertCell_rising (insertCell_rising h)))

/-- Writing a word keeps the canonical form. -/
theorem set_wf {m : Memory} (w : WordRef) (v : Word) (h : m.wf = true) : (m.set w v).wf = true :=
  setWordAt_wf _ _ h

/-- So does a list of writes. -/
theorem setAll_wf {m : Memory} (ws : List (WordRef × Word)) (h : m.wf = true) : (m.setAll ws).wf = true := by
  induction ws generalizing m with
  | nil => exact h
  | cons wv t ih => exact ih (set_wf wv.1 wv.2 h)

/-- The memory of reset is in canonical form. -/
theorem reset_mem_wf : State.reset.mem.wf = true := by decide

/-- In canonical form, memories that read alike are equal: equal memories are equal data. -/
theorem cells_eq_of_lookup_eq {l l' : List Host.Cell} (h : (l.map Prod.fst).Pairwise (· < ·))
    (h' : (l'.map Prod.fst).Pairwise (· < ·)) (e : ∀ a, lookupCell l a = lookupCell l' a) : l = l' := by
  have none_of : ∀ (t : List Host.Cell) (k : Nat), (∀ b ∈ t.map Prod.fst, k < b) → ∀ a ≤ k, lookupCell t a = none := by
    intro t
    induction t with
    | nil => intros; rfl
    | cons c t ih =>
      intro k hk a ha
      have : k < c.1 := hk c.1 (by simp)
      simp only [lookupCell, show ¬ c.1 = a by omega, if_false]
      exact ih k (fun b hb => hk b (by simp only [List.map_cons, List.mem_cons]; exact .inr hb)) a ha
  induction l generalizing l' with
  | nil =>
    cases l' with
    | nil => rfl
    | cons c t => simpa [lookupCell] using e c.1
  | cons c t ih =>
    obtain ⟨k, v⟩ := c
    cases l' with
    | nil => simpa [lookupCell] using e k
    | cons c' t' =>
      obtain ⟨k', v'⟩ := c'
      simp only [List.map_cons, List.pairwise_cons] at h h'
      have hkk : k = k' := by
        rcases Nat.lt_trichotomy k k' with hlt | heq | hgt
        · have := e k
          simp only [lookupCell, if_true, show ¬ k' = k by omega, if_false] at this
          rw [none_of t' k' h'.1 k (by omega)] at this; simp at this
        · exact heq
        · have := e k'
          simp only [lookupCell, if_true, show ¬ k = k' by omega, if_false] at this
          rw [none_of t k h.1 k' (by omega)] at this; simp at this
      subst hkk
      have hv : v = v' := by simpa [lookupCell] using e k
      subst hv
      congr 1
      refine ih h.2 h'.2 fun a => ?_
      by_cases ha : k = a
      · subst ha; rw [none_of t k h.1 k le_rfl, none_of t' k h'.1 k le_rfl]
      · simpa [lookupCell, ha] using e a

theorem memory_ext {m m' : Memory} (h : m.wf = true) (h' : m'.wf = true) (e : ∀ a, m.byte a = m'.byte a) :
    m = m' := by
  obtain ⟨l⟩ := m
  obtain ⟨l'⟩ := m'
  simp only [Memory.wf, decide_eq_true_eq] at h h'
  exact congrArg Memory.mk (cells_eq_of_lookup_eq h h' e)

end Sys2Proof.Machine
end

