-- ==== Sys2Proof/Laws/State.lean ====
section
/-! SUPPORT. One lemma for each field of `State` and each update, so that no proof unfolds a record update. -/

namespace Sys2Proof.Machine

section Complete
variable (s : State) (reads : List WordRef) (ws : List (WordRef × Word)) (ys : List Word) (q : Option Word)

@[simp] theorem complete_mem : (s.complete reads ws ys q).mem = s.mem.setAll ws := rfl
@[simp] theorem complete_sr : (s.complete reads ws ys q).sr = s.sr := rfl
@[simp] theorem complete_srInv : (s.complete reads ws ys q).srInv = s.srInv := rfl
@[simp] theorem complete_nf : (s.complete reads ws ys q).nf = nfAfter s.nf (ws.map Prod.snd) ys := rfl
@[simp] theorem complete_pending : (s.complete reads ws ys q).pending = s.pending := rfl
@[simp] theorem complete_results : (s.complete reads ws ys q).results = ys := rfl
@[simp] theorem complete_query : (s.complete reads ws ys q).query = q := rfl
@[simp] theorem complete_uninit : (s.complete reads ws ys q).uninit = firstUnwritten s.mem reads := rfl
@[simp] theorem complete_draws : (s.complete reads ws ys q).draws = s.draws + 1 := rfl

end Complete

section Answer
variable (s : State) (reads : List WordRef) (ys : List Word)

@[simp] theorem answer_mem : (s.answer reads ys).mem = s.mem := rfl
@[simp] theorem answer_sr : (s.answer reads ys).sr = s.sr := rfl
@[simp] theorem answer_srInv : (s.answer reads ys).srInv = s.srInv := rfl
@[simp] theorem answer_nf : (s.answer reads ys).nf = s.nf := rfl
@[simp] theorem answer_pending : (s.answer reads ys).pending = s.pending := rfl
@[simp] theorem answer_results : (s.answer reads ys).results = ys := rfl
@[simp] theorem answer_query : (s.answer reads ys).query = none := rfl
@[simp] theorem answer_uninit : (s.answer reads ys).uninit = firstUnwritten s.mem reads := rfl
@[simp] theorem answer_draws : (s.answer reads ys).draws = s.draws := rfl

end Answer

section HwReset
variable (s : State)

@[simp] theorem hwReset_mem : s.hwReset.mem = ⟨[]⟩ := rfl
@[simp] theorem hwReset_sr : s.hwReset.sr = 0 := rfl
@[simp] theorem hwReset_srInv : s.hwReset.srInv = 0 := rfl
@[simp] theorem hwReset_nf : s.hwReset.nf = false := rfl
@[simp] theorem hwReset_pending : s.hwReset.pending = s.pending := rfl
@[simp] theorem hwReset_results : s.hwReset.results = [] := rfl
@[simp] theorem hwReset_query : s.hwReset.query = none := rfl
@[simp] theorem hwReset_uninit : s.hwReset.uninit = none := rfl
@[simp] theorem hwReset_draws : s.hwReset.draws = s.draws := rfl

end HwReset

section CsrWrite
variable (s : State) (o : BitVec 8) (v : Word)

@[simp] theorem csrWrite_mem : (csrWrite s o v).mem = s.mem := by unfold csrWrite; split_ifs <;> rfl
@[simp] theorem csrWrite_pending : (csrWrite s o v).pending = s.pending := by
  unfold csrWrite; split_ifs <;> rfl
@[simp] theorem csrWrite_draws : (csrWrite s o v).draws = s.draws := by unfold csrWrite; split_ifs <;> rfl
theorem csrWrite_sr : (csrWrite s o v).sr = if o = 0x04 then v else s.sr := by
  unfold csrWrite; split_ifs <;> rfl
theorem csrWrite_srInv : (csrWrite s o v).srInv = if o = 0x08 then v else s.srInv := by
  unfold csrWrite; split_ifs <;> simp_all
theorem csrWrite_nf : (csrWrite s o v).nf = if o = 0x0C then s.nf && !v.getLsbD 0 else s.nf := by
  unfold csrWrite; split_ifs <;> simp_all

end CsrWrite

@[simp] theorem withFetchWord_pending (s : State) (nbits w : Nat) :
    (s.withFetchWord nbits w).pending = .cmd (tableWords nbits w) :: s.pending := rfl
@[simp] theorem withFetchWord_mem (s : State) (nbits w : Nat) : (s.withFetchWord nbits w).mem = s.mem := rfl

end Sys2Proof.Machine
end

