-- ==== Sys2Proof/Laws/Commands.lean ====
section
/-! SUPPORT. What the commands can do, said once: when a command completes, what it writes and reads, and what
each written word holds. -/

namespace Sys2Proof.Machine

/-! ### Lanes and slots -/

@[simp] theorem mem_allLanes (l : Lane) : l ∈ allLanes := by revert l; decide
@[simp] theorem mem_allSlots (i : Slot) : i ∈ allSlots := by revert i; decide

@[simp] theorem mem_maskLanes (mask : BitVec 4) (l : Lane) : l ∈ maskLanes mask ↔ mask.getLsbD l.val = true := by
  simp [maskLanes]

theorem lanes_ofFn_at (f : Lane → Word) (l : Lane) : (Lanes.ofFn f).at l = f l := by
  fin_cases l <;> rfl

theorem mem_lanes_toList {y : Lanes} {v : Word} : v ∈ y.toList ↔ ∃ l, y.at l = v := by
  constructor
  · intro h
    simp only [Lanes.toList, List.mem_cons, List.not_mem_nil, or_false] at h
    rcases h with h | h | h | h
    exacts [⟨0, h.symm⟩, ⟨1, h.symm⟩, ⟨2, h.symm⟩, ⟨3, h.symm⟩]
  · rintro ⟨l, rfl⟩
    fin_cases l <;> simp [Lanes.toList, Lanes.at]

/-! ### A list of writes, without order -/

/-- A word whose writes in the list all agree holds that value. -/
theorem word_setAll_of_unique {m : Memory} {ws : List (WordRef × Word)} {w : WordRef} {v : Word}
    (h : (w, v) ∈ ws) (hu : ∀ v', (w, v') ∈ ws → v' = v) : (m.setAll ws).word w = some v := by
  induction ws generalizing m with
  | nil => simp at h
  | cons wv t ih =>
    rw [setAll_cons]
    by_cases ht : w ∈ t.map Prod.fst
    · obtain ⟨x, hx, rfl⟩ := List.mem_map.mp ht
      have : x.2 = v := hu x.2 (List.mem_cons_of_mem _ hx)
      exact ih (this ▸ hx) (fun v' hv' => hu v' (List.mem_cons_of_mem _ hv'))
    · rw [word_setAll_notMem ht]
      rcases List.mem_cons.mp h with rfl | hx
      · simp
      · exact absurd (List.mem_map_of_mem (f := Prod.fst) hx) ht

/-! ### RAMP_SET and RAMP_STEP -/

theorem mem_rampSetReads {n : BitVec 12} {b : Nat} {mask : BitVec 4} {w : WordRef} :
    w ∈ rampSetReads n b mask ↔
      n ≠ 0 ∧ w.region = .C ∧ w.bank = b ∧ mask.getLsbD w.lane.val = true := by
  unfold rampSetReads
  split_ifs with hn
  · simp [hn]
  · obtain ⟨r, b', i, l⟩ := w
    simp only [List.mem_flatMap, mem_maskLanes, List.mem_map, mem_allSlots, true_and, WordRef.mk.injEq]
    constructor
    · rintro ⟨_, h, _, rfl, rfl, rfl, rfl⟩; exact ⟨hn, rfl, rfl, h⟩
    · rintro ⟨-, rfl, rfl, h⟩; exact ⟨l, h, i, rfl, rfl, rfl, rfl⟩

theorem mem_rampSetWrites {p : Params} {draws : Nat} {m : Memory} {b : Nat} {mask : BitVec 4}
    {t : Slot → Word} {n : BitVec 12} {w : WordRef} {v : Word} :
    (w, v) ∈ rampSetWrites p draws m b mask t n ↔
      w.bank = b ∧ mask.getLsbD w.lane.val = true ∧
      ((n = 0 ∧ w.region = .C ∧ v = (arith p draws (scopeRamp w.slot w.lane)).flush (t w.slot)) ∨
       (n = 0 ∧ w.region = .dC ∧ v = 0) ∨
       (n ≠ 0 ∧ w.region = .dC ∧
        v = (arith p draws (scopeRamp w.slot w.lane)).div 1
          ((arith p draws (scopeRamp w.slot w.lane)).sub 0 (t w.slot) (m.get ⟨.C, b, w.slot, w.lane⟩))
          (floatOfNat n.toNat))) := by
  obtain ⟨r, b', i, l⟩ := w
  simp only [rampSetWrites, List.mem_flatMap, mem_maskLanes, mem_allSlots, true_and, rampSetWord]
  by_cases hn : n = 0
  · simp only [hn, if_true, List.mem_cons, Prod.mk.injEq, WordRef.mk.injEq, List.not_mem_nil, or_false]
    constructor
    · rintro ⟨l', hl, i', ⟨⟨rfl, rfl, rfl, rfl⟩, rfl⟩ | ⟨⟨rfl, rfl, rfl, rfl⟩, rfl⟩⟩ <;> simp [hl]
    · rintro ⟨rfl, hl, ⟨-, rfl, rfl⟩ | ⟨-, rfl, rfl⟩ | ⟨h, -⟩⟩
      · exact ⟨l, hl, i, .inl ⟨⟨rfl, rfl, rfl, rfl⟩, rfl⟩⟩
      · exact ⟨l, hl, i, .inr ⟨⟨rfl, rfl, rfl, rfl⟩, rfl⟩⟩
      · exact absurd rfl h
  · simp only [hn, if_false, List.mem_cons, Prod.mk.injEq, WordRef.mk.injEq, List.not_mem_nil, or_false]
    constructor
    · rintro ⟨l', hl, i', ⟨rfl, rfl, rfl, rfl⟩, rfl⟩; exact ⟨rfl, hl, .inr (.inr ⟨hn, rfl, rfl⟩)⟩
    · rintro ⟨rfl, hl, ⟨h, -⟩ | ⟨h, -⟩ | ⟨-, rfl, rfl⟩⟩
      · exact absurd h (by simp)
      · exact absurd h (by simp)
      · exact ⟨l, hl, i, ⟨rfl, rfl, rfl, rfl⟩, rfl⟩

theorem mem_rampStepReads {b : Nat} {w : WordRef} :
    w ∈ rampStepReads b ↔ w.bank = b ∧ w.region ≠ .R := by
  obtain ⟨r, b', i, l⟩ := w
  simp only [rampStepReads, List.mem_flatMap, mem_allSlots, mem_allLanes, true_and, List.mem_cons,
    WordRef.mk.injEq, List.not_mem_nil, or_false]
  constructor
  · rintro ⟨_, _, ⟨rfl, rfl, rfl, rfl⟩ | ⟨rfl, rfl, rfl, rfl⟩⟩ <;> simp
  · rintro ⟨rfl, hr⟩
    refine ⟨i, l, ?_⟩
    cases r <;> simp_all

theorem mem_rampStepWrites {p : Params} {draws : Nat} {m : Memory} {b : Nat} {w : WordRef} {v : Word} :
    (w, v) ∈ rampStepWrites p draws m b ↔
      w.region = .C ∧ w.bank = b ∧ v = rampStepWord p draws m b w.slot w.lane := by
  obtain ⟨r, b', i, l⟩ := w
  simp only [rampStepWrites, List.mem_flatMap, List.mem_map, mem_allSlots, mem_allLanes, true_and,
    Prod.mk.injEq, WordRef.mk.injEq]
  constructor
  · rintro ⟨_, _, ⟨rfl, rfl, rfl, rfl⟩, rfl⟩; simp
  · rintro ⟨rfl, rfl, rfl⟩; exact ⟨i, l, ⟨rfl, rfl, rfl, rfl⟩, rfl⟩

/-! ### The Family A processor -/

theorem stageCount_cases (nstg : BitVec 2) :
    stageCount nstg = 1 ∨ stageCount nstg = 2 ∨ stageCount nstg = 3 ∨ stageCount nstg = 4 := by
  have := nstg.isLt; unfold stageCount; omega

theorem length_procaSlots {n : Nat} (h : n ≤ 4) : (procaSlots n).length = n := by
  simp [procaSlots, stageSlots]; omega

theorem mem_procaSlots {n : Nat} {z : Slot × Slot} (h : z ∈ procaSlots n) :
    ∃ s : Nat, s < n ∧ z.1.val = 2 * s ∧ z.2.val = 2 * s + 1 := by
  obtain ⟨s, hs, rfl⟩ := List.mem_iff_getElem.mp h
  have hn : s < n := by simp [procaSlots] at hs; omega
  have h4 : s < 4 := by simp [procaSlots, stageSlots] at hs; omega
  refine ⟨s, hn, ?_⟩
  have : (procaSlots n)[s] = stageSlots[s]'(by simpa [stageSlots] using h4) := by simp [procaSlots]
  rw [this]
  interval_cases s <;> simp [stageSlots]

theorem procaSlots_mem_of_lt {n s : Nat} (hs : s < n) (h4 : s < 4) :
    ∃ z ∈ procaSlots n, z.1.val = 2 * s ∧ z.2.val = 2 * s + 1 := by
  have hl : s < (procaSlots n).length := by simp [procaSlots, stageSlots]; omega
  refine ⟨(procaSlots n)[s], List.getElem_mem hl, ?_⟩
  have : (procaSlots n)[s] = stageSlots[s]'(by simpa [stageSlots] using h4) := by simp [procaSlots]
  rw [this]
  interval_cases s <;> simp [stageSlots]

theorem length_biquadChain (fp : Fp) (sat : Word → Word) (c : CoeffsA) (j : Nat) (zs : List (Word × Word))
    (x : Word) : (biquadChain fp sat c j zs x).1.length = zs.length := by
  induction zs generalizing j x with
  | nil => rfl
  | cons z t ih => simp [biquadChain, ih]

/-- The slots 0 .. 2n-1 are the register slots of the first n stages. -/
theorem exists_procaSlots {n : Nat} (i : Slot) :
    (∃ z ∈ procaSlots n, i = z.1 ∨ i = z.2) ↔ i.val < 2 * n := by
  constructor
  · rintro ⟨z, hz, h⟩
    obtain ⟨s, hs, h1, h2⟩ := mem_procaSlots hz
    rcases h with rfl | rfl <;> omega
  · intro h
    have h8 := i.isLt
    obtain ⟨z, hz, h1, h2⟩ := procaSlots_mem_of_lt (n := n) (s := i.val / 2) (by omega) (by omega)
    refine ⟨z, hz, ?_⟩
    rcases Nat.mod_two_eq_zero_or_one i.val with e | e
    · left; ext; omega
    · right; ext; omega

theorem mem_procaReads {n b : Nat} {w : WordRef} :
    w ∈ procaReads n b ↔ w.bank = b ∧ (w.region ≠ .R ∨ w.slot.val < 2 * n) := by
  rw [procaReads, List.mem_append, mem_rampStepReads]
  obtain ⟨r, b', i, l⟩ := w
  simp only [List.mem_flatMap, mem_allLanes, true_and, List.mem_cons, WordRef.mk.injEq, List.not_mem_nil,
    or_false]
  rw [← exists_procaSlots (n := n) i]
  constructor
  · rintro (⟨l', z, hz, h⟩ | ⟨h1, h2⟩)
    · rcases h with ⟨rfl, rfl, rfl, rfl⟩ | ⟨rfl, rfl, rfl, rfl⟩ | h | h | h | h | h
      · exact ⟨rfl, .inr ⟨z, hz, .inl rfl⟩⟩
      · exact ⟨rfl, .inr ⟨z, hz, .inr rfl⟩⟩
      all_goals (obtain ⟨rfl, rfl, -, -⟩ := h; exact ⟨rfl, .inl (by simp)⟩)
    · exact ⟨h1, .inl h2⟩
  · rintro ⟨rfl, h | ⟨z, hz, h⟩⟩
    · exact .inr ⟨rfl, h⟩
    · by_cases hr : r = .R
      · subst hr
        rcases h with rfl | rfl
        · exact .inl ⟨l, z, hz, .inl ⟨rfl, rfl, rfl, rfl⟩⟩
        · exact .inl ⟨l, z, hz, .inr (.inl ⟨rfl, rfl, rfl, rfl⟩)⟩
      · exact .inr ⟨rfl, hr⟩

theorem mem_procaLaneWrites {p : Params} {draws : Nat} {m : Memory} {n : Nat} {satk : SatKind} {b : Nat}
    {x : Lanes} {l : Lane} {w : WordRef} {v : Word} :
    (w, v) ∈ procaLaneWrites p draws m n satk b x l ↔
      w.region = .R ∧ w.bank = b ∧ w.lane = l ∧
      ∃ zr ∈ (procaSlots n).zip (procaLane p draws m n satk b x l).1,
        (w.slot = zr.1.1 ∧ v = zr.2.1) ∨ (w.slot = zr.1.2 ∧ v = zr.2.2) := by
  obtain ⟨r, b', i, l'⟩ := w
  simp only [procaLaneWrites, List.mem_flatMap, List.mem_cons, Prod.mk.injEq, WordRef.mk.injEq,
    List.not_mem_nil, or_false]
  constructor
  · rintro ⟨zr, hzr, ⟨⟨rfl, rfl, rfl, rfl⟩, rfl⟩ | ⟨⟨rfl, rfl, rfl, rfl⟩, rfl⟩⟩
    · exact ⟨rfl, rfl, rfl, zr, hzr, .inl ⟨rfl, rfl⟩⟩
    · exact ⟨rfl, rfl, rfl, zr, hzr, .inr ⟨rfl, rfl⟩⟩
  · rintro ⟨rfl, rfl, rfl, zr, hzr, ⟨rfl, rfl⟩ | ⟨rfl, rfl⟩⟩
    · exact ⟨zr, hzr, .inl ⟨⟨rfl, rfl, rfl, rfl⟩, rfl⟩⟩
    · exact ⟨zr, hzr, .inr ⟨⟨rfl, rfl, rfl, rfl⟩, rfl⟩⟩

theorem length_procaLane (p : Params) (draws : Nat) (m : Memory) (n : Nat) (satk : SatKind) (b : Nat) (x : Lanes)
    (l : Lane) : (procaLane p draws m n satk b x l).1.length = (procaSlots n).length := by
  simp [procaLane, length_biquadChain, procaRegs]

theorem keys_procaWrites {p : Params} {draws : Nat} {m : Memory} {n : Nat} {satk : SatKind} {b : Nat}
    {x : Lanes} {w : WordRef} :
    w ∈ (procaWrites p draws m n satk b x).map Prod.fst ↔
      w.bank = b ∧ (w.region = .C ∨ (w.region = .R ∧ w.slot.val < 2 * n)) := by
  have hk : w ∈ (procaWrites p draws m n satk b x).map Prod.fst ↔
      ∃ v, (w, v) ∈ procaWrites p draws m n satk b x := by simp
  rw [hk]
  simp only [procaWrites, List.mem_append, List.mem_flatMap, mem_allLanes, true_and, mem_rampStepWrites,
    mem_procaLaneWrites]
  rw [← exists_procaSlots (n := n) w.slot]
  constructor
  · rintro ⟨v, ⟨l, hr, hb, -, ⟨z, r⟩, hzr, h⟩ | ⟨hr, hb, -⟩⟩
    · refine ⟨hb, .inr ⟨hr, z, (List.of_mem_zip hzr).1, ?_⟩⟩
      rcases h with h | h
      · exact .inl h.1
      · exact .inr h.1
    · exact ⟨hb, .inl hr⟩
  · rintro ⟨hb, hr | ⟨hr, z, hz, h⟩⟩
    · exact ⟨_, .inr ⟨hr, hb, rfl⟩⟩
    · obtain ⟨k, hk, rfl⟩ := List.mem_iff_getElem.mp hz
      have hlen := length_procaLane p draws m n satk b x w.lane
      have hmem : ((procaSlots n)[k], (procaLane p draws m n satk b x w.lane).1[k]'(by omega)) ∈
          (procaSlots n).zip (procaLane p draws m n satk b x w.lane).1 := by
        rw [List.mem_iff_getElem]
        exact ⟨k, by simp [hlen]; omega, by simp⟩
      rcases h with h | h
      · exact ⟨_, .inl ⟨w.lane, hr, hb, rfl, _, hmem, .inl ⟨h, rfl⟩⟩⟩
      · exact ⟨_, .inl ⟨w.lane, hr, hb, rfl, _, hmem, .inr ⟨h, rfl⟩⟩⟩

/-! ### The Family B processor -/

theorem mem_procbReads {b : Nat} {w : WordRef} :
    w ∈ procbReads b ↔ w.bank = b ∧ (w.region ≠ .R ∨ w.slot.val < 3) := by
  rw [procbReads, List.mem_append, mem_rampStepReads]
  obtain ⟨r, b', i, l⟩ := w
  simp only [List.mem_flatMap, mem_allLanes, true_and, List.mem_cons, WordRef.mk.injEq, List.not_mem_nil,
    or_false]
  constructor
  · rintro (⟨h1, h2⟩ | ⟨l', h⟩)
    · exact ⟨h1, .inl h2⟩
    · rcases h with ⟨rfl, rfl, rfl, rfl⟩ | ⟨rfl, rfl, rfl, rfl⟩ | ⟨rfl, rfl, rfl, rfl⟩ <;>
        exact ⟨rfl, .inr (by decide)⟩
  · rintro ⟨rfl, h⟩
    by_cases hr : r = .R
    · subst hr
      have h3 : i.val < 3 := by simpa using h
      refine .inr ⟨l, ?_⟩
      have : i = slotZFirst ∨ i = slotZSecond ∨ i = slotZThird := by
        simp only [slotZFirst, slotZSecond, slotZThird, Fin.ext_iff]; omega
      rcases this with rfl | rfl | rfl <;> simp
    · exact .inl ⟨rfl, hr⟩

theorem mem_procbLaneWrites {b : Nat} {l : Lane} {o : LadderOut} {w : WordRef} {v : Word} :
    (w, v) ∈ procbLaneWrites b l o ↔
      w.region = .R ∧ w.bank = b ∧ w.lane = l ∧
      ((w.slot = slotZFirst ∧ v = o.z1) ∨ (w.slot = slotZSecond ∧ v = o.z2) ∨
       (w.slot = slotZThird ∧ v = o.z3)) := by
  obtain ⟨r, b', i, l'⟩ := w
  simp only [procbLaneWrites, List.mem_cons, Prod.mk.injEq, WordRef.mk.injEq, List.not_mem_nil, or_false]
  tauto

/-- What a Family B processor writes: `lane` gives each lane's outcome. -/
theorem mem_procbWrites {p : Params} {draws : Nat} {m : Memory} {b : Nat} {lane : Lane → LadderOut}
    {w : WordRef} {v : Word} :
    (w, v) ∈ rampStepWrites p draws m b ++ allLanes.flatMap (fun l => procbLaneWrites b l (lane l)) ↔
      w.bank = b ∧
      ((w.region = .C ∧ v = rampStepWord p draws m b w.slot w.lane) ∨
       (w.region = .R ∧
        ((w.slot = slotZFirst ∧ v = (lane w.lane).z1) ∨ (w.slot = slotZSecond ∧ v = (lane w.lane).z2) ∨
         (w.slot = slotZThird ∧ v = (lane w.lane).z3)))) := by
  simp only [List.mem_append, List.mem_flatMap, mem_allLanes, true_and, mem_rampStepWrites, mem_procbLaneWrites]
  constructor
  · rintro (⟨hr, hb, hv⟩ | ⟨l, hr, hb, rfl, h⟩)
    · exact ⟨hb, .inl ⟨hr, hv⟩⟩
    · exact ⟨hb, .inr ⟨hr, h⟩⟩
  · rintro ⟨hb, ⟨hr, hv⟩ | ⟨hr, h⟩⟩
    · exact .inl ⟨hr, hb, hv⟩
    · exact .inr ⟨w.lane, hr, hb, rfl, h⟩

theorem keys_procbWrites {p : Params} {draws : Nat} {m : Memory} {b : Nat} {lane : Lane → LadderOut}
    {w : WordRef} :
    w ∈ (rampStepWrites p draws m b ++ allLanes.flatMap (fun l => procbLaneWrites b l (lane l))).map Prod.fst ↔
      w.bank = b ∧ (w.region = .C ∨ (w.region = .R ∧ w.slot.val < 3)) := by
  simp only [List.mem_map, Prod.exists, exists_and_right, exists_eq_right, mem_procbWrites]
  have h3 : w.slot.val < 3 ↔ (w.slot = slotZFirst ∨ w.slot = slotZSecond ∨ w.slot = slotZThird) := by
    simp only [slotZFirst, slotZSecond, slotZThird, Fin.ext_iff]; omega
  rw [h3]
  constructor
  · rintro ⟨v, hb, ⟨hr, -⟩ | ⟨hr, h⟩⟩
    · exact ⟨hb, .inl hr⟩
    · exact ⟨hb, .inr ⟨hr, by tauto⟩⟩
  · rintro ⟨hb, hr | ⟨hr, h | h | h⟩⟩
    · exact ⟨_, hb, .inl ⟨hr, rfl⟩⟩
    · exact ⟨_, hb, .inr ⟨hr, .inl ⟨h, rfl⟩⟩⟩
    · exact ⟨_, hb, .inr ⟨hr, .inr (.inl ⟨h, rfl⟩)⟩⟩
    · exact ⟨_, hb, .inr ⟨hr, .inr (.inr ⟨h, rfl⟩)⟩⟩

theorem keys_rampSetWrites {p : Params} {draws : Nat} {m : Memory} {b : Nat} {mask : BitVec 4}
    {t : Slot → Word} {n : BitVec 12} {w : WordRef} :
    w ∈ (rampSetWrites p draws m b mask t n).map Prod.fst ↔
      w.bank = b ∧ mask.getLsbD w.lane.val = true ∧ (w.region = .dC ∨ (w.region = .C ∧ n = 0)) := by
  simp only [List.mem_map, Prod.exists, exists_and_right, exists_eq_right, mem_rampSetWrites]
  constructor
  · rintro ⟨v, hb, hm, ⟨hn, hr, -⟩ | ⟨-, hr, -⟩ | ⟨-, hr, -⟩⟩
    exacts [⟨hb, hm, .inr ⟨hr, hn⟩⟩, ⟨hb, hm, .inl hr⟩, ⟨hb, hm, .inl hr⟩]
  · rintro ⟨hb, hm, hr | ⟨hr, hn⟩⟩
    · by_cases hn : n = 0
      · exact ⟨_, hb, hm, .inr (.inl ⟨hn, hr, rfl⟩)⟩
      · exact ⟨_, hb, hm, .inr (.inr ⟨hn, hr, rfl⟩)⟩
    · exact ⟨_, hb, hm, .inl ⟨hn, hr, rfl⟩⟩

/-! ### What a written word holds -/

/-- A word RAMP_SET writes holds what it writes. -/
theorem word_rampSetWrites {p : Params} {draws : Nat} {m : Memory} {b : Nat} {mask : BitVec 4} {t : Slot → Word}
    {n : BitVec 12} {w : WordRef} {v : Word} (h : (w, v) ∈ rampSetWrites p draws m b mask t n) :
    (m.setAll (rampSetWrites p draws m b mask t n)).word w = some v := by
  refine word_setAll_of_unique h fun v' h' => ?_
  rw [mem_rampSetWrites] at h h'
  obtain ⟨-, -, h⟩ := h
  obtain ⟨-, -, h'⟩ := h'
  rcases h with ⟨a, b, rfl⟩ | ⟨a, b, rfl⟩ | ⟨a, b, rfl⟩ <;>
    rcases h' with ⟨a', b', rfl⟩ | ⟨a', b', rfl⟩ | ⟨a', b', rfl⟩ <;> simp_all

/-- The register slots of stage `s`. -/
theorem procaSlots_getElem? {n s : Nat} (hs : s < n) (h4 : n ≤ 4) :
    (procaSlots n)[s]? = some (Fin.ofNat 8 (2 * s), Fin.ofNat 8 (2 * s + 1)) := by
  simp only [procaSlots, stageSlots]
  interval_cases n <;> interval_cases s <;> rfl

/-- A word PROCA writes holds what it writes: no word is written twice. -/
theorem word_procaWrites {p : Params} {draws : Nat} {m : Memory} {n : Nat} {satk : SatKind} {b : Nat} {x : Lanes}
    {w : WordRef} {v : Word} (hn : n ≤ 4) (h : (w, v) ∈ procaWrites p draws m n satk b x) :
    (m.setAll (procaWrites p draws m n satk b x)).word w = some v := by
  refine word_setAll_of_unique h fun v' h' => ?_
  simp only [procaWrites, List.mem_append, List.mem_flatMap, mem_allLanes, true_and, mem_rampStepWrites,
    mem_procaLaneWrites] at h h'
  rcases h with ⟨l, hr, hb, hl, zr, hz, h⟩ | ⟨hr, hb, rfl⟩ <;>
    rcases h' with ⟨l', hr', hb', hl', zr', hz', h'⟩ | ⟨hr', hb', rfl⟩
  · subst hl; subst hl'
    obtain ⟨i, hi, rfl⟩ := List.mem_iff_getElem.mp hz
    obtain ⟨i', hi', rfl⟩ := List.mem_iff_getElem.mp hz'
    have hlen := length_procaSlots hn
    have hi2 : i < n := by simp at hi; omega
    have hi2' : i' < n := by simp at hi'; omega
    obtain ⟨_, e⟩ := List.getElem?_eq_some_iff.mp (procaSlots_getElem? hi2 hn)
    obtain ⟨_, e'⟩ := List.getElem?_eq_some_iff.mp (procaSlots_getElem? hi2' hn)
    simp only [List.getElem_zip, e, e'] at h h'
    have : i = i' := by
      rcases h with ⟨h, -⟩ | ⟨h, -⟩ <;> rcases h' with ⟨h', -⟩ | ⟨h', -⟩ <;>
        (rw [h] at h'; have := congrArg Fin.val h'; simp [Fin.ofNat] at this; omega)
    subst this
    rcases h with ⟨h, rfl⟩ | ⟨h, rfl⟩ <;> rcases h' with ⟨h', rfl⟩ | ⟨h', rfl⟩ <;>
      first | rfl | (rw [h] at h'; have := congrArg Fin.val h'; simp [Fin.ofNat] at this; omega)
  · simp [hr] at hr'
  · simp [hr] at hr'
  · rfl

/-- A word a Family B processor writes holds what it writes. -/
theorem word_procbWrites {p : Params} {draws : Nat} {m : Memory} {b : Nat} {lane : Lane → LadderOut} {w : WordRef}
    {v : Word}
    (h : (w, v) ∈ rampStepWrites p draws m b ++ allLanes.flatMap (fun l => procbLaneWrites b l (lane l))) :
    (m.setAll (rampStepWrites p draws m b ++ allLanes.flatMap (fun l => procbLaneWrites b l (lane l)))).word w =
      some v := by
  refine word_setAll_of_unique h fun v' h' => ?_
  rw [mem_procbWrites] at h h'
  obtain ⟨-, h⟩ := h
  obtain ⟨-, h'⟩ := h'
  rcases h with ⟨hr, rfl⟩ | ⟨hr, h⟩ <;> rcases h' with ⟨hr', rfl⟩ | ⟨hr', h'⟩
  · rfl
  · simp [hr] at hr'
  · simp [hr] at hr'
  · rcases h with ⟨h, rfl⟩ | ⟨h, rfl⟩ | ⟨h, rfl⟩ <;> rcases h' with ⟨h', rfl⟩ | ⟨h', rfl⟩ | ⟨h', rfl⟩ <;>
      first | rfl | (rw [h] at h'; exact absurd h' (by decide))

/-! ### What a command can do -/

/-- The hardware's instructions are those of a block with the hardware's parameters. -/
theorem exec_eq_execWith (i : Instr) (s : State) : exec i s = execWith Config.hw i s := by
  cases i <;> rfl

/-- A command of a block of any parameters is refused where its sample-rate check fails, and completes where it
passes: it reads exactly the words of `Instr.loads` and writes exactly those of `Instr.stores`. -/
theorem execWith_cases (p : Params) (i : Instr) (s : State) :
    (rateOk p i s = false ∧ execWith p i s = .refused .srInvalid) ∨
    (rateOk p i s = true ∧
      ∃ reads ws ys, execWith p i s = .next (s.complete reads ws ys i.pitch?) ∧
        (∀ w, w ∈ reads ↔ i.loads w = true) ∧ (∀ w, w ∈ ws.map Prod.fst ↔ i.stores w = true) ∧
        (i.isProcessor = false → ys = [])) := by
  have mk : ∀ (t : Slot → Word) (n : BitVec 12) (b m : BitVec 4) (pitch : Word),
      ∃ reads ws ys, maker p t n b m pitch s = .next (s.complete reads ws ys (some pitch)) ∧
        (∀ w, w ∈ reads ↔ makerLoads n b m w = true) ∧
        (∀ w, w ∈ ws.map Prod.fst ↔ makerStores n b m w = true) ∧ ys = [] := by
    intro t n b m pitch
    refine ⟨_, _, _, rfl, fun w => ?_, fun w => ?_, rfl⟩
    · rw [mem_rampSetReads]; simp [makerLoads, bankOf]; tauto
    · rw [keys_rampSetWrites]; simp [makerStores, bankOf]; tauto
  have A : ∀ (ft : FilterType) (n : BitVec 12) (b m : BitVec 4) (pitch reso : Word),
      mkca p ft n b m pitch reso s =
        if srOk (arith p s.draws scopeTargets) s.sr then
          maker p (targetsA p (arith p s.draws scopeTargets) ft
            (fmap (arith p s.draws scopeTargets) p.refFreq (tune p pitch) s.sr) s.sr reso).slot n b m pitch s
        else .refused .srInvalid := fun _ _ _ _ _ _ => rfl
  have B : ∀ (mode : PassMode) (n : BitVec 12) (b m : BitVec 4) (pitch reso drive : Word),
      mkcb p mode n b m pitch reso drive s =
        if srOk (arith p s.draws scopeTargets) s.sr && srInvOk (arith p s.draws scopeTargets) s.srInv then
          maker p (targetsB p (arith p s.draws scopeTargets) mode
            (fmap (arith p s.draws scopeTargets) p.refFreq (tune p pitch) s.sr) s.sr s.srInv reso drive).slot
            n b m pitch s
        else .refused .srInvalid := fun _ _ _ _ _ _ _ => rfl
  cases i
  case proca nstg satk b x =>
    refine .inr ⟨rfl, _, _, _, rfl, fun w => ?_, fun w => ?_, by simp [Instr.isProcessor]⟩
    · rw [mem_procaReads]; simp [Instr.loads, processorLoads, bankOf, stageCount]
    · rw [keys_procaWrites]; simp [Instr.stores, processorStores, bankOf, stageCount]
  case procblp b x | procbhp b x =>
    all_goals
      refine .inr ⟨rfl, _, _, _, rfl, fun w => ?_, fun w => ?_, by simp [Instr.isProcessor]⟩
      · rw [mem_procbReads]; simp [Instr.loads, processorLoads, bankOf]
      · rw [keys_procbWrites]; simp [Instr.stores, processorStores, bankOf]
  all_goals
    simp only [execWith, rateOk, Instr.loads, Instr.stores, Instr.pitch?, Instr.isProcessor, A, B]
    split_ifs with hs
    · obtain ⟨reads, ws, ys, e, hr, hw, hy⟩ := mk _ _ _ _ _
      exact .inr ⟨hs, reads, ws, ys, e, hr, hw, fun _ => hy⟩
    · exact .inl ⟨by simpa using hs, rfl⟩

/-- If a command answers a next state, it is the completion of reads of its `loads` and writes to its `stores`. -/
theorem exec_next {i : Instr} {s t : State} (h : exec i s = .next t) :
    ∃ reads ws ys, t = s.complete reads ws ys i.pitch? ∧ (∀ w, w ∈ reads ↔ i.loads w = true) ∧
      (∀ w, w ∈ ws.map Prod.fst ↔ i.stores w = true) ∧ (i.isProcessor = false → ys = []) ∧
      rateOk Config.hw i s = true := by
  rw [exec_eq_execWith] at h
  rcases execWith_cases Config.hw i s with ⟨-, e⟩ | ⟨hr, reads, ws, ys, e, hl, hw, hy⟩
  · rw [e] at h; cases h
  · rw [e] at h; cases h; exact ⟨reads, ws, ys, rfl, hl, hw, hy, hr⟩

/-- A command answers a next state exactly when its sample-rate check passes. -/
theorem exec_completes_iff (i : Instr) (s : State) : Completes (exec i s) ↔ rateOk Config.hw i s = true := by
  constructor
  · rintro ⟨t, h⟩
    obtain ⟨_, _, _, _, _, _, _, hr⟩ := exec_next h
    exact hr
  · intro hr
    rw [exec_eq_execWith]
    rcases execWith_cases Config.hw i s with ⟨h, -⟩ | ⟨-, _, _, _, e, -⟩
    · rw [hr] at h; cases h
    · exact ⟨_, e⟩

/-- What a command that answers a next state records of its reads (60_exceptions.md R372): nothing when all of
`Instr.loads` is written, and otherwise one of them that is not. -/
theorem exec_uninit {i : Instr} {s t : State} (h : exec i s = .next t) :
    (t.uninit = none ∧ ∀ w, i.loads w = true → (s.mem.word w).isSome = true) ∨
    ∃ w, t.uninit = some w ∧ i.loads w = true ∧ s.mem.word w = none := by
  obtain ⟨reads, ws, ys, rfl, hl, -⟩ := exec_next h
  rw [complete_uninit]
  cases hf : firstUnwritten s.mem reads with
  | none => exact .inl ⟨rfl, fun w hw => firstUnwritten_eq_none.mp hf w ((hl w).mpr hw)⟩
  | some w => exact .inr ⟨w, rfl, (hl w).mp (firstUnwritten_eq_some hf).1, (firstUnwritten_eq_some hf).2⟩

end Sys2Proof.Machine
end

