-- ==== Sys2Proof/Laws/Encoding.lean ====
section
/-! SUPPORT. The fields of a command word are what it was made from, and a word whose RSV is 0 is made of its
fields (spec 30_encoding.md R111, R113). -/

namespace Sys2Proof

section Fields
variable (n : BitVec 12) (b m sub op : BitVec 4)

theorem opField_commandWord : opField (commandWord n b m sub op) = op := by
  apply BitVec.eq_of_getLsbD_eq
  intro i hi
  simp only [opField, commandWord, BitVec.getLsbD_extractLsb', BitVec.getLsbD_append]
  simp [hi]

theorem subField_commandWord : subField (commandWord n b m sub op) = sub := by
  apply BitVec.eq_of_getLsbD_eq
  intro i hi
  simp only [subField, commandWord, BitVec.getLsbD_extractLsb', BitVec.getLsbD_append]
  simp [hi]

theorem maskField_commandWord : maskField (commandWord n b m sub op) = m := by
  apply BitVec.eq_of_getLsbD_eq
  intro i hi
  simp only [maskField, commandWord, BitVec.getLsbD_extractLsb', BitVec.getLsbD_append]
  simp [hi, show ¬ 8 + i < 4 by omega, show ¬ 8 + i - 4 < 4 by omega, show 8 + i - 4 - 4 = i by omega]

theorem instField_commandWord : instField (commandWord n b m sub op) = b := by
  apply BitVec.eq_of_getLsbD_eq
  intro i hi
  simp only [instField, commandWord, BitVec.getLsbD_extractLsb', BitVec.getLsbD_append]
  simp [hi, show ¬ 12 + i < 4 by omega, show ¬ 12 + i - 4 < 4 by omega, show ¬ 12 + i - 4 - 4 < 4 by omega,
    show 12 + i - 4 - 4 - 4 = i by omega]

theorem rampField_commandWord : rampField (commandWord n b m sub op) = n := by
  apply BitVec.eq_of_getLsbD_eq
  intro i hi
  simp only [rampField, commandWord, BitVec.getLsbD_extractLsb', BitVec.getLsbD_append]
  simp [hi, show ¬ 16 + i < 4 by omega, show ¬ 16 + i - 4 < 4 by omega, show ¬ 16 + i - 4 - 4 < 4 by omega,
    show ¬ 16 + i - 4 - 4 - 4 < 4 by omega, show 16 + i - 4 - 4 - 4 - 4 = i by omega]

theorem rsvField_commandWord : rsvField (commandWord n b m sub op) = 0 := by
  apply BitVec.eq_of_getLsbD_eq
  intro i hi
  simp only [rsvField, commandWord, BitVec.getLsbD_extractLsb', BitVec.getLsbD_append]
  simp [hi, show ¬ 28 + i < 4 by omega, show ¬ 28 + i - 4 < 4 by omega, show ¬ 28 + i - 4 - 4 < 4 by omega,
    show ¬ 28 + i - 4 - 4 - 4 < 4 by omega, show ¬ 28 + i - 4 - 4 - 4 - 4 < 12 by omega]

theorem nstgField_commandWord (k : BitVec 1) (a : BitVec 2) :
    nstgField (commandWord n b m (0#1 ++ k ++ a) op) = a := by
  apply BitVec.eq_of_getLsbD_eq
  intro i hi
  simp only [nstgField, commandWord, BitVec.getLsbD_extractLsb', BitVec.getLsbD_append]
  simp [hi]; intro; omega

theorem satkField_commandWord (k : SatKind) (a : BitVec 2) :
    satkField (commandWord n b m (0#1 ++ satkBit k ++ a) op) = k := by
  cases k <;> simp only [satkField, commandWord, BitVec.getLsbD_append] <;> simp [satkBit]

theorem bit7_commandWord (k : BitVec 1) (a : BitVec 2) :
    (commandWord n b m (0#1 ++ k ++ a) op).getLsbD 7 = false := by
  simp only [commandWord, BitVec.getLsbD_append]; simp

end Fields

theorem commandWord_fields {w : Word} (h : rsvField w = 0) :
    commandWord (rampField w) (instField w) (maskField w) (subField w) (opField w) = w := by
  have hr : ∀ j, j < 4 → w.getLsbD (28 + j) = false := by
    intro j hj
    have := congrArg (fun x => BitVec.getLsbD x j) h
    simpa [rsvField, hj] using this
  apply BitVec.eq_of_getLsbD_eq
  intro i hi
  simp only [commandWord, BitVec.getLsbD_append, rampField, instField, maskField, subField, opField,
    BitVec.getLsbD_extractLsb']
  split_ifs with h1 h2 h3 h4 h5
  · simp [h1]
  · simp [h2, show 4 + (i - 4) = i by omega]
  · simp [h3, show 8 + (i - 4 - 4) = i by omega]
  · simp [h4, show 12 + (i - 4 - 4 - 4) = i by omega]
  · simp [h5, show 16 + (i - 4 - 4 - 4 - 4) = i by omega]
  · have := hr (i - 28) (by omega)
    rw [show 28 + (i - 28) = i by omega] at this
    simp [this]

end Sys2Proof
end

