-- ==== Sys2Proof/Laws/Float.lean ====
section
/-! SUPPORT. The small laws of binary32 words: fields, classes, packing, draws and flushing. -/

namespace Sys2Proof.Machine

theorem magOf_lt (w : Word) : magOf w < 2 ^ 31 := (w.extractLsb' 0 31).isLt

theorem magOf_eq (w : Word) : magOf w = w.toNat % 2 ^ 31 := by
  simp [magOf, BitVec.extractLsb'_toNat]

theorem signOf_eq (w : Word) : signOf w = decide (2 ^ 31 ≤ w.toNat) := by
  have := w.isLt
  simp only [signOf, BitVec.getLsbD, Nat.testBit_eq_decide_div_mod_eq]
  congr 1
  apply propext
  omega

/-- A word is its sign and its magnitude. -/
theorem word_ext {a b : Word} (hs : signOf a = signOf b) (hm : magOf a = magOf b) : a = b := by
  rw [signOf_eq, signOf_eq] at hs
  rw [magOf_eq, magOf_eq] at hm
  have := a.isLt; have := b.isLt
  have hs' : (2 ^ 31 ≤ a.toNat) ↔ (2 ^ 31 ≤ b.toNat) := by simpa using hs
  apply BitVec.eq_of_toNat_eq
  omega

theorem toNat_pack {s : Bool} {m : Nat} (h : m < 2 ^ 31) :
    (pack s m).toNat = m + if s then 2 ^ 31 else 0 := by
  simp only [pack, BitVec.toNat_ofNat]
  apply Nat.mod_eq_of_lt
  cases s <;> (simp; omega)

@[simp] theorem magOf_pack {s : Bool} {m : Nat} (h : m < 2 ^ 31) : magOf (pack s m) = m := by
  rw [magOf_eq, toNat_pack h]; cases s <;> (simp; omega)

@[simp] theorem signOf_pack {s : Bool} {m : Nat} (h : m < 2 ^ 31) : signOf (pack s m) = s := by
  rw [signOf_eq, toNat_pack h]; cases s <;> simp <;> omega

/-! ### Unary minus -/

@[simp] theorem magOf_fneg (w : Word) : magOf (fneg w) = magOf w := by
  unfold magOf fneg; rw [BitVec.extractLsb'_xor]; simp

@[simp] theorem signOf_fneg (w : Word) : signOf (fneg w) = !signOf w := by
  simp [signOf, fneg]

@[simp] theorem isNaN_fneg (w : Word) : isNaN (fneg w) = isNaN w := by simp [isNaN]
@[simp] theorem isInf_fneg (w : Word) : isInf (fneg w) = isInf w := by simp [isInf]
@[simp] theorem isFinite_fneg (w : Word) : isFinite (fneg w) = isFinite w := by simp [isFinite]

@[simp] theorem signedUnits_fneg (w : Word) : signedUnits (fneg w) = -signedUnits w := by
  simp only [signedUnits, signOf_fneg, magOf_fneg]
  cases signOf w <;> simp

/-! ### Classes -/

theorem isFinite_iff {w : Word} : isFinite w = true ↔ magOf w < infMag := by simp [isFinite]
theorem isNaN_iff {w : Word} : isNaN w = true ↔ infMag < magOf w := by simp [isNaN]
theorem isInf_iff {w : Word} : isInf w = true ↔ magOf w = infMag := by simp [isInf]

theorem not_isNaN_of_isFinite {w : Word} (h : isFinite w = true) : isNaN w = false := by
  simp [isFinite, isNaN] at *; omega

theorem not_isInf_of_isFinite {w : Word} (h : isFinite w = true) : isInf w = false := by
  simp [isFinite, isInf] at *; omega

/-! ### Draws and flushing -/

/-- A draw is a NaN, whatever the drawn word (40_numerics.md R153). -/
@[simp] theorem isNaN_drawNaN (fp : Fp) (k : Nat) : isNaN (fp.drawNaN k) = true := by
  unfold Fp.drawNaN; split_ifs with h
  · exact h
  · decide

theorem flush_ieee {fp : Fp} (h : fp.ftz = false) (w : Word) : fp.flush w = w := by simp [Fp.flush, h]

theorem flush_of_not_isSubnormal {fp : Fp} {w : Word} (h : isSubnormal w = false) : fp.flush w = w := by
  simp [Fp.flush, h]

theorem magOf_and_signBit (w : Word) : magOf (w &&& 0x80000000) = 0 := by
  unfold magOf; rw [BitVec.extractLsb'_and]; simp

@[simp] theorem signOf_flush (fp : Fp) (w : Word) : signOf (fp.flush w) = signOf w := by
  unfold Fp.flush; split_ifs
  · simp [signOf]
  · rfl

theorem magOf_flush_le (fp : Fp) (w : Word) : magOf (fp.flush w) ≤ magOf w := by
  unfold Fp.flush; split_ifs
  · rw [magOf_and_signBit]; omega
  · exact le_rfl

@[simp] theorem isNaN_flush (fp : Fp) (w : Word) : isNaN (fp.flush w) = isNaN w := by
  unfold Fp.flush; split_ifs with h
  · simp [isSubnormal] at h
    simp only [isNaN, magOf_and_signBit]; congr 1; apply propext; unfold infMag; omega
  · rfl

@[simp] theorem isInf_flush (fp : Fp) (w : Word) : isInf (fp.flush w) = isInf w := by
  unfold Fp.flush; split_ifs with h
  · simp [isSubnormal] at h
    simp only [isInf, magOf_and_signBit]; congr 1; apply propext; unfold infMag; omega
  · rfl

@[simp] theorem isFinite_flush (fp : Fp) (w : Word) : isFinite (fp.flush w) = isFinite w := by
  unfold Fp.flush; split_ifs with h
  · simp [isSubnormal] at h
    simp only [isFinite, magOf_and_signBit]; congr 1; apply propext; unfold infMag; omega
  · rfl

theorem isSubnormal_flush {fp : Fp} (h : fp.ftz = true) (w : Word) : isSubnormal (fp.flush w) = false := by
  unfold Fp.flush; split_ifs with hw
  · simp only [isSubnormal, magOf_and_signBit]; rfl
  · simpa [h] using hw

/-- A flush of a flush changes nothing more. -/
theorem flush_flush (fp : Fp) (w : Word) : fp.flush (fp.flush w) = fp.flush w := by
  by_cases h : fp.ftz = true
  · exact flush_of_not_isSubnormal (isSubnormal_flush h w)
  · exact flush_ieee (by simpa using h) _

theorem roundMag_le (n d : Nat) : roundMag n d ≤ infMag := by unfold roundMag; exact Nat.min_le_right _ _

theorem magOf_pack_roundMag (s : Bool) (n d : Nat) : magOf (pack s (roundMag n d)) = roundMag n d := by
  apply magOf_pack; have := roundMag_le n d; unfold infMag at this; omega

theorem not_isNaN_pack_roundMag (s : Bool) (n d : Nat) : isNaN (pack s (roundMag n d)) = false := by
  have := roundMag_le n d
  simp [isNaN, magOf_pack_roundMag]; exact this

/-! ### The configured functions keep what their rules require (40_numerics.md R160 to R163) -/

theorem conform_ok {ok : Word → Bool} {other raw : Word} (h : ok other = true) : ok (conform ok other raw) = true := by
  unfold conform; split_ifs with h'
  · exact h'
  · exact h

/-- An angle function of a NaN is a NaN (42_bilinear_coeff_mapper.md R232). -/
theorem isNaN_angleFunction {argMax : Nat} {ok : Word → Bool} {other w raw : Word} (h : isNaN w = true) :
    isNaN (angleFunction argMax ok other w raw) = true := by
  rw [angleFunction, if_pos h]; exact conform_ok h

/-- An angle function keeps its rule inside the range of its arguments. -/
theorem ok_angleFunction {argMax : Nat} {ok : Word → Bool} {other w raw : Word} (hn : isNaN w = false)
    (hw : positiveUpTo argMax w = true) (h : ok other = true) : ok (angleFunction argMax ok other w raw) = true := by
  rw [angleFunction, hn, hw]; exact conform_ok h

/-- A saturated value is bounded wherever the operand is no NaN. -/
theorem satOk_bound {bound x r : Word} (hx : isNaN x = false) (h : satOk bound x r = true) :
    magOf r ≤ magOf bound := by
  simpa [satOk, hx] using h

/-- A raw value that conforms is left as it is. -/
theorem conform_of_ok {ok : Word → Bool} {other raw : Word} (h : ok raw = true) : conform ok other raw = raw := by
  simp [conform, h]

end Sys2Proof.Machine
end

