-- ==== Sys2Proof/Laws/PerInstr.lean ====
section
/-! SUPPORT. Facts about the instructions as syntax, one lemma for each constructor. -/

namespace Sys2Proof.Laws.EncodeLength

/-- An instruction encodes to one command word and exactly the k operand words its OP gives it (spec
30_encoding.md R119, R123). -/
def Statement (i : Instr) : Prop :=
  ∃ w os, encode i = w :: os ∧ operandCount? w = some os.length

theorem op_commandWord (n : BitVec 12) (b m sub op : BitVec 4) :
    (commandWord n b m sub op).extractLsb' 0 4 = op := by
  apply BitVec.eq_of_getLsbD_eq
  intro i hi
  simp only [commandWord, BitVec.getLsbD_extractLsb', BitVec.getLsbD_append, Nat.zero_add, hi, decide_true,
    Bool.true_and, if_true]

theorem mkcaLp (n : BitVec 12) (b m : BitVec 4) (pitch reso : Word) : Statement (.mkcaLp n b m pitch reso) :=
  ⟨_, _, rfl, by simp only [operandCount?, op_commandWord]; rfl⟩

theorem mkcaHp (n : BitVec 12) (b m : BitVec 4) (pitch reso : Word) : Statement (.mkcaHp n b m pitch reso) :=
  ⟨_, _, rfl, by simp only [operandCount?, op_commandWord]; rfl⟩

theorem mkcaNotch (n : BitVec 12) (b m : BitVec 4) (pitch reso : Word) :
    Statement (.mkcaNotch n b m pitch reso) :=
  ⟨_, _, rfl, by simp only [operandCount?, op_commandWord]; rfl⟩

theorem mkcaBp (n : BitVec 12) (b m : BitVec 4) (pitch reso : Word) : Statement (.mkcaBp n b m pitch reso) :=
  ⟨_, _, rfl, by simp only [operandCount?, op_commandWord]; rfl⟩

theorem mkcaAp (n : BitVec 12) (b m : BitVec 4) (pitch reso : Word) : Statement (.mkcaAp n b m pitch reso) :=
  ⟨_, _, rfl, by simp only [operandCount?, op_commandWord]; rfl⟩

theorem mkcbLp (n : BitVec 12) (b m : BitVec 4) (pitch reso drive : Word) :
    Statement (.mkcbLp n b m pitch reso drive) :=
  ⟨_, _, rfl, by simp only [operandCount?, op_commandWord]; rfl⟩

theorem mkcbHp (n : BitVec 12) (b m : BitVec 4) (pitch reso drive : Word) :
    Statement (.mkcbHp n b m pitch reso drive) :=
  ⟨_, _, rfl, by simp only [operandCount?, op_commandWord]; rfl⟩

theorem proca (nstg : BitVec 2) (satk : SatKind) (b : BitVec 4) (x : Lanes) :
    Statement (.proca nstg satk b x) :=
  ⟨_, _, rfl, by simp only [operandCount?, op_commandWord]; rfl⟩

theorem procblp (b : BitVec 4) (x : Lanes) : Statement (.procblp b x) :=
  ⟨_, _, rfl, by simp only [operandCount?, op_commandWord]; rfl⟩

theorem procbhp (b : BitVec 4) (x : Lanes) : Statement (.procbhp b x) :=
  ⟨_, _, rfl, by simp only [operandCount?, op_commandWord]; rfl⟩

end Sys2Proof.Laws.EncodeLength
end

