-- ==== Sys2Proof/Laws/Port.lean ====
section
/-! SUPPORT. What the host accesses and a step can do, said once. -/

namespace Sys2Proof.Machine

/-! ### Addresses -/

theorem decodeAddr_some {nInst : Nat} {a : BitVec 13} {w : WordRef} (h : decodeAddr nInst a = some w) :
    w.bank < nInst ∧ (a.toNat % 4 = 0 → w.addr = a.toNat) := by
  unfold decodeAddr at h
  split_ifs at h with hb
  obtain ⟨r, hr, rfl⟩ := Option.map_eq_some_iff.mp h
  refine ⟨by simpa using hb, fun h4 => ?_⟩
  have hlt := a.isLt
  have e1 : (a.extractLsb' 9 4).toNat = a.toNat / 512 % 16 := by
    simp [BitVec.extractLsb'_toNat, Nat.shiftRight_eq_div_pow]
  have e2 : (a.extractLsb' 7 2).toNat = a.toNat / 128 % 4 := by
    simp [BitVec.extractLsb'_toNat, Nat.shiftRight_eq_div_pow]
  have e3 : ((a.extractLsb' 4 3).toFin : Nat) = a.toNat / 16 % 8 := by
    show (a.extractLsb' 4 3).toNat = _
    simp [BitVec.extractLsb'_toNat, Nat.shiftRight_eq_div_pow]
  have e4 : ((a.extractLsb' 2 2).toFin : Nat) = a.toNat / 4 % 4 := by
    show (a.extractLsb' 2 2).toNat = _
    simp [BitVec.extractLsb'_toNat, Nat.shiftRight_eq_div_pow]
  have hr' : r.offset = (a.extractLsb' 7 2).toNat * 128 := by
    unfold regionOf at hr
    split_ifs at hr with h0 h1 h2
    · cases hr; rw [h0]; rfl
    · cases hr; rw [h1]; rfl
    · cases hr; rw [h2]; rfl
  simp only [WordRef.addr, hr', e1, e2, e3, e4]
  omega

/-! ### The host accesses -/

theorem stRd_next {p : Params} {a : BitVec 13} {s t : State} (h : stRd p a s = .next t) :
    ∃ w, decodeAddr p.nInst a = some w ∧ w.addr = a.toNat ∧ t = s.answer [w] [s.mem.get w] := by
  unfold stRd at h
  split_ifs at h with h4
  cases hd : decodeAddr p.nInst a with
  | none => simp [hd] at h
  | some w =>
    simp only [hd, Host.Outcome.next.injEq] at h
    exact ⟨w, rfl, (decodeAddr_some hd).2 (by omega), h.symm⟩

theorem stWr_next {p : Params} {a : BitVec 13} {v : Word} {s t : State} (h : stWr p a v s = .next t) :
    ∃ w, decodeAddr p.nInst a = some w ∧ w.bank < p.nInst ∧ w.addr = a.toNat ∧
      t = { s with mem := s.mem.set w v }.answer [] [] := by
  unfold stWr at h
  split_ifs at h with h4
  cases hd : decodeAddr p.nInst a with
  | none => simp [hd] at h
  | some w =>
    simp only [hd, Host.Outcome.next.injEq] at h
    exact ⟨w, rfl, (decodeAddr_some hd).1, (decodeAddr_some hd).2 (by omega), h.symm⟩

theorem csrRd_next {p : Params} {o : BitVec 8} {s t : State} (h : csrRd p o s = .next t) :
    ∃ v, csrRead p s o = some v ∧ t = s.answer [] [v] := by
  unfold csrRd at h
  split_ifs at h
  cases hr : csrRead p s o with
  | none => simp [hr] at h
  | some v => simp only [hr, Host.Outcome.next.injEq] at h; exact ⟨v, rfl, h.symm⟩

theorem csrWr_next {p : Params} {o : BitVec 8} {v : Word} {s t : State} (h : csrWr p o v s = .next t) :
    t = (csrWrite s o v).answer [] [] := by
  unfold csrWr at h
  split_ifs at h
  cases hr : csrRead p s o with
  | none => simp [hr] at h
  | some _ => simp only [hr, Host.Outcome.next.injEq] at h; exact h.symm

/-! ### A step -/

theorem step_nil {s : State} (h : s.pending = []) : step s = .next s := by simp [step, performNext, h]

theorem step_cons {s : State} {x : HostInput} {rest : List HostInput} (h : s.pending = x :: rest) :
    step s = perform Config.hw exec x { s with pending := rest } := by simp [step, performNext, h]

/-- A model's run goes on after a step that read no unwritten word (60_exceptions.md R372). -/
theorem endRun_next {t : State} (h : t.uninit = none) : endRun (.next t) = .ok t := by simp [endRun, h]

/-- It ends at one that did. -/
theorem endRun_uninit {t : State} {w : WordRef} (h : t.uninit = some w) :
    endRun (.next t) = .error (.uninitRead w) := by simp [endRun, h]

/-- What a step that answers a next state did: nothing, or one input. -/
theorem step_next {s t : State} (h : step s = .next t) :
    (s.pending = [] ∧ t = s) ∨
    ∃ x rest, s.pending = x :: rest ∧
      ((∃ a w, x = .stRd a ∧ w.addr = a.toNat ∧ t = { s with pending := rest }.answer [w] [s.mem.get w]) ∨
       (∃ a v w, x = .stWr a v ∧ w.bank < Config.hw.nInst ∧ w.addr = a.toNat ∧
          t = { s with pending := rest, mem := s.mem.set w v }.answer [] []) ∨
       (∃ o v, x = .csrRd o ∧ csrRead Config.hw s o = some v ∧ t = { s with pending := rest }.answer [] [v]) ∨
       (∃ o v, x = .csrWr o v ∧ t = (csrWrite { s with pending := rest } o v).answer [] []) ∨
       (∃ words i, x = .cmd words ∧ decode Config.hw.nInst words = .ok i ∧
          exec i { s with pending := rest } = .next t) ∨
       (x = .hwReset ∧ t = { s with pending := rest }.hwReset)) := by
  cases hp : s.pending with
  | nil => rw [step_nil hp] at h; cases h; exact .inl ⟨rfl, rfl⟩
  | cons x rest =>
    refine .inr ⟨x, rest, rfl, ?_⟩
    rw [step_cons hp] at h
    cases x with
    | stRd a =>
      obtain ⟨w, _, ha, rfl⟩ := stRd_next h
      exact .inl ⟨a, w, rfl, ha, rfl⟩
    | stWr a v =>
      obtain ⟨w, _, hb, ha, rfl⟩ := stWr_next h
      exact .inr (.inl ⟨a, v, w, rfl, hb, ha, rfl⟩)
    | csrRd o =>
      obtain ⟨v, hv, rfl⟩ := csrRd_next h
      exact .inr (.inr (.inl ⟨o, v, rfl, hv, rfl⟩))
    | csrWr o v => exact .inr (.inr (.inr (.inl ⟨o, v, rfl, csrWr_next h⟩)))
    | cmd ws =>
      simp only [perform, command] at h
      cases hd : decode Config.hw.nInst ws with
      | error e => simp [hd] at h
      | ok i => simp only [hd] at h; exact .inr (.inr (.inr (.inr (.inl ⟨ws, i, rfl, hd, h⟩))))
    | hwReset =>
      simp only [perform, Host.Outcome.next.injEq] at h
      exact .inr (.inr (.inr (.inr (.inr ⟨rfl, h.symm⟩))))

/-- A decoded command names an existing bank (30_encoding.md R115). -/
theorem decode_ok_wf {nInst : Nat} {words : List Word} {i : Instr} (h : decode nInst words = .ok i) :
    i.inst.toNat < nInst := by
  cases words with
  | nil => simp [decode] at h
  | cons w os =>
    simp only [decode] at h
    have hb : ∀ hd, decodeHeader nInst w = .ok hd → (instField w).toNat < nInst ∧
        (∀ i, withOperands hd os = some i → i.inst = instField w) := by
      intro hd he
      unfold decodeHeader at he
      split_ifs at he with h1 h2 h3 h4 h5 h6 h7 h8 h9 h10
      all_goals first
        | (cases he; done)
        | (cases hf : ftypeOf (subField w) with
           | none => simp [hf] at he
           | some ft =>
             simp only [hf, Except.ok.injEq] at he; subst he
             refine ⟨by omega, fun i hi => ?_⟩
             rcases os with _ | ⟨_, _ | ⟨_, _ | ⟨_, _⟩⟩⟩ <;> simp [withOperands] at hi
             subst hi; cases ft <;> rfl)
        | (cases hf : hpselOf (subField w) with
           | none => simp [hf] at he
           | some md =>
             simp only [hf, Except.ok.injEq] at he; subst he
             refine ⟨by omega, fun i hi => ?_⟩
             rcases os with _ | ⟨_, _ | ⟨_, _ | ⟨_, _ | ⟨_, _⟩⟩⟩⟩ <;> simp [withOperands] at hi
             subst hi; cases md <;> rfl)
        | (cases he
           refine ⟨by omega, fun i hi => ?_⟩
           rcases os with _ | ⟨_, _ | ⟨_, _ | ⟨_, _ | ⟨_, _ | ⟨_, _⟩⟩⟩⟩⟩ <;> simp [withOperands] at hi
           subst hi; rfl)
    cases he : decodeHeader nInst w with
    | error e => simp [he] at h
    | ok hd =>
      simp only [he] at h
      cases ho : withOperands hd os with
      | none => simp [ho] at h
      | some j =>
        simp only [ho, Except.ok.injEq] at h; subst h
        rw [(hb hd he).2 j ho]; exact (hb hd he).1

end Sys2Proof.Machine
end

