-- ==== Sys2Proof/Tests/Slice0.lean ====
section
/-! SUPPORT. The model's own tests. Expected values come from spec/: each test names the rule or the vector of
95_test_vectors.md it is from. Then, for each obligation with hypotheses, a theorem whose name begins with
`witness_` shows states and operands that meet them. -/

namespace Sys2Proof.Tests

open Sys2Proof.Machine Sys2Proof.Stated

-- One at a time: the kernel evaluations below, run at once, need too much memory.
set_option Elab.async false

/-! ### Decoding: words of 30_encoding.md R128 and of L2.5.5, L2.6.4, L2.7, at N_INST = 4 -/

theorem test_decode_mkca_lp : decode 4 [0x00000F01, 1, 2] = .ok (.mkcaLp 0 0 15 1 2) := by decide
theorem test_decode_mkca_hp : decode 4 [0x00000F11, 1, 2] = .ok (.mkcaHp 0 0 15 1 2) := by decide
theorem test_decode_mkca_notch : decode 4 [0x00000F21, 1, 2] = .ok (.mkcaNotch 0 0 15 1 2) := by decide
theorem test_decode_mkca_bp : decode 4 [0x00201131, 1, 2] = .ok (.mkcaBp 32 1 1 1 2) := by decide
theorem test_decode_mkca_ap : decode 4 [0x00000F41, 1, 2] = .ok (.mkcaAp 0 0 15 1 2) := by decide
theorem test_decode_mkcb_lp : decode 4 [0x00000F02, 1, 2, 3] = .ok (.mkcbLp 0 0 15 1 2 3) := by decide
theorem test_decode_mkcb_hp : decode 4 [0x00400F12, 1, 2, 3] = .ok (.mkcbHp 64 0 15 1 2 3) := by decide
theorem test_decode_proca_tanh : decode 4 [0x00003003, 1, 2, 3, 4] = .ok (.proca 0 .tanh 3 ⟨1, 2, 3, 4⟩) := by
  decide
theorem test_decode_proca_soft : decode 4 [0x00000073, 1, 2, 3, 4] = .ok (.proca 3 .soft 0 ⟨1, 2, 3, 4⟩) := by
  decide
theorem test_decode_procblp : decode 4 [0x00002004, 1, 2, 3, 4] = .ok (.procblp 2 ⟨1, 2, 3, 4⟩) := by decide
theorem test_decode_procbhp : decode 4 [0x00000005, 1, 2, 3, 4] = .ok (.procbhp 0 ⟨1, 2, 3, 4⟩) := by decide

/-- The command word 0000 000000100000 0001 0001 0011 0001, written bit by bit from R111 and R113: RSV, RAMP = 32,
INST = 1, MASK = 1, SUB = FTYPE 3 (BP), OP = 1. -/
theorem test_decode_bit_by_bit :
    decode 4 [0b00000000001000000001000100110001, 1, 2] = .ok (.mkcaBp 32 1 1 1 2) := by decide

theorem test_refused_reserved :
    ([0x10000001, 0x00000000, 0x00000006, 0x0000000F, 0x00000051, 0x00000081, 0x00000022, 0x00000083,
        0x00000103, 0x00010003, 0x00000014, 0x00000104, 0x10004003] : List Word).map (decodeHeader 4) =
      List.replicate 13 (.error .reservedEncoding) := by decide +kernel
theorem test_refused_inst_range :
    ([0x00005001, 0x00004003] : List Word).map (decodeHeader 4) = List.replicate 2 (.error .instRange) := by decide
theorem test_refused_operand_count : decode 4 [0x00000F01, 1] = .error .operandCount := by decide

theorem test_table_word : decodeTableWord 160 (0x00000004 + 7 * 2 ^ 32 + 9 * 2 ^ 128) = some (.procblp 0 ⟨7, 0, 0, 9⟩) := by
  decide +kernel
/-- With the operand words given no bits, they are zeros. -/
theorem test_table_word_short : decodeTableWord 32 0x00400F12 = some (.mkcbHp 64 0 15 0 0 0) := by decide +kernel

/-! ### Well-formedness: one ill-formed term for each check -/

theorem test_ill_formed_bank : (Instr.procblp 4 ⟨0, 0, 0, 0⟩).wf 4 = false := by decide
theorem test_well_formed_bank : (Instr.procblp 3 ⟨0, 0, 0, 0⟩).wf 4 = true := by decide
theorem test_ill_formed_state_alignment : (HostInput.stRd 0x002).wf 4 = false := by decide
theorem test_ill_formed_state_region : (HostInput.stWr 0x180 0).wf 4 = false := by decide
theorem test_ill_formed_state_bank : (HostInput.stRd 0x800).wf 4 = false := by decide
theorem test_ill_formed_csr_alignment : (HostInput.csrRd 0x0E).wf 4 = false := by decide
theorem test_ill_formed_csr_offset : (HostInput.csrWr 0x10 0).wf 4 = false := by decide
theorem test_ill_formed_no_words : (HostInput.cmd []).wf 4 = false := by decide
theorem test_ill_formed_operand_count : (HostInput.cmd [0x00000F01, 0]).wf 4 = false := by decide
theorem test_ill_formed_reserved_op : (HostInput.cmd [0x00000000]).wf 4 = false := by decide
theorem test_well_formed_command : (HostInput.cmd [0x00000F01, 0, 0]).wf 4 = true := by decide
theorem test_well_formed_access : (HostInput.stWr 0x77C 0).wf 4 = true := by decide

/-! ### Numerics under REF (L2.1) -/

theorem test_sat_tanh_ref :
    ([0x80000000, 0x3F000000, 0x3F800000, 0xC0400000, 0x00000001] : List Word).map satTanhRef =
      [0x80000000, 0x3EEE7EE8, 0x3F471C72, 0xBF800000, 0x00000001] := by decide +kernel
theorem test_sat_soft_ref :
    ([0x80000000, 0x3F000000, 0xBF000000, 0x3F800000, 0x3FC00000, 0xFF800000, 0x00000001] : List Word).map satSoftRef =
      [0x00000000, 0x3EF684BE, 0xBEF684BE, 0x3F5A12F6, 0x3F800000, 0xBF800000, 0x00000001] := by decide +kernel
theorem test_lpf1 : lpf1 refFp 0 0x3E800000 0x3F800000 0x3F000000 = (0x3F200000, 0x3F400000) := by decide +kernel
theorem test_hpf1 : hpf1 refFp 0 0x3E800000 0x3F800000 0x3F000000 = (0x3EC00000, 0x3F400000) := by decide +kernel
theorem test_clamp :
    ([0x3F000000, 0xC0000000, 0x40000000, 0x7FC00000, 0x7F800000, 0x80000000] : List Word).map
        (fun x => refFp.clamp x 0x00000000 0x3F800000) =
      [0x3F000000, 0x00000000, 0x3F800000, 0x7FC00000, 0x3F800000, 0x80000000] := by decide +kernel
/-- Under `ftz` a subnormal operand is a zero and a subnormal result too (40_numerics.md R152). -/
theorem test_ftz : (Fp.mk true fun _ => 0).add 0 0x00000001 0x00000001 = 0x00000000 ∧
    (Fp.mk true fun _ => 0).mul 0 0x80800000 0x3F000000 = 0x80000000 := by decide +kernel

/-- Infinite operands (40_numerics.md R150). -/
theorem test_infinities :
    [refFp.add 0 0x7F800000 0xBF800000, refFp.sub 0 0x3F800000 0xFF800000, refFp.sub 0 0x3F800000 0x7F800000,
      refFp.add 0 0xFF800000 0xFF800000, refFp.mul 0 0xFF800000 0x40000000, refFp.mul 0 0xC0000000 0xFF800000,
      refFp.div 0 0xFF800000 0x80000000, refFp.div 0 0x3F800000 0xFF800000, refFp.div 0 0x00000000 0x7F800000] =
    [0x7F800000, 0x7F800000, 0xFF800000, 0xFF800000, 0xFF800000, 0x7F800000, 0x7F800000, 0x80000000, 0x00000000] ∧
    [refFp.sub 0 0x7F800000 0x7F800000, refFp.mul 0 0x80000000 0x7F800000, refFp.div 0 0x7F800000 0xFF800000].map
      isNaN = [true, true, true] := by decide +kernel
/-- Under `ftz` a comparison reads a subnormal as a zero (log 10). -/
theorem test_ftz_comparison : (Fp.mk true fun _ => 0).lt 0x00000000 0x00000001 = false ∧
    (Fp.mk true fun _ => 0).ge 0x80000001 0x00000000 = true ∧ refFp.lt 0x00000000 0x00000001 = true := by decide

/-! ### Steps under REF, on one bank whose words are all written -/

/-- The four cells of a word. -/
def wordCells (a : Nat) (v : Word) : List Host.Cell :=
  [(a, v.extractLsb' 0 8), (a + 1, v.extractLsb' 8 8), (a + 2, v.extractLsb' 16 8), (a + 3, v.extractLsb' 24 8)]

/-- Bank 0 with C, dC and R as given, alike in all lanes. -/
def bank0 (c d r : Slot → Word) : Memory :=
  ⟨([(.C, c), (.dC, d), (.R, r)] : List (Region × (Slot → Word))).flatMap fun rv =>
    allSlots.flatMap fun i => allLanes.flatMap fun l => wordCells (WordRef.mk rv.1 0 i l).addr (rv.2 i)⟩

def zeros : Slot → Word := fun _ => 0

/-- A slot vector from a list. -/
def slotsOf (ws : List Word) : Slot → Word := fun i => ws.getD i.val 0

/-- SR = 48000.0 and SR_INV = fl(1/48000), no state word written. -/
def booted : State := { State.reset with sr := 0x473B8000, srInv := 0x37AEC33E }

/-- The same with bank 0 written with zeros. -/
def ready : State := { booted with mem := bank0 zeros zeros zeros }

/-- REF at N_INST = 4 with a provider that answers 1.0 (R240: REF_FREQ 1000.0; R252: 200.0). -/
def ref1000 : Params := refParams 3 (fun _ => Const.one) 0x447A0000
def ref200 : Params := refParams 3 (fun _ => Const.one) 0x43480000

/-- What `f` reads of the state a command leaves. -/
def after {α : Type} (o : Host.Outcome State Fault Refusal) (f : State → α) : Option α :=
  match o with
  | .next t => some (f t)
  | .fault f => nomatch f
  | .refused _ => none

/-- C of slots 0 to 4 of lane 3. -/
def cLane3 (t : State) : List Word := [0, 1, 2, 3, 4].map fun i => t.mem.get ⟨.C, 0, i, 3⟩

/-- R240. -/
theorem test_mkca_lp : after (execWith ref1000 (.mkcaLp 0 0 8 0 0x3F000000) booted) cLane3 =
    some [0xBFF6F3A1, 0x3F722A4B, 0x3B886129, 0x3C086129, 0x3B886129] := by decide +kernel

/-- L2.3. -/
theorem test_mkca_hp : after (execWith ref1000 (.mkcaHp 0 0 8 0 0x3F000000) booted) cLane3 =
    some [0xBFF6F3A1, 0x3F722A4B, 0x3F780463, 0xBFF80463, 0x3F780463] := by decide +kernel
theorem test_mkca_notch : after (execWith ref1000 (.mkcaNotch 0 0 8 0 0x3F000000) booted) cLane3 =
    some [0xBFF6F3A1, 0x3F722A4B, 0x3F791526, 0xBFF6F3A1, 0x3F791526] := by decide +kernel
theorem test_mkca_bp : after (execWith ref1000 (.mkcaBp 0 0 8 0 0x3F000000) booted) cLane3 =
    some [0xBFF6F3A1, 0x3F722A4B, 0x3D820C17, 0x00000000, 0xBD820C17] := by decide +kernel
theorem test_mkca_ap : after (execWith ref1000 (.mkcaAp 0 0 8 0 0x3F000000) booted) cLane3 =
    some [0xBFF6F3A1, 0x3F722A4B, 0x3F722A4B, 0xBFF6F3A1, 0x3F800000] := by decide +kernel
/-- L2.5.4: with N = 4 dC[A_B0] is b0/4 and C keeps its zero. -/
theorem test_mkca_lp_ramp : after (execWith ref1000 (.mkcaLp 4 0 1 0 0x3F000000)
    { booted with mem := Memory.setAll ⟨[]⟩ (allSlots.map fun i => (⟨.C, 0, i, 0⟩, 0)) })
    (fun t => (t.mem.get ⟨.dC, 0, 2, 0⟩, t.mem.get ⟨.C, 0, 2, 0⟩)) = some (0x3A886129, 0x00000000) := by
  decide +kernel

/-- SR = 44100.0 and SR_INV = fl(1/44100) (R252). -/
def booted441 : State := { State.reset with sr := 0x472C4400, srInv := 0x37BE37C6 }

/-- R252. -/
theorem test_mkcb_lp : after (execWith ref200 (.mkcbLp 0 0 2 0 0x3F666666 0x3F800000) booted441)
    (fun t => allSlots.map fun i => t.mem.get ⟨.C, 0, i, 1⟩) =
    some [0x3C662B2E, 0x3FDB7E17, 0xBF7C6754, 0x3FE1CAC0, 0x3F8334AE, 0x3F800000, 0x3F800000, 0x00000000] := by
  decide +kernel
theorem test_mkcb_hp : after (execWith ref200 (.mkcbHp 0 0 2 0 0x3F666666 0x3F800000) booted441)
    (fun t => allSlots.map fun i => t.mem.get ⟨.C, 0, i, 1⟩) =
    some [0x3C662B2E, 0x3F7C6754, 0xBCC82826, 0x3FE1CAC0, 0x3F8334AE, 0x3F800000, 0x3F800000, 0x00000000] := by
  decide +kernel
/-- R231: SR = 0 after reset. -/
theorem test_mkcb_refused :
    execWith ref200 (.mkcbLp 0 0 15 0 0x3F666666 0x3F800000) { booted441 with sr := 0 } = .refused .srInvalid := rfl

/-- R287: the low-pass coefficients of R240, soft clip, one stage. -/
theorem test_proca :
    after (execWith ref1000 (.proca 0 .soft 0 ⟨0x3F800000, 0x3F000000, 0xBF800000, 0⟩)
      { ready with mem := bank0 (slotsOf [0xBFF6F3A1, 0x3F722A4B, 0x3B886129, 0x3C086129, 0x3B886129]) zeros zeros })
      (fun t => (t.results, t.mem.get ⟨.R, 0, 0, 0⟩, t.mem.get ⟨.R, 0, 1, 0⟩)) =
    some ([0x3B886129, 0x3B086129, 0xBB886129, 0x00000000], 0x3C85F6CC, 0x396BD900) := by decide +kernel
/-- L2.2: from C = 0.0 to T = 1.0 with N = 3, and from 1.0 to 0.0 with N = 10. -/
theorem test_ramp_set :
    rampSetWord refFp (Memory.set ⟨[]⟩ ⟨.C, 0, 0, 0⟩ 0) 0 0x3F800000 3 0 0 = [(⟨.dC, 0, 0, 0⟩, 0x3EAAAAAB)] ∧
    rampSetWord refFp (Memory.set ⟨[]⟩ ⟨.C, 0, 0, 0⟩ 0x3F800000) 0 0 10 0 0 = [(⟨.dC, 0, 0, 0⟩, 0xBDCCCCCD)] := by
  decide +kernel

/-- The Family B coefficients of R252. -/
def lp252 : Slot → Word :=
  slotsOf [0x3C662B2E, 0x3FDB7E17, 0xBF7C6754, 0x3FE1CAC0, 0x3F8334AE, 0x3F800000, 0x3F800000, 0x00000000]
/-- R330. -/
theorem test_procblp :
    after (execWith ref200 (.procblp 0 ⟨0x3F800000, 0x3F000000, 0xBF800000, 0⟩)
      { ready with mem := bank0 lp252 zeros zeros })
      (fun t => (t.results, [0, 1, 2].map fun j => t.mem.get ⟨.R, 0, j, 0⟩)) =
    some ([0x39541D1E, 0x38D41F9E, 0xB9541D1E, 0x00000000], [0x3CE62B2E, 0x39D41D1E, 0x372834F2]) := by
  decide +kernel
/-- R330, lane 0 of the high-pass variant. -/
theorem test_procbhp_lane :
    ladderLane .hp refFp satTanhRef ⟨0x3C662B2E, 0x3F7C6754, 0xBCC82826, 0x3FE1CAC0, 0x3F8334AE, 0x3F800000,
      0x3F800000, 0x00000000⟩ 0x3F800000 0 0 0 = ⟨0x3F457FA1, 0x3CE62B2E, 0x3CB419B1, 0x3D1C9DEF⟩ := by decide +kernel

/-- P4: a host that skips the boot sequence. The block completes (60_exceptions.md R370, R372); a model's run ends. -/
theorem test_proca_unwritten :
    after (execWith ref1000 (.proca 0 .tanh 0 ⟨0, 0, 0, 0⟩) booted) State.uninit = some (some ⟨.R, 0, 0, 0⟩) ∧
    endRun (execWith ref1000 (.proca 0 .tanh 0 ⟨0, 0, 0, 0⟩) booted) = .error (.uninitRead ⟨.R, 0, 0, 0⟩) :=
  ⟨rfl, rfl⟩
theorem test_mkca_unwritten : endRun (execWith ref1000 (.mkcaLp 8 0 15 0 0x3F000000) booted) =
    .error (.uninitRead ⟨.C, 0, 0, 0⟩) := by
  have h : srOk (arith ref1000 0 scopeTargets) 0x473B8000 = true := by decide +kernel
  simp only [execWith, mkca, booted, State.reset, h, if_true]; rfl

/-! ### The host port (L2.8) -/

theorem test_cfg_4 : cfgWord ref1000 = 0x00343885 := by decide
theorem test_cfg_1 : cfgWord (refParams 0 id 0) = 0x00043885 := by decide
theorem test_csr_misaligned : csrRd ref1000 0x0E State.reset = .refused .misaligned := rfl
theorem test_csr_reserved : csrRd ref1000 0x10 State.reset = .refused .reservedAddress := rfl
theorem test_st_misaligned : stRd ref1000 0x002 State.reset = .refused .misaligned := rfl
theorem test_st_reserved : stRd ref1000 0x180 State.reset = .refused .reservedAddress := rfl
theorem test_st_reserved_end : stRd ref1000 0x1FC State.reset = .refused .reservedAddress := rfl
theorem test_st_reserved_bank : stRd (refParams 0 id 0) 0x200 State.reset = .refused .reservedAddress := rfl
theorem test_st_unwritten : endRun (stRd ref1000 0x024 State.reset) = .error (.uninitRead ⟨.C, 0, 2, 1⟩) ∧
    after (stRd ref1000 0x024 State.reset) State.mem = some State.reset.mem := ⟨rfl, rfl⟩
/-- A host write of a NaN never sets NF, and is read back. -/
theorem test_st_write : after (stWr ref1000 0x024 0x7FC00000 State.reset)
    (fun t => (t.mem.word ⟨.C, 0, 2, 1⟩, t.nf)) = some (some 0x7FC00000, false) := by decide
/-- NF is write-1-to-clear (10_state.md R44). -/
theorem test_clrnf : after (csrWr ref1000 0x0C 1 { State.reset with nf := true }) State.nf = some false ∧
    after (csrWr ref1000 0x0C 2 { State.reset with nf := true }) State.nf = some true := by decide
/-- A subnormal literal and an exact one (30_encoding.md R126, 40_numerics.md R159). -/
theorem test_literals : (AsmValue.decimal false 1 1).word = 0x3DCCCCCD ∧ (AsmValue.decimal true 48000 0).word = 0xC73B8000 ∧
    asmReciprocal 0x473B8000 = 0x37AEC33E := by decide +kernel

/-! ### Witnesses: for each obligation with hypotheses, states and operands that meet them -/

/-- `booted` with every word of bank 0 written with +0.0: what `initbank i0` leaves. -/
def seeded : State := { booted with mem := Memory.setAll ⟨[]⟩ ((initbankWords 0).map fun w => (w, 0)) }

theorem mem_initbankWords (r : Region) (i : Slot) (l : Lane) : ⟨r, 0, i, l⟩ ∈ initbankWords 0 := by
  simp only [initbankWords, List.mem_flatMap, List.mem_map, mem_allSlots, mem_allLanes, true_and]
  exact ⟨r, by cases r <;> simp, i, l, rfl⟩

theorem seeded_word (r : Region) (i : Slot) (l : Lane) : seeded.mem.word ⟨r, 0, i, l⟩ = some 0 := by
  refine word_setAll_of_unique (List.mem_map.mpr ⟨_, mem_initbankWords r i l, rfl⟩) fun v' h => ?_
  obtain ⟨_, -, e⟩ := List.mem_map.mp h
  exact ((Prod.mk.injEq ..).mp e).2.symm

theorem seeded_bankReady : seeded.bankReady 0 := fun r i l => by rw [seeded_word]; rfl

theorem booted_sr : SrValid booted := ⟨by decide +kernel, by decide +kernel, by decide +kernel⟩
theorem booted_srInv : SrInvValid booted := ⟨by decide +kernel, by decide +kernel⟩

theorem seeded_sr : SrValid seeded := ⟨by decide +kernel, by decide +kernel, by decide +kernel⟩
theorem seeded_srInv : SrInvValid seeded := ⟨by decide +kernel, by decide +kernel⟩

/-- A processor completes. -/
theorem processor_completes (i : Instr) (s : State) (hp : i.isProcessor = true) : ∃ t, exec i s = .next t :=
  (exec_completes_iff i s).mpr (by cases i <;> first | rfl | cases hp)

theorem witness_ExampleWordsEncodeAndDecode : 4 ≤ 4 ∧ 4 ≤ 16 := by decide

theorem witness_DecodeOfEncodeIsTheInstruction :
    (Instr.mkcaLp 0xFFF 0 15 0 0).wf 1 = true ∧ (Instr.proca 3 .soft 15 ⟨0, 0, 0, 0⟩).wf 16 = true := by decide

theorem witness_EncodeOfDecodeIsTheWords :
    decode 1 [0x0FFF0F01, 1, 2] = .ok (.mkcaLp 0xFFF 0 15 1 2) := by decide

/-- A word of each clause: RSV, INST, the bounds of OP and SUB, MASK, RAMP, and accepted words. -/
theorem witness_ReservedWordsRefusedInOrder :
    (0x1000F000 : Word).extractLsb' 28 4 ≠ 0 ∧
    ((0x00004000 : Word).extractLsb' 28 4 = 0 ∧ 4 ≤ ((0x00004000 : Word).extractLsb' 12 4).toNat) ∧
    ((0x00003006 : Word).extractLsb' 28 4 = 0 ∧ ((0x00003006 : Word).extractLsb' 12 4).toNat < 4 ∧
      6 ≤ ((0x00003006 : Word).extractLsb' 0 4).toNat) ∧
    (((0x00000051 : Word).extractLsb' 0 4).toNat = 1 ∧ 5 ≤ ((0x00000051 : Word).extractLsb' 4 4).toNat) ∧
    (((0x00000022 : Word).extractLsb' 0 4).toNat = 2 ∧ 2 ≤ ((0x00000022 : Word).extractLsb' 4 4).toNat) ∧
    (((0x00000083 : Word).extractLsb' 0 4).toNat = 3 ∧ 8 ≤ ((0x00000083 : Word).extractLsb' 4 4).toNat) ∧
    (((0x00000014 : Word).extractLsb' 0 4).toNat = 4 ∧ ((0x00000014 : Word).extractLsb' 4 4).toNat ≠ 0) ∧
    (((0x00000105 : Word).extractLsb' 0 4).toNat = 5 ∧ ((0x00000105 : Word).extractLsb' 8 4).toNat ≠ 0) ∧
    (∃ i, decode 4 [0x00000041, 0, 0] = .ok i) ∧ ∃ i, decode 4 [0x00003073, 0, 0, 0, 0] = .ok i := by
  refine ⟨by decide, by decide, by decide, by decide, by decide, by decide, by decide, by decide,
    ⟨.mkcaAp 0 0 0 0 0, by decide⟩, ⟨.proca 3 .soft 3 ⟨0, 0, 0, 0⟩, by decide⟩⟩

theorem witness_WrongOperandCountRefused :
    decodeHeader 4 0x00000F01 = .ok (.mkca .lp 0 0 15) ∧ operandCount? 0x00000F01 ≠ some ([0] : List Word).length := by
  decide

/-- A command of bank 0, which every block has, and its step. -/
def issued (i : Instr) (s : State) : State := { s with pending := [issue i] }

theorem decode_bank0 (n : Nat) :
    decode (n + 1) [0x00000004, 0, 0, 0, 0] = .ok (.procblp 0 ⟨0, 0, 0, 0⟩) := by
  simp [decode, decodeHeader, rsvField, instField, opField, subField, maskField, rampField, withOperands]

theorem witness_StepRunsTheDecodedCommand :
    (issued (.procblp 0 ⟨0, 0, 0, 0⟩) seeded).pending = [.cmd [0x00000004, 0, 0, 0, 0]] ∧
    decode Config.hw.nInst [0x00000004, 0, 0, 0, 0] = .ok (.procblp 0 ⟨0, 0, 0, 0⟩) :=
  ⟨by decide, decode_bank0 _⟩

theorem witness_StepRefusesUndecodableCommands :
    decode (refParams 0 id 0).nInst [0x10001000] = .error .reservedEncoding ∧
    decode (refParams 0 id 0).nInst [0x00001000] = .error .instRange ∧
    decode (refParams 0 id 0).nInst [0x00000F01, 0] = .error .operandCount ∧
    ({ State.reset with pending := [.cmd [0x00001000]] } : State).pending = .cmd [0x00001000] :: [] := by decide

theorem witness_PlacedWordIsTheNextCommand :
    decodeTableWord 160 0x00000004 = some (.procblp 0 ⟨0, 0, 0, 0⟩) ∧
    (Instr.procblp 0 ⟨0, 0, 0, 0⟩).wf Config.hw.nInst = true := by
  refine ⟨by decide +kernel, ?_⟩
  simp [Instr.wf, Instr.inst, Params.nInst]

theorem witness_IdleStepHoldsTheState : seeded.pending = [] := rfl

theorem witness_ResetEventRestoresResetState :
    ({ seeded with pending := [.hwReset, .csrRd 0] } : State).pending = .hwReset :: [.csrRd 0] := rfl

/-- The clauses of the layout at the ends of a bank, of its reserved part, and past the last bank. -/
theorem witness_StateSpaceLayout :
    decodeAddr 1 0x17C = some ⟨.R, 0, 7, 3⟩ ∧ decodeAddr 1 0x180 = none ∧ decodeAddr 1 0x1FC = none ∧
    decodeAddr 1 0x200 = none ∧ decodeAddr 16 0x1F7C = some ⟨.R, 15, 7, 3⟩ ∧ (0x17C : BitVec 13).toNat % 4 = 0 := by
  decide

/-- A misaligned, a reserved, an unwritten and a written address, at the ends of their ranges. -/
theorem witness_StateReadReturnsTheWord :
    (0x1FF : BitVec 13).toNat % 4 ≠ 0 ∧
    ((0x180 : BitVec 13).toNat % 4 = 0 ∧ 0x180 ≤ (0x180 : BitVec 13).toNat % 0x200) ∧
    ((0x17C : BitVec 13).toNat % 4 = 0 ∧
      ¬ (Config.hw.nInst ≤ (0x17C : BitVec 13).toNat / 0x200 ∨ 0x180 ≤ (0x17C : BitVec 13).toNat % 0x200)) ∧
    State.reset.mem.wordAt (0x17C : BitVec 13).toNat = none ∧
    seeded.mem.wordAt (0x17C : BitVec 13).toNat = some 0 ∧
    ({ State.reset with pending := [.stRd 0x17C] } : State).pending = .stRd 0x17C :: [] ∧
    ({ seeded with pending := [.stRd 0x17C] } : State).pending = .stRd 0x17C :: [] := by
  refine ⟨by decide, by decide, ⟨by decide, ?_⟩, by decide, seeded_word .R 7 3, rfl, rfl⟩
  simp [Params.nInst]

theorem witness_StateWriteStoresTheWord :
    (0x17E : BitVec 13).toNat % 4 ≠ 0 ∧ 0x180 ≤ (0x1FC : BitVec 13).toNat % 0x200 ∧
    ((0x000 : BitVec 13).toNat % 4 = 0 ∧
      ¬ (Config.hw.nInst ≤ (0x000 : BitVec 13).toNat / 0x200 ∨ 0x180 ≤ (0x000 : BitVec 13).toNat % 0x200)) ∧
    ({ seeded with pending := [.stWr 0x000 1] } : State).pending = .stWr 0x000 1 :: [] := by
  refine ⟨by decide, by decide, ⟨by decide, ?_⟩, rfl⟩
  simp [Params.nInst]

theorem witness_ControlReadReturnsTheRegister :
    (0x0E : BitVec 8).toNat % 4 ≠ 0 ∧ ((0x10 : BitVec 8).toNat % 4 = 0 ∧ 0x10 ≤ (0x10 : BitVec 8).toNat) ∧
    ((0xFC : BitVec 8).toNat % 4 = 0 ∧ 0x10 ≤ (0xFC : BitVec 8).toNat) ∧
    ∀ o ∈ ([0x00, 0x04, 0x08, 0x0C] : List (BitVec 8)),
      ({ seeded with pending := [.csrRd o] } : State).pending = .csrRd o :: [] :=
  ⟨by decide, by decide, by decide, fun _ _ => rfl⟩

theorem witness_ControlWriteEffects :
    (0x03 : BitVec 8).toNat % 4 ≠ 0 ∧ ((0x10 : BitVec 8).toNat % 4 = 0 ∧ 0x10 ≤ (0x10 : BitVec 8).toNat) ∧
    ∀ o ∈ ([0x00, 0x04, 0x08, 0x0C] : List (BitVec 8)),
      ({ seeded with pending := [.csrWr o 1] } : State).pending = .csrWr o 1 :: [] :=
  ⟨by decide, by decide, fun _ _ => rfl⟩

/-- A state with one word written, and a step from it. -/
def oneWord : State := { State.reset with mem := ⟨wordCells 0 0x3F800000⟩, pending := [.csrRd 0x04] }

theorem witness_StepKeepsTheStateSpaceInvariant :
    oneWord.Inv ∧ step oneWord = .next ({ oneWord with pending := [] }.answer [] [0]) := by
  have hb : ∀ a, (oneWord.mem.byte a).isSome = true ↔ a < 4 := by
    intro a
    rcases Nat.lt_or_ge a 4 with h | h
    · interval_cases a <;> decide
    · simp [oneWord, wordCells, Memory.byte, lookupCell, show ¬ 0 = a by omega, show ¬ 1 = a by omega,
        show ¬ 2 = a by omega, show ¬ 3 = a by omega]; omega
  refine ⟨⟨by decide, fun a ha => ?_, fun a ha j hj => ?_⟩, rfl⟩
  · have := (hb a).mp ha
    have h1 : a / 0x200 = 0 := by omega
    have h2 : a % 0x200 < 0x180 := by omega
    simp [stateByte, Params.nInst, h1, h2]
  · have := (hb a).mp ha
    exact (hb _).mpr (by omega)

/-- The target vectors exist. -/
theorem familyATarget_exists (fp : Fp) (ft : FilterType) (f sr reso : Word) :
    ∃ T, FamilyATarget fp ft f sr reso T := by
  obtain ⟨res, e1⟩ : ∃ v, v = fp.clamp reso 0x00000000 0x3F800000 := ⟨_, rfl⟩
  obtain ⟨q, e2⟩ : ∃ v, v = fp.add 5 (fp.mul 4 (fp.mul 3 (fp.mul 2 res res) res) 0x41900000) 0x3DCCCCCD := ⟨_, rfl⟩
  obtain ⟨nf, e3⟩ : ∃ v, v = fp.div 7 (fp.mul 6 0x40000000 f) sr := ⟨_, rfl⟩
  obtain ⟨w, e4⟩ : ∃ v, v = fp.mul 8 0x40490FDB nf := ⟨_, rfl⟩
  obtain ⟨s, e5⟩ : ∃ v, v = fastSin Config.hw w := ⟨_, rfl⟩
  obtain ⟨c, e6⟩ : ∃ v, v = fastCos Config.hw w := ⟨_, rfl⟩
  obtain ⟨alpha, e7⟩ : ∃ v, v = fp.div 10 s (fp.mul 9 0x40000000 q) := ⟨_, rfl⟩
  obtain ⟨a0r, e8⟩ : ∃ v, v = fp.div 12 0x3F800000 (fp.add 11 0x3F800000 alpha) := ⟨_, rfl⟩
  obtain ⟨a1, e9⟩ : ∃ v, v = fp.mul 14 (fp.mul 13 0xC0000000 c) a0r := ⟨_, rfl⟩
  obtain ⟨a2, e10⟩ : ∃ v, v = fp.mul 16 (fp.sub 15 0x3F800000 alpha) a0r := ⟨_, rfl⟩
  obtain ⟨b0, b1, b2, hb⟩ : ∃ b0 b1 b2, FeedForward fp ft s c alpha a0r (slotsOf [a1, a2, b0, b1, b2]) := by
    cases ft
    · obtain ⟨b1, h1⟩ : ∃ v, v = fp.mul 21 (fp.sub 20 0x3F800000 c) a0r := ⟨_, rfl⟩
      obtain ⟨b0, h0⟩ : ∃ v, v = fp.mul 22 b1 0x3F000000 := ⟨_, rfl⟩
      exact ⟨b0, b1, b0, h1, h0, rfl⟩
    · obtain ⟨b1, h1⟩ : ∃ v, v = fneg (fp.mul 21 (fp.add 20 0x3F800000 c) a0r) := ⟨_, rfl⟩
      obtain ⟨b0, h0⟩ : ∃ v, v = fp.mul 22 b1 0xBF000000 := ⟨_, rfl⟩
      exact ⟨b0, b1, b0, h1, h0, rfl⟩
    · exact ⟨a0r, a1, a0r, rfl, rfl, rfl⟩
    · obtain ⟨b0, h0⟩ : ∃ v, v = fp.mul 21 (fp.mul 20 s 0x3F000000) a0r := ⟨_, rfl⟩
      exact ⟨b0, 0x00000000, fneg b0, h0, rfl, rfl⟩
    · obtain ⟨b2, h2⟩ : ∃ v, v = fp.mul 21 (fp.add 20 0x3F800000 alpha) a0r := ⟨_, rfl⟩
      exact ⟨a2, a1, b2, rfl, rfl, h2⟩
  exact ⟨_, res, q, nf, w, s, c, alpha, a0r, e1, e2, e3, e4, e5, e6, e7, e8, e9, e10, hb, rfl, rfl, rfl⟩

theorem familyBTarget_exists (fp : Fp) (mode : PassMode) (f sr srInv reso drive : Word) :
    ∃ T, FamilyBTarget fp mode f sr srInv reso drive T := by
  obtain ⟨wd, e1⟩ : ∃ v, v = fp.mul 3 (fp.mul 2 0x40000000 f) 0x40490FDB := ⟨_, rfl⟩
  obtain ⟨arg, e2⟩ : ∃ v, v = fp.mul 5 (fp.mul 4 wd srInv) 0x3F000000 := ⟨_, rfl⟩
  obtain ⟨t, e3⟩ : ∃ v, v = fastTan Config.hw arg := ⟨_, rfl⟩
  obtain ⟨wa, e4⟩ : ∃ v, v = fp.mul 7 (fp.mul 6 0x40000000 sr) t := ⟨_, rfl⟩
  obtain ⟨g, e5⟩ : ∃ v, v = fp.mul 9 (fp.mul 8 wa srInv) 0x3F000000 := ⟨_, rfl⟩
  obtain ⟨gp1, e6⟩ : ∃ v, v = fp.add 10 0x3F800000 g := ⟨_, rfl⟩
  obtain ⟨gg, e7⟩ : ∃ v, v = fp.div 11 g gp1 := ⟨_, rfl⟩
  obtain ⟨k, e8⟩ : ∃ v, v = fp.clamp (fp.mul 12 reso 0x3FFAE148) 0x3C23D70A 0x3FFAE148 := ⟨_, rfl⟩
  obtain ⟨kG, e9⟩ : ∃ v, v = fp.mul 13 k gg := ⟨_, rfl⟩
  obtain ⟨al, e10⟩ : ∃ v, v = fp.div 17 0x3F800000 (fp.add 16 (fp.sub 14 0x3F800000 kG) (fp.mul 15 kG gg)) := ⟨_, rfl⟩
  obtain ⟨bl, e11⟩ : ∃ v, v = fp.clamp drive 0x00000000 0x3F800000 := ⟨_, rfl⟩
  obtain ⟨bi, e12⟩ : ∃ v, v = fp.sub 18 0x3F800000 bl := ⟨_, rfl⟩
  cases mode
  · exact ⟨slotsOf [gg, fp.div 21 (fp.sub 20 k kG) gp1, fp.div 22 0xBF800000 gp1, k, al, drive, bl, bi],
      wd, arg, t, wa, g, gp1, k, kG, e1, e2, e3, e4, e5, e6, e7, e8, rfl, e9, ⟨rfl, rfl⟩, e10, rfl, e11, e12⟩
  · exact ⟨slotsOf [gg, fp.div 21 0x3F800000 gp1, fp.div 22 (fneg kG) gp1, k, al, drive, bl, bi],
      wd, arg, t, wa, g, gp1, k, kG, e1, e2, e3, e4, e5, e6, e7, e8, rfl, e9, ⟨rfl, rfl⟩, e10, rfl, e11, e12⟩

theorem witness_FamilyASnapTakesTheTargets (ft : FilterType) :
    SrValid booted ∧ ∃ T, FamilyATarget (targetFp booted) ft (frequency booted 0) booted.sr 0x3F000000 T :=
  ⟨booted_sr, familyATarget_exists _ _ _ _ _⟩

/-- Ramps of one and of 4095 samples. -/
theorem witness_FamilyARampStartsTowardTheTargets (ft : FilterType) :
    (1 : BitVec 12) ≠ 0 ∧ (4095 : BitVec 12) ≠ 0 ∧ SrValid booted ∧
    ∃ T, FamilyATarget (targetFp booted) ft (frequency booted 0) booted.sr 0x3F000000 T :=
  ⟨by decide, by decide, booted_sr, familyATarget_exists _ _ _ _ _⟩

theorem witness_FamilyBSnapTakesTheTargets (mode : PassMode) :
    SrValid booted ∧ SrInvValid booted ∧
    ∃ T, FamilyBTarget (targetFp booted) mode (frequency booted 0) booted.sr booted.srInv 0 0 T :=
  ⟨booted_sr, booted_srInv, familyBTarget_exists _ _ _ _ _ _ _⟩

theorem witness_FamilyBRampStartsTowardTheTargets (mode : PassMode) :
    (1 : BitVec 12) ≠ 0 ∧ SrValid booted ∧ SrInvValid booted ∧
    ∃ T, FamilyBTarget (targetFp booted) mode (frequency booted 0) booted.sr booted.srInv 0 0 T :=
  ⟨by decide, booted_sr, booted_srInv, familyBTarget_exists _ _ _ _ _ _ _⟩

/-- SR is 0 after reset; a valid SR beside SR_INV = 0; and both valid. -/
theorem witness_MakersRefusedOnInvalidSampleRate :
    ¬ SrValid State.reset ∧ ¬ (SrValid State.reset ∧ SrInvValid State.reset) ∧
    ¬ SrInvValid { booted with srInv := 0 } ∧ SrValid booted ∧ SrInvValid booted := by
  have h : ¬ SrValid State.reset := fun h => absurd h.2.1 (by decide +kernel)
  exact ⟨h, fun h' => h h'.1, fun h' => absurd h'.2 (by decide +kernel), booted_sr, booted_srInv⟩

theorem witness_RampedMakersRecordFirstUnwrittenC :
    (8 : BitVec 12) ≠ 0 ∧ SrValid booted ∧ SrInvValid booted ∧ (15 : BitVec 4).getLsbD (0 : Lane).val = true ∧
    booted.mem.word ⟨.C, (0 : BitVec 4).toNat, 0, 0⟩ = none ∧
    ∀ (i' : Slot) (l' : Lane), (15 : BitVec 4).getLsbD l'.val = true → (l' < 0 ∨ (l' = 0 ∧ i' < 0)) →
      (booted.mem.word ⟨.C, (0 : BitVec 4).toNat, i', l'⟩).isSome = true :=
  ⟨by decide, booted_sr, booted_srInv, by decide, by decide, fun i' l' _ h => by
    rcases h with h | ⟨-, h⟩ <;> exact absurd h (Nat.not_lt_zero _)⟩

theorem witness_EmptyMaskWritesNothing : SrValid booted ∧ SrInvValid booted := ⟨booted_sr, booted_srInv⟩

/-- Every command completes on `booted`. -/
theorem booted_completes (i : Instr) : ∃ t, exec i booted = .next t := by
  refine (exec_completes_iff i booted).mpr ?_
  have hs : srOk (arith Config.hw booted.draws scopeTargets) booted.sr = true := by decide +kernel
  have hi : srInvOk (arith Config.hw booted.draws scopeTargets) booted.srInv = true := by decide +kernel
  cases i <;> simp only [rateOk, hs, hi] <;> rfl

theorem witness_MakersChangeOnlyTheMaskedCoefficients :
    (∃ ft t, exec (mkcaInstr ft 0 0 15 0 0) booted = .next t) ∧
    ∃ mode t, exec (mkcbInstr mode 0 0 15 0 0 0) booted = .next t :=
  ⟨⟨.lp, booted_completes _⟩, ⟨.hp, booted_completes _⟩⟩

/-- The stages of a lane exist for every stage count. -/
theorem stages_exist (fp : Fp) (a1 a2 b0 b1 b2 : Word) (z : Nat → Word) (x : Word) (n : Nat) :
    ∃ out t1 t2, Stages fp a1 a2 b0 b1 b2 z x n out t1 t2 := by
  let out : Nat → Word := Nat.rec (fp.add 1 (fp.mul 0 b0 x) (z 0))
    fun k prev => fp.add (16 * (k + 1) + 1) (fp.mul (16 * (k + 1)) b0 prev) (z (2 * (k + 1)))
  refine ⟨out, fun s => fp.add (16 * s + 5) (fp.sub (16 * s + 4)
      (fp.mul (16 * s + 2) b1 (if s = 0 then x else out (s - 1))) (fp.mul (16 * s + 3) a1 (out s))) (z (2 * s + 1)),
    fun s => fp.sub (16 * s + 8) (fp.mul (16 * s + 6) b2 (if s = 0 then x else out (s - 1)))
      (fp.mul (16 * s + 7) a2 (out s)), fun s _ => ⟨?_, rfl, rfl⟩⟩
  cases s <;> rfl

theorem laneStages_exist (s : State) (b : BitVec 4) (l : Lane) (x : Word) (n : Nat) :
    ∃ out t1 t2, LaneStages s b l x n out t1 t2 := stages_exist _ _ _ _ _ _ _ _ _

theorem seeded_loads (i : Instr) (hb : i.inst = 0) : LoadsWritten i seeded := by
  intro w hw
  obtain ⟨r, b, j, l⟩ := w
  have : b = 0 := by
    cases i <;> simp only [Instr.inst] at hb <;> subst hb <;>
      simp [Instr.loads, processorLoads, makerLoads] at hw <;> first | exact hw.1 | exact hw.1.1.1
  subst this; rw [seeded_word]; rfl

/-- One stage and four. -/
theorem witness_ProcaRunsItsStages (nstg : BitVec 2) (x : Lanes) :
    ∃ out t1 t2 : Lane → Nat → Word, ∀ l, LaneStages seeded 0 l (x.at l) (nstg.toNat + 1) (out l) (t1 l) (t2 l) := by
  choose out t1 t2 h using fun l => laneStages_exist seeded 0 l (x.at l) (nstg.toNat + 1)
  exact ⟨out, t1, t2, h⟩

theorem witness_ProcaChangesOnlyItsRegistersAndC (nstg : BitVec 2) (k : SatKind) (x : Lanes) :
    ∃ t, exec (.proca nstg k 0 x) seeded = .next t := processor_completes _ _ rfl

/-- `seeded` with an infinity in the second register of lane `l`. -/
def seededInf (l : Lane) : State := { seeded with mem := seeded.mem.set ⟨.R, 0, 1, l⟩ 0x7F800000 }

/-- In the first stage: a finite register value, from an input of zeros; an infinity, from an old register; and a
NaN, from a NaN input. -/
theorem witness_ProcaRegistersStayBounded (k : SatKind) (l : Lane) :
    (∃ t out t1 t2, exec (.proca 0 k 0 ⟨0, 0, 0, 0⟩) seeded = .next t ∧
      LaneStages seeded 0 l 0 1 out t1 t2 ∧ isNaN (t1 0) = false ∧ isNaN (t2 0) = false) ∧
    (∃ t out t1 t2, exec (.proca 0 k 0 ⟨0, 0, 0, 0⟩) (seededInf l) = .next t ∧
      LaneStages (seededInf l) 0 l 0 1 out t1 t2 ∧ isInf (t1 0) = true ∧ isNaN (t1 0) = false) ∧
    (∃ t out t1 t2, exec (.proca 0 k 0 ⟨0x7FC00000, 0x7FC00000, 0x7FC00000, 0x7FC00000⟩) seeded = .next t ∧
      LaneStages seeded 0 l 0x7FC00000 1 out t1 t2 ∧ isNaN (t1 0) = true ∧ isNaN (t2 0) = true) := by
  have hg : ∀ (r : Region) (i : Slot), seeded.mem.get ⟨r, (0 : BitVec 4).toNat, i, l⟩ = 0 := fun r i =>
    get_of_word (seeded_word r i l)
  have hi : ∀ (r : Region) (i : Slot), (seededInf l).mem.get ⟨r, (0 : BitVec 4).toNat, i, l⟩ =
      if r = .R ∧ i = 1 then 0x7F800000 else 0 := fun r i => by
    refine get_of_word ((word_set _ _ _ _).trans ?_)
    rw [show (0 : BitVec 4).toNat = 0 from rfl, seeded_word]
    by_cases hr : r = .R <;> by_cases h1 : i = 1 <;> simp [hr, h1, eq_comm]
  obtain ⟨t, ht⟩ := processor_completes (.proca 0 k 0 ⟨0, 0, 0, 0⟩) seeded rfl
  obtain ⟨ti, hti⟩ := processor_completes (.proca 0 k 0 ⟨0, 0, 0, 0⟩) (seededInf l) rfl
  obtain ⟨t', ht'⟩ := processor_completes (.proca 0 k 0 ⟨0x7FC00000, 0x7FC00000, 0x7FC00000, 0x7FC00000⟩) seeded rfl
  obtain ⟨out, t1, t2, h⟩ := laneStages_exist seeded 0 l 0 1
  obtain ⟨outi, t1i, t2i, hs⟩ := laneStages_exist (seededInf l) 0 l 0 1
  obtain ⟨out', t1', t2', h'⟩ := laneStages_exist seeded 0 l 0x7FC00000 1
  have f0 : ∀ fp : Fp, fp.flush 0 = 0 := fun fp => flush_of_not_isSubnormal (by decide)
  have n0 : isNaN 0 = false := by decide
  have i0 : isInf 0 = false := by decide
  have u0 : signedUnits 0 = 0 := by decide
  have r0 : roundMag 0 (2 ^ 149) = 0 := by simp [roundMag, roundNat]
  have m0 : unitsOfMag (magOf 0) = 0 := by decide
  have hm : ∀ (fp : Fp) j, fp.mul j 0 0 = 0 := fun fp j => by
    simp only [Fp.mul, mulRead, f0, n0, i0, m0, Nat.mul_zero, r0, Bool.or_self, Bool.false_eq_true, if_false]
    exact f0 fp
  have ha : ∀ (fp : Fp) j, fp.add j 0 0 = 0 := fun fp j => by
    simp only [Fp.add, addRead, f0, n0, i0, u0, Bool.or_self, Bool.false_eq_true, if_false, add_zero, if_true]
    decide
  have hs0 : ∀ (fp : Fp) j, fp.sub j 0 0 = 0 := fun fp j => by
    simp only [Fp.sub, addRead, f0, isNaN_fneg, isInf_fneg, signedUnits_fneg, n0, i0, u0, Bool.or_self,
      Bool.false_eq_true, if_false, neg_zero, add_zero, if_true]
    decide
  refine ⟨⟨t, out, t1, t2, ht, h, ?_⟩, ⟨ti, outi, t1i, t2i, hti, hs, ?_⟩, ⟨t', out', t1', t2', ht', h', ?_⟩⟩
  · obtain ⟨ho, h1, h2⟩ := h 0 (by omega)
    simp only [if_true, hg, hm, ha] at ho h1 h2
    rw [h1, h2, ho]
    simp only [hm, hs0, ha]
    decide
  · obtain ⟨ho, h1, h2⟩ := hs 0 (by omega)
    have e1 : Fin.ofNat 8 (2 * 0) = (0 : Slot) := rfl
    have e2 : Fin.ofNat 8 (2 * 0 + 1) = (1 : Slot) := rfl
    simp only [if_true, hi, e1, e2, reduceCtorEq, false_and, and_true, and_false,
      if_false,      show ((0 : Slot) = 1) = False by simp, hm, ha] at ho h1
    rw [h1, ho, hm, hs0]
    have fi : ∀ fp : Fp, fp.flush 0x7F800000 = 0x7F800000 := fun fp => flush_of_not_isSubnormal (by decide)
    have ni : isNaN 0x7F800000 = false := by decide
    have ii : isInf 0x7F800000 = true := by decide
    simp only [Fp.add, addRead, f0, fi, n0, i0, ni, ii, Bool.or_self, Bool.false_eq_true, if_false, if_true]
    decide
  · obtain ⟨ho, h1, h2⟩ := h' 0 (by omega)
    simp only [if_true, hg] at ho h1 h2
    generalize laneFp seeded l = fp at *
    have hn : isNaN (fp.flush 0x7FC00000) = true := by rw [isNaN_flush]; decide
    have hm : ∀ j, isNaN (fp.mul j 0 0x7FC00000) = true := fun j => by
      simp only [Fp.mul, mulRead, hn, Bool.or_true, if_true, isNaN_drawNaN]
    have nanA : ∀ j a b, isNaN a = true → isNaN (fp.add j a b) = true := fun j a b ha => by
      simp [Fp.add, addRead, ha]
    have nanS : ∀ j a b, isNaN a = true → isNaN (fp.sub j a b) = true := fun j a b ha => by
      simp [Fp.sub, addRead, ha]
    rw [h1, h2]
    exact ⟨nanA _ _ _ (nanS _ _ _ (hm _)), nanS _ _ _ (hm _)⟩

theorem witness_OnePolePrimitives :
    (0x00000000 : Word) = refFp.mul 1 (refFp.sub 0 0x3F800000 0x3F800000) 0x3F000000 ∧
    (0x3F800000 : Word) = refFp.add 2 0x00000000 0x3F800000 := by decide +kernel

theorem witness_LaddersChangeOnlyThreeRegistersAndC (x : Lanes) :
    (∃ t, exec (.procblp 0 x) seeded = .next t) ∧ ∃ t, exec (.procbhp 0 x) seeded = .next t :=
  ⟨processor_completes _ _ rfl, processor_completes _ _ rfl⟩

theorem witness_ProcessorsAdvanceEveryCoefficient (x : Lanes) :
    (Instr.procbhp 0 x).isProcessor = true ∧ ∃ t, exec (.procbhp 0 x) seeded = .next t :=
  ⟨rfl, processor_completes _ _ rfl⟩

theorem witness_ProcessorsRecordUnwrittenReads :
    (Instr.proca 0 .tanh 0 ⟨0, 0, 0, 0⟩).loads ⟨.R, 0, 1, 3⟩ = true ∧ booted.mem.word ⟨.R, 0, 1, 3⟩ = none ∧
    booted.mem.word ⟨.R, (0 : BitVec 4).toNat, 0, 0⟩ = none ∧
    booted.mem.word ⟨.C, (0 : BitVec 4).toNat, 0, 0⟩ = none := by decide

/-- A command on a bank whose words are all written, and one on a bank with none written. -/
theorem witness_RunEndsOnlyAtUnwrittenReads :
    (issued (.procblp 0 ⟨0, 0, 0, 0⟩) seeded).pending = [.cmd [0x00000004, 0, 0, 0, 0]] ∧
    (issued (.procblp 0 ⟨0, 0, 0, 0⟩) booted).pending = [.cmd [0x00000004, 0, 0, 0, 0]] ∧
    decode Config.hw.nInst [0x00000004, 0, 0, 0, 0] = .ok (.procblp 0 ⟨0, 0, 0, 0⟩) ∧
    rateOk Config.hw (.procblp 0 ⟨0, 0, 0, 0⟩) seeded = true ∧
    LoadsWritten (.procblp 0 ⟨0, 0, 0, 0⟩) (issued (.procblp 0 ⟨0, 0, 0, 0⟩) seeded) ∧
    (Instr.procblp 0 ⟨0, 0, 0, 0⟩).loads ⟨.dC, 0, 7, 3⟩ = true ∧
    (issued (.procblp 0 ⟨0, 0, 0, 0⟩) booted).mem.word ⟨.dC, 0, 7, 3⟩ = none :=
  ⟨by decide, by decide, decode_bank0 _, rfl, seeded_loads _ rfl, by decide, by decide⟩

theorem witness_NonFiniteFlagAfterACommand (x : Lanes) : ∃ t, exec (.procblp 0 x) seeded = .next t :=
  processor_completes _ _ rfl

/-- `seeded` with 1.0 in every word of lane 1. -/
def lane1Ones : State :=
  { seeded with mem := seeded.mem.setAll ((initbankWords 0).filterMap fun w => if w.lane = 1 then some (w, 0x3F800000) else none) }

theorem lane1Ones_bankReady : lane1Ones.bankReady 0 := fun r i l => isSome_setAll _ (seeded_bankReady r i l)

/-- Two states and two commands that differ in lane 1 only, seen from lane 2. -/
theorem witness_LanesDoNotInterfere :
    (Instr.procblp 0 ⟨0, 0, 0, 0⟩).agreeAt 2 (.procblp 0 ⟨0, 0x3F800000, 0, 0⟩) ∧
    seeded.sr = lane1Ones.sr ∧ seeded.srInv = lane1Ones.srInv ∧ seeded.draws = lane1Ones.draws ∧
    (∀ (r : Region) (j : Slot), seeded.mem.word ⟨r, 0, j, 2⟩ = lane1Ones.mem.word ⟨r, 0, j, 2⟩) ∧
    (∃ t, exec (.procblp 0 ⟨0, 0, 0, 0⟩) seeded = .next t) ∧
    ∃ t, exec (.procblp 0 ⟨0, 0x3F800000, 0, 0⟩) lane1Ones = .next t := by
  refine ⟨⟨rfl, rfl⟩, rfl, rfl, rfl, fun r j => ?_, processor_completes _ _ rfl,
    processor_completes _ _ rfl⟩
  refine (word_setAll_notMem fun h => ?_).symm
  simp only [List.mem_map, List.mem_filterMap, Option.ite_none_right_eq_some, Option.some.injEq] at h
  obtain ⟨⟨w, v⟩, ⟨w', -, hl, e⟩, rfl⟩ := h
  cases e; exact absurd (show (2 : Lane) = 1 from hl) (by decide)

/-- Two states that differ in a word of bank 1. -/
theorem witness_BanksDoNotInterfere (x : Lanes) :
    (∀ (r : Region) (j : Slot) (l : Lane),
      seeded.mem.word ⟨r, 0, j, l⟩ =
        ({ seeded with mem := seeded.mem.set ⟨.R, 1, 0, 0⟩ 1 } : State).mem.word ⟨r, 0, j, l⟩) ∧
    ∃ t, exec (.procblp 0 x) seeded = .next t :=
  ⟨fun r j l => (word_set_other (by simp)).symm, processor_completes _ _ rfl⟩

theorem witness_SampleRateChangesOnlyByControlWrite :
    (∃ t, step { seeded with pending := [.csrWr 0x04 1] } = .next t ∧ t.sr ≠ seeded.sr) ∧
    ∃ t, step { seeded with pending := [.hwReset] } = .next t ∧ t.srInv ≠ seeded.srInv :=
  ⟨⟨_, rfl, by decide⟩, ⟨_, rfl, by decide⟩⟩

/-- NF cleared by a host write; NF set by a maker whose drive is a NaN. -/
theorem witness_NonFiniteFlagIsSticky :
    (∃ t, step { seeded with nf := true, pending := [.csrWr 0x0C 1] } = .next t ∧ t.nf = false) ∧
    ∃ t, step (issued (.mkcbLp 0 0 1 0 0 0x7FC00000) booted) = .next t ∧ t.nf = true := by
  refine ⟨⟨_, rfl, rfl⟩, ?_⟩
  have hd : decode Config.hw.nInst (encode (.mkcbLp 0 0 1 0 0 0x7FC00000)) = .ok (.mkcbLp 0 0 1 0 0 0x7FC00000) := by
    have e : encode (.mkcbLp 0 0 1 0 0 0x7FC00000) = [0x00000102, 0, 0, 0x7FC00000] := by decide
    rw [e]
    simp [decode, decodeHeader, rsvField, instField, opField, subField, maskField, rampField, hpselOf, withOperands,
      mkcbInstr, Params.nInst]
  have hs : srOk (arith Config.hw booted.draws scopeTargets) booted.sr = true := by decide +kernel
  have hi : srInvOk (arith Config.hw booted.draws scopeTargets) booted.srInv = true := by decide +kernel
  have hstep : step (issued (.mkcbLp 0 0 1 0 0 0x7FC00000) booted) =
      mkcb Config.hw .lp 0 0 1 0 0 0x7FC00000 booted := by
    have : step (issued (.mkcbLp 0 0 1 0 0 0x7FC00000) booted) =
        command Config.hw exec (encode (.mkcbLp 0 0 1 0 0 0x7FC00000)) booted := rfl
    rw [this, command, hd]; rfl
  rw [hstep, mkcb]
  simp only [hs, hi, Bool.and_self, if_true]
  refine ⟨_, rfl, ?_⟩
  simp only [complete_nf, nfAfter, Bool.or_eq_true]
  refine .inl (.inr ?_)
  simp only [anyNonFinite, List.any_eq_true, List.mem_map]
  refine ⟨_, ⟨(⟨.C, 0, 5, 0⟩, _), mem_rampSetWrites.mpr ⟨rfl, by decide, .inl ⟨rfl, rfl, rfl⟩⟩, rfl⟩, ?_⟩
  rfl

theorem witness_RegistersChangeOnlyByProcessorOrHostWrite :
    ∃ t, step { State.reset with pending := [.stWr 0x100 1] } = .next t ∧
      t.mem.word ⟨.R, 0, 0, 0⟩ ≠ State.reset.mem.word ⟨.R, 0, 0, 0⟩ := by
  refine ⟨{ State.reset with mem := Memory.set ⟨[]⟩ ⟨.R, 0, 0, 0⟩ 1 }, ?_, ?_⟩
  · simp [step, performNext, perform, stWr, decodeAddr, regionOf, Params.nInst, State.reset, State.answer]
  · decide

theorem witness_RampDeltasChangeOnlyByMakerOrHostWrite :
    ∃ t, step { State.reset with pending := [.stWr 0x080 1] } = .next t ∧
      t.mem.word ⟨.dC, 0, 0, 0⟩ ≠ State.reset.mem.word ⟨.dC, 0, 0, 0⟩ := by
  refine ⟨{ State.reset with mem := Memory.set ⟨[]⟩ ⟨.dC, 0, 0, 0⟩ 1 }, ?_, ?_⟩
  · simp [step, performNext, perform, stWr, decodeAddr, regionOf, Params.nInst, State.reset, State.answer]
  · decide

theorem witness_ReadyBankRunsAndStaysReady :
    seeded.bankReady (Instr.mkcbHp 1 0 15 0 0 0).inst.toNat ∧
    rateOk Config.hw (.mkcbHp 1 0 15 0 0 0) seeded = true ∧
    rateOk Config.hw (.mkcaLp 1 0 15 0 0) { seeded with srInv := 0 } = true ∧
    rateOk Config.hw (.procbhp 0 ⟨0, 0, 0, 0⟩) seeded = true := by
  have h : srOk (arith Config.hw seeded.draws scopeTargets) seeded.sr = true := by decide +kernel
  refine ⟨seeded_bankReady, ?_, ?_, rfl⟩
  · exact Bool.and_eq_true_iff.mpr ⟨h, by decide +kernel⟩
  · exact h

theorem witness_SnapOnAllLanesReadiesTheBank :
    SrValid seeded ∧ SrInvValid seeded ∧
    ∀ (j : Slot) (l : Lane), (seeded.mem.word ⟨.R, (0 : BitVec 4).toNat, j, l⟩).isSome = true :=
  ⟨seeded_sr, seeded_srInv, fun j l => seeded_bankReady .R j l⟩

theorem witness_ClrrSilencesTheBank :
    0 < Config.hw.nInst ∧ ∃ ins, assemble (.clrr 0) = some ins := ⟨by simp [Params.nInst], _, rfl⟩

/-- A list of two processor commands of two kinds on one bank. -/
theorem witness_RampIsTheRepeatedSum :
    ∀ j ∈ ([.procblp 0 ⟨0, 0, 0, 0⟩, .proca 3 .soft 0 ⟨0, 0, 0, 0⟩] : List Instr),
      j.isProcessor = true ∧ j.inst = 0 := by decide

/-- R232, r = NaN: a block whose tuning provider answers a NaN, on a state whose sample rate passes its check. -/
theorem witness_NaNFrequencyGivesNaNTargets (ft : FilterType) (mode : PassMode) :
    (∃ T, FamilyATarget refFp ft 0x7FC00000 0x473B8000 0 T) ∧
    (∃ T, FamilyBTarget refFp mode 0x7FC00000 0x473B8000 0x37AEC33E 0 0 T) ∧ isNaN 0x7FC00000 = true ∧
    (1 : BitVec 4) ≠ 0 ∧
    isNaN ((arith (refParams 3 (fun _ => 0x7FC00000) 0x447A0000) booted.draws 0).mul 0 0x447A0000 0x7FC00000) = true ∧
    rateOk (refParams 3 (fun _ => 0x7FC00000) 0x447A0000) (mkcaInstr ft 0 0 1 0 0) booted = true ∧
    rateOk (refParams 3 (fun _ => 0x7FC00000) 0x447A0000) (mkcbInstr mode 0 0 1 0 0 0) booted = true := by
  refine ⟨familyATarget_exists _ _ _ _ _, familyBTarget_exists _ _ _ _ _ _ _, by decide, by decide, by decide +kernel,
    ?_, ?_⟩
  · have : srOk (arith (refParams 3 (fun _ => 0x7FC00000) 0x447A0000) booted.draws scopeTargets) booted.sr = true := by
      decide +kernel
    cases ft <;> exact this
  · have h1 : srOk (arith (refParams 3 (fun _ => 0x7FC00000) 0x447A0000) booted.draws scopeTargets) booted.sr = true := by
      decide +kernel
    have h2 : srInvOk (arith (refParams 3 (fun _ => 0x7FC00000) 0x447A0000) booted.draws scopeTargets) booted.srInv =
        true := by decide +kernel
    cases mode <;> exact Bool.and_eq_true_iff.mpr ⟨h1, h2⟩

/-- 1.0 and 3.0, with finite results of each operation, and a divisor that is not zero; and infinite results. -/
theorem witness_OperationsRoundToNearest :
    refFp.ftz = false ∧ isFinite 0x3F800000 = true ∧ isFinite 0x40400000 = true ∧
    isFinite (refFp.add 0 0x3F800000 0x40400000) = true ∧ isFinite (refFp.sub 0 0x3F800000 0x40400000) = true ∧
    isFinite (refFp.mul 0 0x3F800000 0x40400000) = true ∧ isFinite (refFp.div 0 0x3F800000 0x40400000) = true ∧
    signedUnits 0x40400000 ≠ 0 ∧ isFinite 0x7F7FFFFF = true ∧ isFinite 0x00000001 = true ∧
    isFinite (refFp.add 0 0x7F7FFFFF 0x7F7FFFFF) = false ∧ isFinite (refFp.div 0 0x7F7FFFFF 0x00000001) = false := by
  decide +kernel

/-- A tie: 2^24 + 1 units lie midway between two words, in `roundMag` and as a product. And the two sides of the
overflow, in `roundMag` and in a sum: the largest finite value plus 2^103 is the midpoint, plus a little less is below. -/
theorem witness_TiesGoToEvenAndOverflowToInfinity :
    (0x01000001 < 0x7F800000 ∧ roundMag (2 ^ 24 + 1) 1 < 0x7F800000 ∧ 0x01000001 ≠ roundMag (2 ^ 24 + 1) 1 ∧
      |(unitsOfMag 0x01000001 * 1 : Int) - (2 ^ 24 + 1)| =
        |(unitsOfMag (roundMag (2 ^ 24 + 1) 1) * 1 : Int) - (2 ^ 24 + 1)|) ∧
    roundMag (2 ^ 277 - 2 ^ 252) 1 = 0x7F800000 ∧ roundMag (2 ^ 277 - 2 ^ 252 - 1) 1 = 0x7F7FFFFF ∧
    (refFp.ftz = false ∧ overflowUnits ≤ |signedUnits 0x7F7FFFFF + signedUnits 0x73000000| ∧
      |signedUnits 0x7F7FFFFF + signedUnits 0x72FFFFFF| < overflowUnits ∧
      refFp.add 0 0x7F7FFFFF 0x72FFFFFF = 0x7F7FFFFF) ∧
    (isFinite (refFp.mul 0 0x00000003 0x3F000000) = true ∧ isFinite 0x00000001 = true ∧
      signedUnits 0x00000001 ≠ signedUnits (refFp.mul 0 0x00000003 0x3F000000) ∧
      |signedUnits (refFp.mul 0 0x00000003 0x3F000000) * 2 ^ 149 - signedUnits 0x00000003 * signedUnits 0x3F000000| =
        |signedUnits 0x00000001 * 2 ^ 149 - signedUnits 0x00000003 * signedUnits 0x3F000000|) := by
  decide +kernel

theorem witness_SpecialOperands :
    isNaN 0x7F800001 = true ∧ isNaN 0xFFFFFFFF = true ∧ isInf 0x7F800000 = true ∧ isInf 0xFF800000 = true ∧
    isZero 0x00000000 = true ∧ isZero 0x80000000 = true ∧
    signOf 0x7F800000 ≠ signOf 0xFF800000 ∧
    (isFinite 0x7F7FFFFF = true ∧ isZero (refFp.flush 0x7F7FFFFF) = false ∧ isNaN 0x7F7FFFFF = false) ∧
    (isFinite 0x00000001 = true ∧ isZero (refFp.flush 0x00000001) = false) ∧
    isZero (refFp.flush 0x80000000) = true ∧ isZero ((Fp.mk true fun _ => 0).flush 0x007FFFFF) = true := by
  decide +kernel

theorem witness_DenormModes :
    (Fp.mk true fun _ => 0).ftz = true ∧ isSubnormal 0x00000001 = true ∧ isSubnormal 0x807FFFFF = true ∧
    isSubnormal 0x00800000 = false ∧
    refFp.ftz = false := by decide

theorem witness_ComparisonsAreIeeeOrdered :
    refFp.ftz = false ∧ isNaN 0x7FC00000 = true ∧ isZero 0x80000000 = true ∧ isFinite 0x7F7FFFFF = true ∧
    isFinite 0x00000001 = true ∧ isInf 0xFF800000 = true := by decide

/-- The clauses of CLAMP on the range from 0.0 to 1.0. -/
theorem witness_ClampCases :
    isFinite 0x00000000 = true ∧ isFinite 0x3F800000 = true ∧ refFp.lt 0x3F800000 0x00000000 = false ∧
    refFp.lt 0xC0000000 0x00000000 = true ∧ refFp.lt 0x3F800000 0x40000000 = true ∧
    (refFp.lt 0x3F800000 0x00000000 = false ∧ refFp.lt 0x3F800000 0x3F800000 = false) ∧ isNaN 0x7FC00000 = true ∧
    (refFp.ge 0x80000000 0x00000000 = true ∧ refFp.ge 0x3F800000 0x80000000 = true) := by decide

theorem witness_FloatOfSmallNaturalsIsExact : 0 < 2 ^ 24 ∧ 4095 < 2 ^ 24 ∧ 2 ^ 24 - 1 < 2 ^ 24 := by decide

theorem witness_SatTanhIsBounded :
    isNaN 0xFF7FFFFF = false ∧ isNaN 0xFF800000 = false ∧ isNaN 0x7FC00000 = true := by decide

/-- The ends of the argument ranges. -/
theorem witness_ConfiguredFunctionsConform :
    isNaN 0x7F7FFFFF = false ∧ isNaN 0x7F800000 = false ∧ isNaN 0x7FC00000 = true ∧
    (0 < orderKey 0x00000001 ∧ orderKey 0x3FF1463C ≤ orderKey 0x3FF1463C) ∧
    (0 < orderKey 0x3F7147AE ∧ orderKey 0x3F7147AE ≤ orderKey 0x3F7147AE) := by decide

/-- SR = 48000.0 with a finite answer, and with a NaN. -/
theorem witness_FrequencyStaysInItsRange :
    isFinite 0x473B8000 = true ∧ refFp.lt 0x00000000 0x473B8000 = true ∧
    refFp.ge (refFp.mul 0 0x3E99999A 0x473B8000) 0x40A00000 = true ∧
    isNaN (refFp.mul 0 0x447A0000 0x3F800000) = false ∧ isNaN (refFp.mul 0 0x447A0000 0x7FC00000) = true := by
  decide +kernel

end Sys2Proof.Tests
end

section
/-! The frame of a command and of a step: which words, registers and flags each may change; and from it the
whole-machine rules of 10_state.md. -/

namespace Sys2Proof.Machine
open Sys2Proof.Stated

/-! ### The frame of a command -/

theorem bytesUnchangedOutside_mono {p q : WordRef → Prop} {s t : State} (h : BytesUnchangedOutside p s t)
    (hpq : ∀ w, p w → q w) : BytesUnchangedOutside q s t :=
  fun a ha => h a fun w hw => ha w (hpq w hw)

/-- A command changes no byte outside its `stores`, no control register and no input still to come, and asks the
tuning provider its pitch operand or nothing (20_memory.md R82, 10_state.md R43). -/
theorem exec_frame {i : Instr} {s t : State} (h : exec i s = .next t) :
    BytesUnchangedOutside (fun w => i.stores w = true) s t ∧ ControlUnchanged s t ∧ t.query = i.pitch? := by
  obtain ⟨reads, ws, ys, rfl, -, hw, -⟩ := exec_next h
  exact ⟨fun a ha => byte_setAll_outside fun w hmem => ha w ((hw w).mp hmem), ⟨rfl, rfl, rfl⟩, rfl⟩

/-- A command leaves a word it does not store. -/
theorem exec_word_of_not_stores {i : Instr} {s t : State} {w : WordRef} (h : exec i s = .next t)
    (hw : i.stores w ≠ true) : t.mem.word w = s.mem.word w := by
  obtain ⟨reads, ws, ys, rfl, -, hkeys, -⟩ := exec_next h
  exact word_setAll_notMem fun hmem => hw ((hkeys w).mp hmem)

/-- No command clears NF (10_state.md R44). -/
theorem exec_nf_sticky {i : Instr} {s t : State} (h : exec i s = .next t) (hs : s.nf = true) : t.nf = true := by
  obtain ⟨reads, ws, ys, rfl, -⟩ := exec_next h
  simp [nfAfter, hs]

/-- Every word a command stores is of its bank; a maker stores no register, a processor no ramp delta (20_memory.md
R82). -/
theorem stores_cases {i : Instr} {w : WordRef} (h : i.stores w = true) :
    w.bank = i.inst.toNat ∧ (i.isProcessor = true → w.region ≠ .dC) ∧ (i.isProcessor = false → w.region ≠ .R) := by
  have maker : ∀ {n b m}, makerStores n b m w = true → w.bank = b.toNat ∧ w.region ≠ .R := by
    intro n b m hm
    simp only [makerStores, Bool.and_eq_true, Bool.or_eq_true, decide_eq_true_eq] at hm
    obtain ⟨⟨hb, -⟩, hr⟩ := hm
    exact ⟨hb, by rcases hr with hr | ⟨hr, -⟩ <;> simp [hr]⟩
  have processor : ∀ {k b}, processorStores k b w = true → w.bank = b.toNat ∧ w.region ≠ .dC := by
    intro k b hp
    simp only [processorStores, Bool.and_eq_true, Bool.or_eq_true, decide_eq_true_eq] at hp
    obtain ⟨hb, hr⟩ := hp
    exact ⟨hb, by rcases hr with hr | ⟨hr, -⟩ <;> simp [hr]⟩
  cases i
  case proca | procblp | procbhp => exact ⟨(processor h).1, fun _ => (processor h).2, nofun⟩
  all_goals exact ⟨(maker h).1, nofun, fun _ => (maker h).2⟩

/-! ### The frame of a step -/

/-- A step that changes a state word is a command that stores it, a host write to its address, or the reset event. -/
theorem step_word_ne {s t : State} {w : WordRef} (h : step s = .next t) (hne : t.mem.word w ≠ s.mem.word w) :
    (∃ ws rest i, s.pending = .cmd ws :: rest ∧ decode Config.hw.nInst ws = .ok i ∧ i.stores w = true) ∨
    (∃ a v rest, s.pending = .stWr a v :: rest ∧ w.addr = a.toNat) ∨
    ∃ rest, s.pending = .hwReset :: rest := by
  obtain ⟨-, rfl⟩ | ⟨x, rest, hp, hx⟩ := step_next h
  · exact absurd rfl hne
  obtain ⟨a, u, rfl, -, rfl⟩ | ⟨a, v, u, rfl, -, ha, rfl⟩ | ⟨o, v, rfl, -, rfl⟩ | ⟨o, v, rfl, rfl⟩ |
    ⟨ws, i, rfl, hd, he⟩ | ⟨rfl, -⟩ := hx
  · exact absurd rfl hne
  · have hu : u = w := by
      by_contra hu
      exact hne (word_set_other hu)
    exact .inr (.inl ⟨a, v, rest, hp, hu ▸ ha⟩)
  · exact absurd rfl hne
  · exact absurd (by simp) hne
  · refine .inl ⟨ws, rest, i, hp, hd, ?_⟩
    by_contra hw
    exact hne (exec_word_of_not_stores (s := { s with pending := rest }) he hw)
  · exact .inr (.inr ⟨rest, hp⟩)

/-- A step that changes SR, SR_INV or NF is a write to that register, a command, which leaves SR and SR_INV and does
not clear NF, or the reset event. -/
theorem step_control {s t : State} (h : step s = .next t) :
    (t.sr = s.sr ∧ t.srInv = s.srInv ∧ t.nf = s.nf) ∨
    (∃ o v rest, s.pending = .csrWr o v :: rest ∧ t.sr = (if o = 0x04 then v else s.sr) ∧
      t.srInv = (if o = 0x08 then v else s.srInv) ∧ t.nf = if o = 0x0C then s.nf && !v.getLsbD 0 else s.nf) ∨
    (∃ ws rest, s.pending = .cmd ws :: rest ∧ t.sr = s.sr ∧ t.srInv = s.srInv ∧ (s.nf = true → t.nf = true)) ∨
    ∃ rest, s.pending = .hwReset :: rest ∧ t.nf = false := by
  obtain ⟨-, rfl⟩ | ⟨x, rest, hp, hx⟩ := step_next h
  · exact .inl ⟨rfl, rfl, rfl⟩
  obtain ⟨a, u, rfl, -, rfl⟩ | ⟨a, v, u, rfl, -, -, rfl⟩ | ⟨o, v, rfl, -, rfl⟩ | ⟨o, v, rfl, rfl⟩ |
    ⟨ws, i, rfl, -, he⟩ | ⟨rfl, rfl⟩ := hx
  · exact .inl ⟨rfl, rfl, rfl⟩
  · exact .inl ⟨rfl, rfl, rfl⟩
  · exact .inl ⟨rfl, rfl, rfl⟩
  · exact .inr (.inl ⟨o, v, rest, hp, csrWrite_sr _ _ _, csrWrite_srInv _ _ _, csrWrite_nf _ _ _⟩)
  · obtain ⟨-, ⟨hsr, hinv, -⟩, -⟩ := exec_frame he
    exact .inr (.inr (.inl ⟨ws, rest, hp, hsr, hinv, exec_nf_sticky (s := { s with pending := rest }) he⟩))
  · exact .inr (.inr (.inr ⟨rest, hp, rfl⟩))

/-! ### Reset -/

/-- CFG is its constant with N_INST - 1 in bits 23:20 (10_state.md R42). -/
theorem cfgWord_eq (p : Params) : cfgWord p = BitVec.ofNat 32 (0x00043885 + ((p.nInst - 1) <<< 20)) := by
  have h : ∀ n : BitVec 4, 0#8 ++ n ++ 4#4 ++ 3#4 ++ 8#4 ++ 8#4 ++ 5#4 =
      BitVec.ofNat 32 (0x00043885 + (n.toNat <<< 20)) := by decide
  exact h p.nInstM1

theorem reset_word (w : WordRef) : State.reset.mem.word w = none := rfl

end Sys2Proof.Machine

namespace Sys2Proof.Proofs
open Sys2Proof.Machine Sys2Proof.Stated

/-- Settles O35: the frame of every command, at the words a ladder stores. -/
theorem laddersChangeOnlyThreeRegistersAndC : Obligations.LaddersChangeOnlyThreeRegistersAndC := by
  rintro b x s t (h | h)
  all_goals
    obtain ⟨hbytes, hcontrol, hquery⟩ := exec_frame h
    exact ⟨bytesUnchangedOutside_mono hbytes fun w hw => by simpa [Instr.stores, processorStores] using hw,
      hcontrol, hquery⟩

/-- Settles O42, by what a step can do to the control registers. -/
theorem sampleRateChangesOnlyByControlWrite : Obligations.SampleRateChangesOnlyByControlWrite := by
  intro s t h
  obtain ⟨hsr, hinv, -⟩ | ⟨o, v, rest, hp, hsr, hinv, -⟩ | ⟨ws, rest, -, hsr, hinv, -⟩ | ⟨rest, hp, -⟩ :=
    step_control h
  · exact ⟨fun hne => absurd hsr hne, fun hne => absurd hinv hne⟩
  · constructor <;> intro hne <;> left
    · split_ifs at hsr with ho
      · exact ⟨v, rest, ho ▸ hp, hsr⟩
      · exact absurd hsr hne
    · split_ifs at hinv with ho
      · exact ⟨v, rest, ho ▸ hp, hinv⟩
      · exact absurd hinv hne
  · exact ⟨fun hne => absurd hsr hne, fun hne => absurd hinv hne⟩
  · exact ⟨fun _ => .inr ⟨rest, hp⟩, fun _ => .inr ⟨rest, hp⟩⟩

/-- Settles O43: a command's NF is sticky, and of the host accesses only CSR_WR touches it. -/
theorem nonFiniteFlagIsSticky : Obligations.NonFiniteFlagIsSticky := by
  intro s t h
  obtain ⟨-, -, hnf⟩ | ⟨o, v, rest, hp, -, -, hnf⟩ | ⟨ws, rest, hp, -, -, hsticky⟩ | ⟨rest, hp, hnf⟩ := step_control h
  · exact ⟨fun hs ht => by simp [hnf, hs] at ht, fun hs ht => by simp [hnf, hs] at ht⟩
  · split_ifs at hnf with ho
    · exact ⟨fun hs ht => .inl ⟨v, rest, ho ▸ hp, by simpa [hs, ht] using hnf⟩, fun hs ht => by simp [hnf, hs] at ht⟩
    · exact ⟨fun hs ht => by simp [hnf, hs] at ht, fun hs ht => by simp [hnf, hs] at ht⟩
  · exact ⟨fun hs ht => by simp [hsticky hs] at ht, fun _ _ => ⟨ws, rest, hp⟩⟩
  · exact ⟨fun _ _ => .inr ⟨rest, hp⟩, fun _ ht => by simp [hnf] at ht⟩

/-- Settles O44: a maker stores no register. -/
theorem registersChangeOnlyByProcessorOrHostWrite : Obligations.RegistersChangeOnlyByProcessorOrHostWrite := by
  intro s t b j l h hne
  refine (step_word_ne h hne).imp_left ?_
  rintro ⟨ws, rest, i, hp, hd, hw⟩
  obtain ⟨hb, -, hmaker⟩ := stores_cases hw
  exact ⟨ws, rest, i, hp, hd, by simpa using mt hmaker, hb.symm⟩

/-- Settles O45: a processor stores no ramp delta. -/
theorem rampDeltasChangeOnlyByMakerOrHostWrite : Obligations.RampDeltasChangeOnlyByMakerOrHostWrite := by
  intro s t b j l h hne
  refine (step_word_ne h hne).imp_left ?_
  rintro ⟨ws, rest, i, hp, hd, hw⟩
  obtain ⟨hb, hprocessor, -⟩ := stores_cases hw
  exact ⟨ws, rest, i, hp, hd, by simpa using mt hprocessor, hb.symm⟩

/-- Settles O12: nothing is written at reset, and CFG is hard-wired. -/
theorem resetValues : Obligations.ResetValues := by
  refine ⟨reset_word, rfl, rfl, rfl, ?_, rfl⟩
  rw [← cfgWord_eq]
  rfl

/-- Settles O19: nothing is written at reset. -/
theorem resetMeetsTheStateSpaceInvariant : Obligations.ResetMeetsTheStateSpaceInvariant := by
  have hbyte : ∀ a, State.reset.mem.byte a = none := fun _ => rfl
  exact ⟨reset_mem_wf, by simp [hbyte], by simp [hbyte]⟩

end Sys2Proof.Proofs
end

section
/-! Lane and bank independence (10_state.md R38, R39): each part of a command's effect in lane `l` of its bank is a
function of that lane's words, so runs from states that agree there agree there again. -/

namespace Sys2Proof.Machine

/-- Two memories hold the same words in lane `l` of bank `b`, written or not. -/
def LaneAgrees (m m' : Memory) (b : Nat) (l : Lane) : Prop :=
  ∀ (r : Region) (j : Slot), m.word ⟨r, b, j, l⟩ = m'.word ⟨r, b, j, l⟩

/-! ### What a command computes in one lane -/

section Lane
variable {m m' : Memory} {b : Nat} {l : Lane} (h : LaneAgrees m m' b l)
include h

theorem LaneAgrees.get_eq (r : Region) (j : Slot) : m.get ⟨r, b, j, l⟩ = m'.get ⟨r, b, j, l⟩ := by
  simp only [Memory.get, h r j]

theorem LaneAgrees.coeffsA_eq : coeffsA m b l = coeffsA m' b l := by
  simp only [coeffsA, h.get_eq]

theorem LaneAgrees.coeffsB_eq : coeffsB m b l = coeffsB m' b l := by
  simp only [coeffsB, h.get_eq]

theorem LaneAgrees.rampSetWord_eq (fp : Fp) (t : Word) (n : BitVec 12) (i : Slot) :
    rampSetWord fp m b t n i l = rampSetWord fp m' b t n i l := by
  simp only [rampSetWord, h.get_eq]

theorem LaneAgrees.rampStepWord_eq (p : Params) (draws : Nat) (i : Slot) :
    rampStepWord p draws m b i l = rampStepWord p draws m' b i l := by
  simp only [rampStepWord, h.get_eq]

theorem LaneAgrees.procaLane_eq (p : Params) (draws n : Nat) (satk : SatKind) {x x' : Lanes} (hx : x.at l = x'.at l) :
    procaLane p draws m n satk b x l = procaLane p draws m' n satk b x' l := by
  simp only [procaLane, procaRegs, h.coeffsA_eq, h.get_eq, hx]

theorem LaneAgrees.procaLaneWrites_eq (p : Params) (draws n : Nat) (satk : SatKind) {x x' : Lanes}
    (hx : x.at l = x'.at l) :
    procaLaneWrites p draws m n satk b x l = procaLaneWrites p draws m' n satk b x' l := by
  simp only [procaLaneWrites, h.procaLane_eq p draws n satk hx]

theorem LaneAgrees.procbLane_eq (p : Params) (draws : Nat) (mode : PassMode) {x x' : Lanes} (hx : x.at l = x'.at l) :
    procbLane p draws mode m b x l = procbLane p draws mode m' b x' l := by
  simp only [procbLane, h.coeffsB_eq, h.get_eq, hx]

end Lane

/-! ### What a command leaves in one lane -/

/-- One word after two lists of writes that write it alike, each holding what it writes. -/
theorem word_setAll_congr {m m' : Memory} {ws ws' : List (WordRef × Word)} {w : WordRef} (hm : m.word w = m'.word w)
    (hws : ∀ v, (w, v) ∈ ws → (m.setAll ws).word w = some v)
    (hws' : ∀ v, (w, v) ∈ ws' → (m'.setAll ws').word w = some v)
    (hmem : ∀ v, (w, v) ∈ ws ↔ (w, v) ∈ ws') : (m.setAll ws).word w = (m'.setAll ws').word w := by
  by_cases hw : ∃ v, (w, v) ∈ ws
  · obtain ⟨v, hv⟩ := hw
    rw [hws v hv, hws' v ((hmem v).mp hv)]
  · have hkeys : w ∉ ws.map Prod.fst := by simpa using hw
    have hkeys' : w ∉ ws'.map Prod.fst := by simpa [← hmem] using hw
    rw [word_setAll_notMem hkeys, word_setAll_notMem hkeys', hm]

/-- A word RAMP_STEP writes holds what it writes. -/
theorem word_rampStepWrites {p : Params} {draws : Nat} {m : Memory} {b : Nat} {w : WordRef} {v : Word}
    (h : (w, v) ∈ rampStepWrites p draws m b) : (m.setAll (rampStepWrites p draws m b)).word w = some v := by
  refine word_setAll_of_unique h fun v' h' => ?_
  obtain ⟨-, -, rfl⟩ := mem_rampStepWrites.mp h
  obtain ⟨-, -, rfl⟩ := mem_rampStepWrites.mp h'
  rfl

theorem mem_procaWrites {p : Params} {draws : Nat} {m : Memory} {n : Nat} {satk : SatKind} {b : Nat} {x : Lanes}
    {w : WordRef} {v : Word} :
    (w, v) ∈ procaWrites p draws m n satk b x ↔
      (w, v) ∈ procaLaneWrites p draws m n satk b x w.lane ∨ (w, v) ∈ rampStepWrites p draws m b := by
  simp only [procaWrites, List.mem_append, List.mem_flatMap, mem_allLanes, true_and]
  refine or_congr_left ⟨fun ⟨l, hl⟩ => ?_, fun hl => ⟨w.lane, hl⟩⟩
  obtain ⟨-, -, rfl, -⟩ := mem_procaLaneWrites.mp hl
  exact hl

/-- What lane `l` of a Family B processor gives, on the coefficients RAMP_STEP leaves in `m`. -/
def procbStepped (p : Params) (draws : Nat) (mode : PassMode) (m : Memory) (b : Nat) (x : Lanes) (l : Lane) :
    LadderOut :=
  procbLane p draws mode (m.setAll (rampStepWrites p draws m b)) b x l

/-- What a Family B processor writes. -/
def procbWrites (p : Params) (draws : Nat) (mode : PassMode) (m : Memory) (b : Nat) (x : Lanes) :
    List (WordRef × Word) :=
  rampStepWrites p draws m b ++ allLanes.flatMap fun l => procbLaneWrites b l (procbStepped p draws mode m b x l)

theorem procb_eq (p : Params) (mode : PassMode) (inst : BitVec 4) (x : Lanes) (s : State) :
    procb p mode inst x s = .next (s.complete (procbReads (bankOf inst))
      (procbWrites p s.draws mode s.mem (bankOf inst) x)
      (Lanes.ofFn fun l => (procbStepped p s.draws mode s.mem (bankOf inst) x l).y).toList none) := rfl

section LaneWrites
variable {m m' : Memory} {b : Nat} {l : Lane} (h : LaneAgrees m m' b l)
include h

theorem LaneAgrees.setAll_rampSetWrites (p : Params) (draws : Nat) (mask : BitVec 4) (t : Slot → Word)
    (n : BitVec 12) :
    LaneAgrees (m.setAll (rampSetWrites p draws m b mask t n)) (m'.setAll (rampSetWrites p draws m' b mask t n)) b l :=
  fun r j => word_setAll_congr (h r j) (fun _ => word_rampSetWrites) (fun _ => word_rampSetWrites) fun v => by
    simp only [mem_rampSetWrites, h.get_eq]

theorem LaneAgrees.setAll_rampStepWrites (p : Params) (draws : Nat) :
    LaneAgrees (m.setAll (rampStepWrites p draws m b)) (m'.setAll (rampStepWrites p draws m' b)) b l :=
  fun r j => word_setAll_congr (h r j) (fun _ => word_rampStepWrites) (fun _ => word_rampStepWrites) fun v => by
    simp only [mem_rampStepWrites, h.rampStepWord_eq]

theorem LaneAgrees.setAll_procaWrites (p : Params) (draws : Nat) {n : Nat} (hn : n ≤ 4) (satk : SatKind)
    {x x' : Lanes} (hx : x.at l = x'.at l) :
    LaneAgrees (m.setAll (procaWrites p draws m n satk b x)) (m'.setAll (procaWrites p draws m' n satk b x')) b l :=
  fun r j => word_setAll_congr (h r j) (fun _ => word_procaWrites hn) (fun _ => word_procaWrites hn) fun v => by
    simp only [mem_procaWrites, mem_rampStepWrites, h.procaLaneWrites_eq p draws n satk hx, h.rampStepWord_eq]

theorem LaneAgrees.procbStepped_eq (p : Params) (draws : Nat) (mode : PassMode) {x x' : Lanes}
    (hx : x.at l = x'.at l) : procbStepped p draws mode m b x l = procbStepped p draws mode m' b x' l :=
  (h.setAll_rampStepWrites p draws).procbLane_eq p draws mode hx

theorem LaneAgrees.setAll_procbWrites (p : Params) (draws : Nat) (mode : PassMode) {x x' : Lanes}
    (hx : x.at l = x'.at l) :
    LaneAgrees (m.setAll (procbWrites p draws mode m b x)) (m'.setAll (procbWrites p draws mode m' b x')) b l :=
  fun r j => word_setAll_congr (h r j) (fun _ => word_procbWrites) (fun _ => word_procbWrites) fun v => by
    simp only [procbWrites, mem_procbWrites, h.procbStepped_eq p draws mode hx, h.rampStepWord_eq]

end LaneWrites

/-! ### A maker's targets -/

/-- The states a maker computes the same targets and makes the same check in. -/
def SameRates (s s' : State) : Prop := s.sr = s'.sr ∧ s.srInv = s'.srInv ∧ s.draws = s'.draws

theorem mkca_next {p : Params} {ft : FilterType} {n : BitVec 12} {b mask : BitVec 4} {pitch reso : Word}
    {s t : State} (h : mkca p ft n b mask pitch reso s = .next t) :
    ∃ T, ∀ s', SameRates s s' → mkca p ft n b mask pitch reso s' = maker p T n b mask pitch s' := by
  simp only [mkca] at h
  split_ifs at h with hs
  refine ⟨(targetsA p (arith p s.draws scopeTargets) ft
    (fmap (arith p s.draws scopeTargets) p.refFreq (tune p pitch) s.sr) s.sr reso).slot, fun s' ⟨hsr, _, hdraws⟩ => ?_⟩
  rw [mkca, ← hsr, ← hdraws, if_pos hs]

theorem mkcb_next {p : Params} {mode : PassMode} {n : BitVec 12} {b mask : BitVec 4} {pitch reso drive : Word}
    {s t : State} (h : mkcb p mode n b mask pitch reso drive s = .next t) :
    ∃ T, ∀ s', SameRates s s' → mkcb p mode n b mask pitch reso drive s' = maker p T n b mask pitch s' := by
  simp only [mkcb] at h
  split_ifs at h with hs
  refine ⟨(targetsB p (arith p s.draws scopeTargets) mode
    (fmap (arith p s.draws scopeTargets) p.refFreq (tune p pitch) s.sr) s.sr s.srInv reso drive).slot,
    fun s' ⟨hsr, hinv, hdraws⟩ => ?_⟩
  rw [mkcb, ← hsr, ← hinv, ← hdraws, if_pos hs]

/-- A maker that completes is RAMP_SET toward one target vector in every state of the same rates. -/
theorem exec_maker {i : Instr} {s t : State} (hi : i.isProcessor = false) (h : exec i s = .next t) :
    ∃ T n mask pitch, ∀ s', SameRates s s' → exec i s' = maker Config.hw T n i.inst mask pitch s' := by
  cases i
  case proca | procblp | procbhp => cases hi
  case mkcbLp n b mask pitch reso drive | mkcbHp n b mask pitch reso drive =>
    all_goals
      obtain ⟨T, hT⟩ := mkcb_next h
      exact ⟨T, n, mask, pitch, hT⟩
  all_goals
    rename_i n b mask pitch reso
    obtain ⟨T, hT⟩ := mkca_next h
    exact ⟨T, n, mask, pitch, hT⟩

/-! ### Lane independence -/

theorem lanes_toList_getElem? (y : Lanes) (l : Lane) : y.toList[l.val]? = some (y.at l) := by
  fin_cases l <;> rfl

/-- Two states hold the same words in lane `l` of bank `b` and return the same result for it. -/
def LaneResultAgrees (t t' : State) (b : Nat) (l : Lane) : Prop :=
  LaneAgrees t.mem t'.mem b l ∧ t.results[l.val]? = t'.results[l.val]?

section LaneResult
variable {p : Params} {s s' t t' : State} {inst : BitVec 4} {l : Lane}
  (h : LaneAgrees s.mem s'.mem (bankOf inst) l) (hdraws : s.draws = s'.draws)
include h hdraws

theorem maker_lane_congr {T : Slot → Word} {n : BitVec 12} {mask : BitVec 4} {pitch : Word}
    (ht : maker p T n inst mask pitch s = .next t) (ht' : maker p T n inst mask pitch s' = .next t') :
    LaneResultAgrees t t' (bankOf inst) l := by
  cases ht
  cases ht'
  simp only [LaneResultAgrees, complete_mem, complete_results, ← hdraws, and_true]
  exact h.setAll_rampSetWrites p s.draws mask T n

theorem proca_lane_congr {nstg : BitVec 2} {satk : SatKind} {x x' : Lanes} (hx : x.at l = x'.at l)
    (ht : proca p nstg satk inst x s = .next t) (ht' : proca p nstg satk inst x' s' = .next t') :
    LaneResultAgrees t t' (bankOf inst) l := by
  have hn : stageCount nstg ≤ 4 := by have := stageCount_cases nstg; omega
  cases ht
  cases ht'
  simp only [LaneResultAgrees, complete_mem, complete_results, ← hdraws, lanes_toList_getElem?, lanes_ofFn_at]
  exact ⟨h.setAll_procaWrites p s.draws hn satk hx, by rw [h.procaLane_eq p s.draws _ satk hx]⟩

theorem procb_lane_congr {mode : PassMode} {x x' : Lanes} (hx : x.at l = x'.at l)
    (ht : procb p mode inst x s = .next t) (ht' : procb p mode inst x' s' = .next t') :
    LaneResultAgrees t t' (bankOf inst) l := by
  rw [procb_eq] at ht ht'
  obtain rfl := Host.Outcome.next.inj ht
  obtain rfl := Host.Outcome.next.inj ht'
  simp only [LaneResultAgrees, complete_mem, complete_results, ← hdraws, lanes_toList_getElem?, lanes_ofFn_at]
  exact ⟨h.setAll_procbWrites p s.draws mode hx, by rw [h.procbStepped_eq p s.draws mode hx]⟩

end LaneResult

/-- The commands that differ at most in other lanes' inputs: one maker, or one processor with two input vectors. -/
theorem agreeAt_cases {l : Lane} {i i' : Instr} (h : i.agreeAt l i') :
    (i.isProcessor = false ∧ i = i') ∨
    (∃ nstg k b x x', i = .proca nstg k b x ∧ i' = .proca nstg k b x' ∧ x.at l = x'.at l) ∨
    (∃ b x x', i = .procblp b x ∧ i' = .procblp b x' ∧ x.at l = x'.at l) ∨
    ∃ b x x', i = .procbhp b x ∧ i' = .procbhp b x' ∧ x.at l = x'.at l := by
  cases i
  case proca nstg k b x =>
    cases i'
    case proca nstg' k' b' x' =>
      obtain ⟨rfl, rfl, rfl, hx⟩ := h
      exact .inr (.inl ⟨_, _, _, _, _, rfl, rfl, hx⟩)
    all_goals cases h
  case procblp b x =>
    cases i'
    case procblp b' x' =>
      obtain ⟨rfl, hx⟩ := h
      exact .inr (.inr (.inl ⟨_, _, _, rfl, rfl, hx⟩))
    all_goals cases h
  case procbhp b x =>
    cases i'
    case procbhp b' x' =>
      obtain ⟨rfl, hx⟩ := h
      exact .inr (.inr (.inr ⟨_, _, _, rfl, rfl, hx⟩))
    all_goals cases h
  all_goals exact .inl ⟨rfl, h⟩

/-! ### Bank independence -/

/-- Two memories hold the same words in bank `b`. -/
def BankAgrees (m m' : Memory) (b : Nat) : Prop := ∀ l, LaneAgrees m m' b l

section Bank
variable {m m' : Memory} {b : Nat} (h : BankAgrees m m' b)
include h

theorem BankAgrees.rampSetWrites_eq (p : Params) (draws : Nat) (mask : BitVec 4) (t : Slot → Word) (n : BitVec 12) :
    rampSetWrites p draws m b mask t n = rampSetWrites p draws m' b mask t n := by
  simp only [rampSetWrites, (h _).rampSetWord_eq]

theorem BankAgrees.rampStepWrites_eq (p : Params) (draws : Nat) :
    rampStepWrites p draws m b = rampStepWrites p draws m' b := by
  simp only [rampStepWrites, (h _).rampStepWord_eq]

theorem BankAgrees.procaLane_eq (p : Params) (draws n : Nat) (satk : SatKind) (x : Lanes) :
    procaLane p draws m n satk b x = procaLane p draws m' n satk b x :=
  funext fun l => (h l).procaLane_eq p draws n satk rfl

theorem BankAgrees.procaWrites_eq (p : Params) (draws n : Nat) (satk : SatKind) (x : Lanes) :
    procaWrites p draws m n satk b x = procaWrites p draws m' n satk b x := by
  have hl : procaLaneWrites p draws m n satk b x = procaLaneWrites p draws m' n satk b x :=
    funext fun l => (h l).procaLaneWrites_eq p draws n satk rfl
  rw [procaWrites, procaWrites, hl, h.rampStepWrites_eq]

theorem BankAgrees.procbStepped_eq (p : Params) (draws : Nat) (mode : PassMode) (x : Lanes) :
    procbStepped p draws mode m b x = procbStepped p draws mode m' b x :=
  funext fun l => (h l).procbStepped_eq p draws mode rfl

theorem BankAgrees.procbWrites_eq (p : Params) (draws : Nat) (mode : PassMode) (x : Lanes) :
    procbWrites p draws mode m b x = procbWrites p draws mode m' b x := by
  rw [procbWrites, procbWrites, h.procbStepped_eq, h.rampStepWrites_eq]

theorem BankAgrees.setAll (ws : List (WordRef × Word)) : BankAgrees (m.setAll ws) (m'.setAll ws) b := by
  induction ws generalizing m m' with
  | nil => exact h
  | cons wv ws ih => exact ih fun l r j => by simp only [word_set, h l r j]

theorem BankAgrees.firstUnwritten_eq {reads : List WordRef} (hr : ∀ w ∈ reads, w.bank = b) :
    firstUnwritten m reads = firstUnwritten m' reads := by
  unfold firstUnwritten
  refine List.find?_congr fun w hw => ?_
  obtain ⟨r, b', j, l⟩ := w
  obtain rfl : b' = b := hr _ hw
  rw [h l r j]

end Bank

/-- Two commands complete with the same reads, all of bank `b`, the same writes, results and query. -/
def CompletesAlike (s s' : State) (b : Nat) (o o' : Host.Outcome State Fault Refusal) : Prop :=
  ∃ reads ws ys q, (∀ w ∈ reads, w.bank = b) ∧
    o = .next (s.complete reads ws ys q) ∧ o' = .next (s'.complete reads ws ys q)

section BankResult
variable {s s' : State} {inst : BitVec 4} (p : Params) (h : BankAgrees s.mem s'.mem (bankOf inst))
  (hdraws : s.draws = s'.draws)
include h hdraws

theorem maker_bank_congr (T : Slot → Word) (n : BitVec 12) (mask : BitVec 4) (pitch : Word) :
    CompletesAlike s s' (bankOf inst) (maker p T n inst mask pitch s) (maker p T n inst mask pitch s') := by
  refine ⟨_, _, _, _, fun w hw => ?_, rfl, ?_⟩
  · obtain ⟨-, -, hbank, -⟩ := mem_rampSetReads.mp hw
    exact hbank
  · rw [maker, ← hdraws, ← h.rampSetWrites_eq]

theorem proca_bank_congr (nstg : BitVec 2) (satk : SatKind) (x : Lanes) :
    CompletesAlike s s' (bankOf inst) (proca p nstg satk inst x s) (proca p nstg satk inst x s') := by
  refine ⟨_, _, _, _, fun w hw => (mem_procaReads.mp hw).1, rfl, ?_⟩
  simp only [proca, ← hdraws, ← h.procaWrites_eq, ← h.procaLane_eq]

theorem procb_bank_congr (mode : PassMode) (x : Lanes) :
    CompletesAlike s s' (bankOf inst) (procb p mode inst x s) (procb p mode inst x s') := by
  refine ⟨_, _, _, _, fun w hw => (mem_procbReads.mp hw).1, procb_eq p mode inst x s, ?_⟩
  rw [procb_eq, ← hdraws, ← h.procbWrites_eq, ← h.procbStepped_eq]

end BankResult

/-- A command that completes does so alike in a state that agrees on its bank and its rates. -/
theorem exec_bank_congr {i : Instr} {s s' t : State} (hs : SameRates s s') (hb : BankAgrees s.mem s'.mem (bankOf i.inst))
    (h : exec i s = .next t) : CompletesAlike s s' (bankOf i.inst) (exec i s) (exec i s') := by
  have hdraws : s.draws = s'.draws := hs.2.2
  cases hp : i.isProcessor with
  | false =>
    obtain ⟨T, n, mask, pitch, hT⟩ := exec_maker hp h
    rw [hT s ⟨rfl, rfl, rfl⟩, hT s' hs]
    exact maker_bank_congr Config.hw hb hdraws T n mask pitch
  | true =>
    cases i
    case proca nstg satk b x => exact proca_bank_congr Config.hw hb hdraws nstg satk x
    case procblp b x => exact procb_bank_congr Config.hw hb hdraws .lp x
    case procbhp b x => exact procb_bank_congr Config.hw hb hdraws .hp x
    all_goals cases hp

end Sys2Proof.Machine

namespace Sys2Proof.Proofs
open Sys2Proof.Machine

/-- Settles O40: in lane `l` every part of a command computes from that lane alone. -/
theorem lanesDoNotInterfere : Obligations.LanesDoNotInterfere := by
  intro l i i' s s' t t' hi hsr hinv hdraws hmem ht ht'
  obtain ⟨hp, rfl⟩ | ⟨nstg, k, b, x, x', rfl, rfl, hx⟩ | ⟨b, x, x', rfl, rfl, hx⟩ | ⟨b, x, x', rfl, rfl, hx⟩ :=
    agreeAt_cases hi
  · obtain ⟨T, n, mask, pitch, hT⟩ := exec_maker hp ht
    rw [hT s ⟨rfl, rfl, rfl⟩] at ht
    rw [hT s' ⟨hsr, hinv, hdraws⟩] at ht'
    exact maker_lane_congr hmem hdraws ht ht'
  · exact proca_lane_congr hmem hdraws hx ht ht'
  · exact procb_lane_congr hmem hdraws hx ht ht'
  · exact procb_lane_congr hmem hdraws hx ht ht'

/-- Settles O41: a command reads only its bank, so it makes the same writes in both states. -/
theorem banksDoNotInterfere : Obligations.BanksDoNotInterfere := by
  intro i s s' t hsr hinv hdraws hnf hmem ht
  have hb : BankAgrees s.mem s'.mem (bankOf i.inst) := fun l r j => hmem r j l
  obtain ⟨reads, ws, ys, q, hreads, he, he'⟩ := exec_bank_congr ⟨hsr, hinv, hdraws⟩ hb ht
  obtain rfl := Host.Outcome.next.inj (ht.symm.trans he)
  refine ⟨_, he', rfl, ?_, rfl, ?_, fun r j l => hb.setAll ws l r j⟩
  · rw [complete_nf, complete_nf, hnf]
  · rw [complete_uninit, complete_uninit, hb.firstUnwritten_eq hreads]

end Sys2Proof.Proofs
end

section
/-! The host port and the invariant of the state space (20_memory.md): which addresses are reserved, what each host
access does, said once for each of its outcomes, and the invariant that every step keeps. -/

namespace Sys2Proof.Machine
open Sys2Proof.Stated

/-! ### Addresses (20_memory.md R72, R80) -/

theorem regionOf_eq_none_iff {r : BitVec 2} : regionOf r = none ↔ r.toNat = 3 := by
  revert r
  decide

/-- The reserved addresses: those of a bank that does not exist, and the last quarter of every bank. -/
theorem decodeAddr_eq_none_iff {nInst : Nat} {a : BitVec 13} :
    decodeAddr nInst a = none ↔ nInst ≤ a.toNat / 0x200 ∨ 0x180 ≤ a.toNat % 0x200 := by
  have hlt := a.isLt
  have hbank : (a.extractLsb' 9 4).toNat = a.toNat / 512 := by
    simp only [BitVec.extractLsb'_toNat, Nat.shiftRight_eq_div_pow]
    omega
  have hregion : (a.extractLsb' 7 2).toNat = a.toNat / 128 % 4 := by
    simp only [BitVec.extractLsb'_toNat, Nat.shiftRight_eq_div_pow]
  unfold decodeAddr
  split_ifs with hb
  · rw [hbank] at hb
    simp [hb]
  · rw [hbank] at hb
    rw [Option.map_eq_none_iff, regionOf_eq_none_iff, hregion]
    omega

/-- An aligned address that is not reserved is that of a state word of an existing bank. -/
theorem exists_decodeAddr {nInst : Nat} {a : BitVec 13} (h4 : a.toNat % 4 = 0)
    (hr : ¬ (nInst ≤ a.toNat / 0x200 ∨ 0x180 ≤ a.toNat % 0x200)) :
    ∃ w, decodeAddr nInst a = some w ∧ w.addr = a.toNat := by
  obtain ⟨w, hw⟩ := Option.ne_none_iff_exists'.mp (mt decodeAddr_eq_none_iff.mp hr)
  exact ⟨w, hw, (decodeAddr_some hw).2 h4⟩

/-- The layout is a bijection: an aligned address decodes to the one word of an existing bank that lies there. -/
theorem decodeAddr_eq_some_iff {nInst : Nat} {a : BitVec 13} {w : WordRef} (h4 : a.toNat % 4 = 0) :
    decodeAddr nInst a = some w ↔ w.bank < nInst ∧ w.addr = a.toNat := by
  constructor
  · intro h
    obtain ⟨hbank, haddr⟩ := decodeAddr_some h
    exact ⟨hbank, haddr h4⟩
  · rintro ⟨hbank, haddr⟩
    have hr : ¬ (nInst ≤ a.toNat / 0x200 ∨ 0x180 ≤ a.toNat % 0x200) := by
      have hoffset := addr_mod_bank_lt w
      rw [← haddr, addr_div_bank]
      omega
    obtain ⟨w', hw', haddr'⟩ := exists_decodeAddr h4 hr
    rw [hw', addr_injective (haddr'.trans haddr.symm)]

/-! ### The host accesses (20_memory.md R75 to R80) -/

section Access
variable {p : Params} {s : State}

theorem stRd_of_misaligned {a : BitVec 13} (h4 : a.toNat % 4 ≠ 0) : stRd p a s = .refused .misaligned := by
  simp [stRd, h4]

theorem stRd_of_reserved {a : BitVec 13} (h4 : a.toNat % 4 = 0) (hd : decodeAddr p.nInst a = none) :
    stRd p a s = .refused .reservedAddress := by simp [stRd, h4, hd]

theorem stRd_of_word {a : BitVec 13} {w : WordRef} (h4 : a.toNat % 4 = 0) (hd : decodeAddr p.nInst a = some w) :
    stRd p a s = .next (s.answer [w] [s.mem.get w]) := by simp [stRd, h4, hd]

theorem stWr_of_misaligned {a : BitVec 13} {v : Word} (h4 : a.toNat % 4 ≠ 0) :
    stWr p a v s = .refused .misaligned := by simp [stWr, h4]

theorem stWr_of_reserved {a : BitVec 13} {v : Word} (h4 : a.toNat % 4 = 0) (hd : decodeAddr p.nInst a = none) :
    stWr p a v s = .refused .reservedAddress := by simp [stWr, h4, hd]

theorem stWr_of_word {a : BitVec 13} {v : Word} {w : WordRef} (h4 : a.toNat % 4 = 0)
    (hd : decodeAddr p.nInst a = some w) :
    stWr p a v s = .next ({ s with mem := s.mem.set w v }.answer [] []) := by simp [stWr, h4, hd]

/-- The control space ends at offset 0x10 (10_state.md R41). -/
theorem csrRead_eq_none {o : BitVec 8} (h : 0x10 ≤ o.toNat) : csrRead p s o = none := by
  have hne : ∀ c : BitVec 8, c.toNat < 0x10 → o ≠ c := by
    rintro c hc rfl
    omega
  simp [csrRead, hne]

theorem csrRd_of_misaligned {o : BitVec 8} (h4 : o.toNat % 4 ≠ 0) : csrRd p o s = .refused .misaligned := by
  simp [csrRd, h4]

theorem csrRd_of_reserved {o : BitVec 8} (h4 : o.toNat % 4 = 0) (h : 0x10 ≤ o.toNat) :
    csrRd p o s = .refused .reservedAddress := by simp [csrRd, h4, csrRead_eq_none h]

theorem csrRd_of_register {o : BitVec 8} {v : Word} (h4 : o.toNat % 4 = 0) (h : csrRead p s o = some v) :
    csrRd p o s = .next (s.answer [] [v]) := by simp [csrRd, h4, h]

theorem csrWr_of_misaligned {o : BitVec 8} {v : Word} (h4 : o.toNat % 4 ≠ 0) :
    csrWr p o v s = .refused .misaligned := by simp [csrWr, h4]

theorem csrWr_of_reserved {o : BitVec 8} {v : Word} (h4 : o.toNat % 4 = 0) (h : 0x10 ≤ o.toNat) :
    csrWr p o v s = .refused .reservedAddress := by simp [csrWr, h4, csrRead_eq_none h]

theorem csrWr_of_register {o : BitVec 8} {u v : Word} (h4 : o.toNat % 4 = 0) (h : csrRead p s o = some u) :
    csrWr p o v s = .next ((csrWrite s o v).answer [] []) := by simp [csrWr, h4, h]

end Access

theorem command_of_decode {p : Params} {run : Instr → State → Host.Outcome State Fault Refusal} {ws : List Word}
    {s : State} {i : Instr} (h : decode p.nInst ws = .ok i) : command p run ws s = run i s := by
  simp [command, h]

/-! ### The invariant of the state space -/

/-- The invariant speaks of the state space alone. -/
theorem State.Inv.of_mem_eq {s t : State} (h : s.Inv) (hmem : t.mem = s.mem) : t.Inv := by
  unfold State.Inv
  rw [hmem]
  exact h

/-- A write makes exactly the four bytes of its word written. -/
theorem isSome_byte_set {m : Memory} {w : WordRef} {v : Word} {a : Nat} :
    ((m.set w v).byte a).isSome = true ↔ a / 4 * 4 = w.addr ∨ (m.byte a).isSome = true := by
  have haligned := addr_mod_four w
  by_cases ha : a / 4 * 4 = w.addr
  · have hin : w.addr = a ∨ w.addr + 1 = a ∨ w.addr + 2 = a ∨ w.addr + 3 = a := by omega
    refine iff_of_true ?_ (.inl ha)
    rw [Memory.set, byte_setWordAt]
    rcases hin with h | h | h | h <;> simp [← h]
  · rw [byte_set_outside (by omega)]
    simp [ha]

/-- No byte of a state word of an existing bank is reserved (20_memory.md R80). -/
theorem stateByte_of_word {nInst a : Nat} {w : WordRef} (hbank : w.bank < nInst) (ha : a / 4 * 4 = w.addr) :
    stateByte nInst a = true := by
  have hdiv := addr_div_bank w
  have hmod := addr_mod_bank_lt w
  simp only [stateByte, Bool.and_eq_true, decide_eq_true_eq]
  omega

/-- A write to a word of an existing bank keeps the invariant. -/
theorem State.Inv.set {s : State} (h : s.Inv) {w : WordRef} (hbank : w.bank < Config.hw.nInst) (v : Word) :
    ({ s with mem := s.mem.set w v } : State).Inv := by
  obtain ⟨hwf, hstate, hwhole⟩ := h
  refine ⟨set_wf w v hwf, fun a ha => ?_, fun a ha j hj => ?_⟩
  · rcases isSome_byte_set.mp ha with ha | ha
    · exact stateByte_of_word hbank ha
    · exact hstate a ha
  · refine isSome_byte_set.mpr ((isSome_byte_set.mp ha).imp (fun ha => ?_) fun ha => hwhole a ha j hj)
    omega

/-- So does a list of such writes. -/
theorem State.Inv.setAll {s : State} (h : s.Inv) {ws : List (WordRef × Word)}
    (hbank : ∀ w ∈ ws.map Prod.fst, w.bank < Config.hw.nInst) :
    ({ s with mem := s.mem.setAll ws } : State).Inv := by
  induction ws generalizing s with
  | nil => exact h
  | cons wv ws ih =>
    rw [List.map_cons, List.forall_mem_cons] at hbank
    exact ih (h.set hbank.1 wv.2) hbank.2

/-- A command on an existing bank keeps the invariant: all it stores is of that bank (20_memory.md R82). -/
theorem exec_inv {i : Instr} {s t : State} (hi : i.inst.toNat < Config.hw.nInst) (h : s.Inv)
    (he : exec i s = .next t) : t.Inv := by
  obtain ⟨reads, ws, ys, rfl, -, hkeys, -⟩ := exec_next he
  have hbank : ∀ w ∈ ws.map Prod.fst, w.bank < Config.hw.nInst := fun w hw =>
    (stores_cases ((hkeys w).mp hw)).1 ▸ hi
  exact (h.setAll hbank).of_mem_eq rfl

/-! ### Makers -/

theorem makerStores_iff {n : BitVec 12} {b m : BitVec 4} {w : WordRef} :
    makerStores n b m w = true ↔
      w.bank = b.toNat ∧ m.getLsbD w.lane.val = true ∧ (w.region = .dC ∨ (w.region = .C ∧ n = 0)) := by
  simp [makerStores, and_assoc]

/-- The instruction is a maker with these fields and this pitch. -/
def IsMaker (i : Instr) (n : BitVec 12) (b m : BitVec 4) (pitch : Word) : Prop :=
  i.isProcessor = false ∧ i.stores = makerStores n b m ∧ i.pitch? = some pitch

theorem mkcaInstr_isMaker (ft : FilterType) (n : BitVec 12) (b m : BitVec 4) (pitch reso : Word) :
    IsMaker (mkcaInstr ft n b m pitch reso) n b m pitch := by
  cases ft <;> exact ⟨rfl, rfl, rfl⟩

theorem mkcbInstr_isMaker (mode : PassMode) (n : BitVec 12) (b m : BitVec 4) (pitch reso drive : Word) :
    IsMaker (mkcbInstr mode n b m pitch reso drive) n b m pitch := by
  cases mode <;> exact ⟨rfl, rfl, rfl⟩

/-- A maker returns nothing (30_encoding.md R119). -/
theorem exec_results_of_maker {i : Instr} {s t : State} (hi : i.isProcessor = false) (h : exec i s = .next t) :
    t.results = [] := by
  obtain ⟨reads, ws, ys, rfl, -, -, hys, -⟩ := exec_next h
  exact hys hi

end Sys2Proof.Machine

namespace Sys2Proof.Proofs
open Sys2Proof.Machine Sys2Proof.Stated

/-- Settles O18: a step writes no word, words of an existing bank, or empties the state space. -/
theorem stepKeepsTheStateSpaceInvariant : Obligations.StepKeepsTheStateSpaceInvariant := by
  intro s t hs h
  obtain ⟨-, rfl⟩ | ⟨x, rest, -, hx⟩ := step_next h
  · exact hs
  obtain ⟨a, w, rfl, -, rfl⟩ | ⟨a, v, w, rfl, hbank, -, rfl⟩ | ⟨o, v, rfl, -, rfl⟩ | ⟨o, v, rfl, rfl⟩ |
    ⟨ws, i, rfl, hd, he⟩ | ⟨rfl, rfl⟩ := hx
  · exact hs.of_mem_eq rfl
  · exact (hs.set hbank v).of_mem_eq rfl
  · exact hs.of_mem_eq rfl
  · exact hs.of_mem_eq (by simp)
  · exact exec_inv (s := { s with pending := rest }) (decode_ok_wf hd) (hs.of_mem_eq rfl) he
  · exact resetMeetsTheStateSpaceInvariant.of_mem_eq rfl

/-- Settles O13: the two sides of the address decoder. -/
theorem stateSpaceLayout : Obligations.StateSpaceLayout :=
  ⟨fun _ _ _ => ⟨rfl, rfl, rfl⟩, fun _ _ _ _ h4 => decodeAddr_eq_some_iff h4, fun _ _ _ => decodeAddr_eq_none_iff⟩

/-- Settles O14, outcome by outcome of ST_RD; a word is unwritten exactly where the read is recorded. -/
theorem stateReadReturnsTheWord : Obligations.StateReadReturnsTheWord := by
  intro s a rest hp
  simp only [runStep, step_cons hp, perform]
  refine ⟨stRd_of_misaligned, fun h4 hr => stRd_of_reserved h4 (decodeAddr_eq_none_iff.mpr hr),
    fun h4 hr hnone => ?_, fun v h4 hr hsome => ?_⟩
  · obtain ⟨w, hd, haddr⟩ := exists_decodeAddr h4 hr
    have hw : s.mem.word w = none := by rw [Memory.word, haddr, hnone]
    have hfirst : firstUnwritten s.mem [w] = some w := by simp [firstUnwritten, hw]
    refine ⟨w, haddr, ?_, ?_⟩
    · rw [stRd_of_word h4 hd, State.answer, hfirst]
    · rw [stRd_of_word h4 hd, endRun_uninit hfirst]
  · obtain ⟨w, hd, haddr⟩ := exists_decodeAddr h4 hr
    have hw : s.mem.word w = some v := by rw [Memory.word, haddr, hsome]
    have hfirst : firstUnwritten s.mem [w] = none := by simp [firstUnwritten, hw]
    rw [stRd_of_word h4 hd, State.answer, hfirst, get_of_word hw]

/-- Settles O15, outcome by outcome of ST_WR. -/
theorem stateWriteStoresTheWord : Obligations.StateWriteStoresTheWord := by
  intro s a v rest hp
  simp only [step_cons hp, perform]
  refine ⟨stWr_of_misaligned, fun h4 hr => stWr_of_reserved h4 (decodeAddr_eq_none_iff.mpr hr), fun h4 hr => ?_⟩
  obtain ⟨w, hd, haddr⟩ := exists_decodeAddr h4 hr
  refine ⟨_, stWr_of_word h4 hd, ?_⟩
  rw [← haddr]
  exact ⟨word_set_same s.mem w v, fun a' ha' => byte_set_outside ha', rfl, rfl, rfl, rfl, rfl, rfl, rfl⟩

/-- Settles O28: the frame of every command, at the words a maker stores. -/
theorem makersChangeOnlyTheMaskedCoefficients : Obligations.MakersChangeOnlyTheMaskedCoefficients := by
  intro n b m pitch reso drive s t h
  obtain ⟨i, ⟨hproc, hstores, hpitch⟩, he⟩ : ∃ i, IsMaker i n b m pitch ∧ exec i s = .next t := by
    obtain ⟨ft, he⟩ | ⟨mode, he⟩ := h
    · exact ⟨_, mkcaInstr_isMaker ft n b m pitch reso, he⟩
    · exact ⟨_, mkcbInstr_isMaker mode n b m pitch reso drive, he⟩
  obtain ⟨hbytes, hcontrol, hquery⟩ := exec_frame he
  rw [hstores] at hbytes
  exact ⟨bytesUnchangedOutside_mono hbytes fun w hw => makerStores_iff.mp hw, hcontrol,
    exec_results_of_maker hproc he, hquery.trans hpitch⟩

/-- Settles O7. -/
theorem stepRunsTheDecodedCommand : Obligations.StepRunsTheDecodedCommand := by
  intro s ws rest i hp hd
  rw [step_cons hp]
  exact command_of_decode hd

/-- Settles O16: CSR_RD at each of the four registers, and outside them. -/
theorem controlReadReturnsTheRegister : Obligations.ControlReadReturnsTheRegister := by
  intro s o rest hp
  simp only [step_cons hp, perform]
  refine ⟨csrRd_of_misaligned, csrRd_of_reserved, ?_, ?_, ?_, ?_⟩
  · rintro rfl
    rw [← cfgWord_eq]
    exact csrRd_of_register (by decide) rfl
  all_goals
    rintro rfl
    exact csrRd_of_register (by decide) rfl

/-- Settles O17: CSR_WR at each of the four registers, and outside them. -/
theorem controlWriteEffects : Obligations.ControlWriteEffects := by
  intro s o v rest hp
  have hclear : (s.nf && !v.getLsbD 0) = if v.getLsbD 0 then false else s.nf := by
    cases v.getLsbD 0 <;> simp
  simp only [step_cons hp, perform]
  refine ⟨csrWr_of_misaligned, csrWr_of_reserved, ?_, ?_, ?_, ?_⟩
  case refine_4 =>
    rintro rfl
    rw [← hclear]
    exact csrWr_of_register (by decide) rfl
  all_goals
    rintro rfl
    exact csrWr_of_register (by decide) rfl

end Sys2Proof.Proofs
end

section
/-! The encoding (30_encoding.md R110 to R128): a decoded command word is its header put back into bits, so that
decoding and encoding are two readings of one relation; the opcode map and the reserved words as conditions on the
fields of a word. Then `clrr` (R127) as a list of host writes. -/

namespace Sys2Proof

/-! ### The word of a header (R111 to R113, R124, R125) -/

/-- FTYPE of R125. -/
def ftypeCode : FilterType → BitVec 4
  | .lp => 0
  | .hp => 1
  | .notch => 2
  | .bp => 3
  | .ap => 4

/-- HPSEL of R125. -/
def hpselCode : PassMode → BitVec 4
  | .lp => 0
  | .hp => 1

/-- The command word a header is read from. -/
def Header.word : Header → Word
  | .mkca ft n b m => commandWord n b m (ftypeCode ft) 1
  | .mkcb mode n b m => commandWord n b m (hpselCode mode) 2
  | .proca nstg satk b => commandWord 0 b 0 (0#1 ++ satkBit satk ++ nstg) 3
  | .procblp b => commandWord 0 b 0 0 4
  | .procbhp b => commandWord 0 b 0 0 5

/-- The INST field of a header (R115). -/
def Header.inst : Header → BitVec 4
  | .mkca _ _ b _ | .mkcb _ _ b _ | .proca _ _ b | .procblp b | .procbhp b => b

/-- The number k of operand words of a header (R119, R123). -/
def Header.operandCount : Header → Nat
  | .mkca .. => 2
  | .mkcb .. => 3
  | .proca .. | .procblp .. | .procbhp .. => 4

theorem ftypeOf_eq_some_iff {sub : BitVec 4} {ft : FilterType} : ftypeOf sub = some ft ↔ ftypeCode ft = sub := by
  cases ft <;> revert sub <;> decide

theorem ftypeOf_eq_none_iff {sub : BitVec 4} : ftypeOf sub = none ↔ 5 ≤ sub.toNat := by
  revert sub
  decide

theorem hpselOf_eq_some_iff {sub : BitVec 4} {mode : PassMode} :
    hpselOf sub = some mode ↔ hpselCode mode = sub := by
  cases mode <;> revert sub <;> decide

theorem hpselOf_eq_none_iff {sub : BitVec 4} : hpselOf sub = none ↔ 2 ≤ sub.toNat := by
  revert sub
  decide

section ProcaSub
variable (w : Word)

theorem nstgField_eq : nstgField w = (subField w).extractLsb' 0 2 := by
  apply BitVec.eq_of_getLsbD_eq
  intro i hi
  simp only [nstgField, subField, BitVec.getLsbD_extractLsb']
  simp [show i < 4 by omega]

theorem satkField_eq : satkField w = if (subField w).getLsbD 2 then .soft else .tanh := by
  simp [satkField, subField]

theorem bit7_eq : w.getLsbD 7 = (subField w).getLsbD 3 := by
  simp [subField]

/-- SUB of PROCA is SATK and NSTG under a zero bit (R113). -/
theorem procaSub_eq_iff : 0#1 ++ satkBit (satkField w) ++ nstgField w = subField w ↔ w.getLsbD 7 = false := by
  rw [nstgField_eq, satkField_eq, bit7_eq]
  generalize subField w = sub
  revert sub
  decide

theorem bit7_iff : w.getLsbD 7 = true ↔ 8 ≤ (subField w).toNat := by
  rw [bit7_eq]
  generalize subField w = sub
  revert sub
  decide

theorem subField_and_eight : subField w &&& 8 = 0 ↔ w.getLsbD 7 = false := by
  rw [bit7_eq]
  generalize subField w = sub
  revert sub
  decide

end ProcaSub

/-! ### A word and its fields -/

/-- A command word is the six fields it is made from, with RSV zero. -/
theorem commandWord_eq_iff {n : BitVec 12} {b m sub op : BitVec 4} {w : Word} :
    commandWord n b m sub op = w ↔
      rsvField w = 0 ∧ rampField w = n ∧ instField w = b ∧ maskField w = m ∧ subField w = sub ∧ opField w = op := by
  constructor
  · rintro rfl
    exact ⟨rsvField_commandWord .., rampField_commandWord .., instField_commandWord .., maskField_commandWord ..,
      subField_commandWord .., opField_commandWord ..⟩
  · rintro ⟨hrsv, rfl, rfl, rfl, rfl, rfl⟩
    exact commandWord_fields hrsv

/-- A mask selects in each field of a word what its own field selects (R124). -/
theorem and_eq_commandWord_iff {n : BitVec 12} {b m sub op : BitVec 4} {w k : Word} :
    w &&& k = commandWord n b m sub op ↔
      rsvField w &&& rsvField k = 0 ∧ rampField w &&& rampField k = n ∧ instField w &&& instField k = b ∧
        maskField w &&& maskField k = m ∧ subField w &&& subField k = sub ∧ opField w &&& opField k = op := by
  rw [eq_comm, commandWord_eq_iff]
  simp only [rsvField, rampField, instField, maskField, subField, opField, BitVec.extractLsb'_and]

section Rows
variable (w : Word) (sub op : BitVec 4)

theorem and_ones4 (x : BitVec 4) : x &&& 15#4 = x := BitVec.and_allOnes

theorem and_ones12 (x : BitVec 12) : x &&& 4095#12 = x := BitVec.and_allOnes

/-- The mask of a maker row: RSV, SUB and OP are given, the rest is free. -/
theorem makerMask_iff : w &&& 0xF00000FF = commandWord 0 0 0 sub op ↔
    commandWord (rampField w) (instField w) (maskField w) sub op = w := by
  rw [and_eq_commandWord_iff, commandWord_eq_iff]
  simp [rsvField, rampField, instField, maskField, subField, opField, and_ones4]

/-- The mask of PROCA: of SUB only bit 3 is given. -/
theorem procaMask_iff : w &&& 0xFFFF0F8F = commandWord 0 0 0 0 3 ↔
    commandWord 0 (instField w) 0 (0#1 ++ satkBit (satkField w) ++ nstgField w) 3 = w := by
  rw [and_eq_commandWord_iff, commandWord_eq_iff, eq_comm (b := 0#1 ++ _ ++ _), procaSub_eq_iff,
    ← subField_and_eight]
  simp [rsvField, rampField, instField, maskField, subField, opField, and_ones4, and_ones12]

/-- The mask of a Family B processor row: only INST is free. -/
theorem procbMask_iff : w &&& 0xFFFF0FFF = commandWord 0 0 0 0 op ↔ commandWord 0 (instField w) 0 0 op = w := by
  rw [and_eq_commandWord_iff, commandWord_eq_iff]
  simp [rsvField, rampField, instField, maskField, subField, opField, and_ones4, and_ones12]

end Rows

/-- Two rows that match one word agree where both masks look. -/
theorem masks_agree {w k k' m m' : Word} (h : w &&& k = m) (h' : w &&& k' = m') : m &&& k' = m' &&& k := by
  rw [← h, ← h', BitVec.and_assoc, BitVec.and_assoc, BitVec.and_comm k]

/-! ### The decoder as a relation -/

/-- The word of a header that names an existing bank passes every check of R120. -/
theorem decodeHeader_word {nInst : Nat} {h : Header} (hb : h.inst.toNat < nInst) :
    decodeHeader nInst h.word = .ok h := by
  have hbank := Nat.not_le.mpr hb
  cases h <;> simp only [Header.inst] at hbank <;>
    simp [decodeHeader, Header.word, rsvField_commandWord, instField_commandWord, hbank, opField_commandWord,
      subField_commandWord, ftypeOf_eq_some_iff.mpr rfl, hpselOf_eq_some_iff.mpr rfl, rampField_commandWord,
      maskField_commandWord, bit7_commandWord, nstgField_commandWord, satkField_commandWord,
      -BitVec.getLsbD_eq_getElem]

/-- A word that passes every check of R120 is the word of its header. -/
theorem word_of_decodeHeader {nInst : Nat} {w : Word} {h : Header} (hd : decodeHeader nInst w = .ok h) :
    h.word = w ∧ h.inst.toNat < nInst := by
  unfold decodeHeader at hd
  split_ifs at hd with hrsv hbank h1 h2 h3 hz h4 hz h5 hz
  all_goals
    rw [not_ne_iff] at hrsv
    rw [Nat.not_le] at hbank
  · cases hf : ftypeOf (subField w) <;> rw [hf] at hd <;> cases hd
    exact ⟨commandWord_eq_iff.mpr ⟨hrsv, rfl, rfl, rfl, (ftypeOf_eq_some_iff.mp hf).symm, h1⟩, hbank⟩
  · cases hm : hpselOf (subField w) <;> rw [hm] at hd <;> cases hd
    exact ⟨commandWord_eq_iff.mpr ⟨hrsv, rfl, rfl, rfl, (hpselOf_eq_some_iff.mp hm).symm, h2⟩, hbank⟩
  all_goals
    cases hd
    simp only [not_or, not_ne_iff, Bool.not_eq_true] at hz
    obtain ⟨hsub, hmask, hramp⟩ := hz
  · exact ⟨commandWord_eq_iff.mpr ⟨hrsv, hramp, rfl, hmask, ((procaSub_eq_iff w).mpr hsub).symm, h3⟩, hbank⟩
  · exact ⟨commandWord_eq_iff.mpr ⟨hrsv, hramp, rfl, hmask, hsub, h4⟩, hbank⟩
  · exact ⟨commandWord_eq_iff.mpr ⟨hrsv, hramp, rfl, hmask, hsub, h5⟩, hbank⟩

/-- The checks of R120 pass exactly on the words of headers that name an existing bank. -/
theorem decodeHeader_eq_ok_iff {nInst : Nat} {w : Word} {h : Header} :
    decodeHeader nInst w = .ok h ↔ h.word = w ∧ h.inst.toNat < nInst := by
  refine ⟨word_of_decodeHeader, ?_⟩
  rintro ⟨rfl, hb⟩
  exact decodeHeader_word hb

/-! ### The reserved words (R120, R121) -/

/-- OP or SUB is reserved, or MASK or RAMP of a processor is not zero (R121). -/
def ReservedFields (w : Word) : Prop :=
  let op := (opField w).toNat
  let sub := (subField w).toNat
  op = 0 ∨ 6 ≤ op ∨ (op = 1 ∧ 5 ≤ sub) ∨ (op = 2 ∧ 2 ≤ sub) ∨ (op = 3 ∧ 8 ≤ sub) ∨
    ((op = 4 ∨ op = 5) ∧ sub ≠ 0) ∨
    ((op = 3 ∨ op = 4 ∨ op = 5) ∧ ((maskField w).toNat ≠ 0 ∨ (rampField w).toNat ≠ 0))

section Refusals
variable {nInst : Nat} {w : Word}

theorem decodeHeader_of_rsv (h : rsvField w ≠ 0) : decodeHeader nInst w = .error .reservedEncoding := by
  simp only [decodeHeader, if_pos h]

theorem decodeHeader_of_inst (hrsv : rsvField w = 0) (h : nInst ≤ (instField w).toNat) :
    decodeHeader nInst w = .error .instRange := by
  simp only [decodeHeader, hrsv, ne_eq, not_true_eq_false, if_false, if_pos h]

/-- Past the first two checks of R120, a word is refused where its fields are reserved and a command elsewhere. -/
theorem decodeHeader_of_fields (hrsv : rsvField w = 0) (hb : (instField w).toNat < nInst) :
    (ReservedFields w ∧ decodeHeader nInst w = .error .reservedEncoding) ∨
      (¬ ReservedFields w ∧ ∃ h, decodeHeader nInst w = .ok h) := by
  have hzero {n : Nat} (x : BitVec n) : x.toNat = 0 ↔ x = 0 := (BitVec.toNat_eq (y := 0)).symm
  unfold decodeHeader
  simp only [if_neg (not_not.mpr hrsv), if_neg (Nat.not_le.mpr hb), bit7_iff]
  split_ifs with h1 h2 h3 hz h4 hz h5 hz
  · cases hf : ftypeOf (subField w) with
    | none => exact .inl ⟨by simp [ReservedFields, h1, ftypeOf_eq_none_iff.mp hf], rfl⟩
    | some ft =>
      have hlow : ¬ 5 ≤ (subField w).toNat := by simp [← ftypeOf_eq_none_iff, hf]
      exact .inr ⟨by simpa [ReservedFields, h1] using hlow, _, rfl⟩
  · cases hm : hpselOf (subField w) with
    | none => exact .inl ⟨by simp [ReservedFields, h2, hpselOf_eq_none_iff.mp hm], rfl⟩
    | some mode =>
      have hlow : ¬ 2 ≤ (subField w).toNat := by simp [← hpselOf_eq_none_iff, hm]
      exact .inr ⟨by simpa [ReservedFields, h2] using hlow, _, rfl⟩
  · exact .inl ⟨by simpa [ReservedFields, h3, hzero] using hz, rfl⟩
  · exact .inr ⟨by simpa [ReservedFields, h3, hzero] using hz, _, rfl⟩
  · exact .inl ⟨by simpa [ReservedFields, h4, hzero] using hz, rfl⟩
  · exact .inr ⟨by simpa [ReservedFields, h4, hzero] using hz, _, rfl⟩
  · exact .inl ⟨by simpa [ReservedFields, h5, hzero] using hz, rfl⟩
  · exact .inr ⟨by simpa [ReservedFields, h5, hzero] using hz, _, rfl⟩
  · refine .inl ⟨?_, rfl⟩
    have hop : (opField w).toNat = 0 ∨ 6 ≤ (opField w).toNat := by
      revert h1 h2 h3 h4 h5
      generalize opField w = op
      revert op
      decide
    exact hop.imp_right .inl

end Refusals

/-! ### Operand words (R118, R119, R123) -/

/-- A header and operand words that make an instruction are what the instruction encodes to. -/
theorem encode_of_withOperands {h : Header} {os : List Word} {i : Instr} (hi : withOperands h os = some i) :
    encode i = h.word :: os ∧ i.inst = h.inst := by
  unfold withOperands at hi
  split at hi <;> cases hi
  case h_1 ft n b m pitch reso => cases ft <;> exact ⟨rfl, rfl⟩
  case h_2 mode n b m pitch reso drive => cases mode <;> exact ⟨rfl, rfl⟩
  all_goals exact ⟨rfl, rfl⟩

/-- Every instruction is made of a header and operand words. -/
theorem exists_withOperands (i : Instr) : ∃ h os, withOperands h os = some i := by
  cases i with
  | mkcaLp n b m pitch reso => exact ⟨.mkca .lp n b m, [pitch, reso], rfl⟩
  | mkcaHp n b m pitch reso => exact ⟨.mkca .hp n b m, [pitch, reso], rfl⟩
  | mkcaNotch n b m pitch reso => exact ⟨.mkca .notch n b m, [pitch, reso], rfl⟩
  | mkcaBp n b m pitch reso => exact ⟨.mkca .bp n b m, [pitch, reso], rfl⟩
  | mkcaAp n b m pitch reso => exact ⟨.mkca .ap n b m, [pitch, reso], rfl⟩
  | mkcbLp n b m pitch reso drive => exact ⟨.mkcb .lp n b m, [pitch, reso, drive], rfl⟩
  | mkcbHp n b m pitch reso drive => exact ⟨.mkcb .hp n b m, [pitch, reso, drive], rfl⟩
  | proca nstg satk b x => exact ⟨.proca nstg satk b, x.toList, rfl⟩
  | procblp b x => exact ⟨.procblp b, x.toList, rfl⟩
  | procbhp b x => exact ⟨.procbhp b, x.toList, rfl⟩

/-- A header takes exactly its k operand words. -/
theorem withOperands_eq_none_iff {h : Header} {os : List Word} :
    withOperands h os = none ↔ os.length ≠ h.operandCount := by
  rcases os with _ | ⟨o0, _ | ⟨o1, _ | ⟨o2, _ | ⟨o3, _ | ⟨o4, os⟩⟩⟩⟩⟩ <;> cases h <;>
    simp [withOperands, Header.operandCount]

/-- OP gives k, whatever the other fields are (R119). -/
theorem operandCount?_word (h : Header) : operandCount? h.word = some h.operandCount := by
  have hop (n : BitVec 12) (b m sub op : BitVec 4) : (commandWord n b m sub op).extractLsb' 0 4 = op :=
    opField_commandWord n b m sub op
  cases h <;> simp [operandCount?, Header.word, Header.operandCount, hop]

theorem operandCount_eq (h : Header) :
    h.operandCount = if (opField h.word).toNat = 1 then 2 else if (opField h.word).toNat = 2 then 3 else 4 := by
  cases h <;> simp [Header.word, Header.operandCount, opField_commandWord]

/-! ### Decode and encode (R120, R123) -/

theorem decode_eq_of_header {nInst : Nat} {w : Word} {h : Header} {os : List Word} {i : Instr}
    (hd : decodeHeader nInst w = .ok h) (hi : withOperands h os = some i) : decode nInst (w :: os) = .ok i := by
  simp [decode, hd, hi]

theorem decode_eq_operandCount {nInst : Nat} {w : Word} {h : Header} {os : List Word}
    (hd : decodeHeader nInst w = .ok h) (hn : os.length ≠ h.operandCount) :
    decode nInst (w :: os) = .error .operandCount := by
  simp [decode, hd, withOperands_eq_none_iff.mpr hn]

theorem decode_eq_error {nInst : Nat} {w : Word} {os : List Word} {e : DecodeError}
    (hd : decodeHeader nInst w = .error e) : decode nInst (w :: os) = .error e := by
  simp [decode, hd]

theorem decode_ok {nInst : Nat} {ws : List Word} {i : Instr} (h : decode nInst ws = .ok i) :
    ∃ w os hd, ws = w :: os ∧ decodeHeader nInst w = .ok hd ∧ withOperands hd os = some i := by
  unfold decode at h
  split at h
  · cases h
  · split at h
    · cases h
    · split at h <;> cases h
      exact ⟨_, _, _, rfl, ‹_›, ‹_›⟩

/-- A bank of a block is one of every larger block (R115). -/
theorem Instr.wf_mono {m n : Nat} {i : Instr} (hmn : m ≤ n) (h : i.wf m = true) : i.wf n = true :=
  decide_eq_true ((of_decide_eq_true h).trans_le hmn)

/-- Decoding reads exactly the encodings of the instructions that name an existing bank. -/
theorem decode_eq_ok_iff {nInst : Nat} {ws : List Word} {i : Instr} :
    decode nInst ws = .ok i ↔ encode i = ws ∧ i.wf nInst = true := by
  constructor
  · intro h
    obtain ⟨w, os, hd, rfl, hw, hi⟩ := decode_ok h
    obtain ⟨rfl, hb⟩ := word_of_decodeHeader hw
    obtain ⟨hencode, hinst⟩ := encode_of_withOperands hi
    exact ⟨hencode, by simpa [Instr.wf, hinst] using hb⟩
  · rintro ⟨rfl, hwf⟩
    obtain ⟨hd, os, hi⟩ := exists_withOperands i
    obtain ⟨hencode, hinst⟩ := encode_of_withOperands hi
    rw [hencode]
    exact decode_eq_of_header (decodeHeader_word (by simpa [Instr.wf, hinst] using hwf)) hi

end Sys2Proof

namespace Sys2Proof.Machine

/-! ### A command input (R110, R121) -/

/-- The block of the hardware's own parameters is the hardware. -/
theorem execWith_hw : execWith Config.hw = exec := by
  funext i s
  cases i <;> rfl

theorem command_of_decode_error {p : Params} {run : Instr → State → Host.Outcome State Fault Refusal}
    {ws : List Word} {s : State} {e : DecodeError} (h : decode p.nInst ws = .error e) :
    command p run ws s = .refused (refusalOf e) := by
  simp [command, h]

/-! ### `clrr` as a list of host writes (R127) -/

theorem nInst_le (p : Params) : p.nInst ≤ 16 := p.nInstM1.isLt

/-- The state space has an address for every word of an existing bank (20_memory.md R72). -/
theorem addr_lt {p : Params} {w : WordRef} (hb : w.bank < p.nInst) : w.addr < 2 ^ 13 := by
  have hbank := addr_div_bank w
  have := nInst_le p
  omega

/-- The ST_WR of `clearWord` stores +0.0 in its word. -/
theorem stWr_clear {p : Params} {w : WordRef} (s : State) (hb : w.bank < p.nInst) :
    stWr p (BitVec.ofNat 13 w.addr) 0 s = .next ({ s with mem := s.mem.set w 0 }.answer [] []) := by
  have haddr : w.addr = (BitVec.ofNat 13 w.addr).toNat := by
    rw [BitVec.toNat_ofNat, Nat.mod_eq_of_lt (addr_lt hb)]
  have h4 : (BitVec.ofNat 13 w.addr).toNat % 4 = 0 := haddr ▸ addr_mod_four w
  exact stWr_of_word h4 ((decodeAddr_eq_some_iff h4).mpr ⟨hb, haddr⟩)

/-- `t` is `s` after +0.0 was written to each word of a list, with `rest` the inputs still to come. -/
structure Cleared (ws : List WordRef) (rest : List HostInput) (s t : State) : Prop where
  mem : t.mem = s.mem.setAll (ws.map fun w => (w, 0))
  sr : t.sr = s.sr
  srInv : t.srInv = s.srInv
  nf : t.nf = s.nf
  pending : t.pending = rest

theorem Cleared.trans {w : WordRef} {ws : List WordRef} {rest rest' : List HostInput} {s t u : State}
    (h : Cleared [w] rest s t) (h' : Cleared ws rest' t u) : Cleared (w :: ws) rest' s u where
  mem := by rw [h'.mem, h.mem]; rfl
  sr := h'.sr.trans h.sr
  srInv := h'.srInv.trans h.srInv
  nf := h'.nf.trans h.nf
  pending := h'.pending

/-- As many steps as a list of clearing writes is long perform exactly these. -/
theorem run_clearWords {ws : List WordRef} {rest : List HostInput} {s : State}
    (hb : ∀ w ∈ ws, w.bank < Config.hw.nInst) (hp : s.pending = ws.map clearWord ++ rest) :
    ∃ t, Host.Core.run core ws.length s = .next t ∧ Cleared ws rest s t := by
  induction ws generalizing s with
  | nil => exact ⟨s, rfl, rfl, rfl, rfl, rfl, hp⟩
  | cons w ws ih =>
    rw [List.forall_mem_cons] at hb
    obtain ⟨s₁, hstep, hfirst⟩ : ∃ s₁, core.step s = .next s₁ ∧ Cleared [w] (ws.map clearWord ++ rest) s s₁ :=
      ⟨_, (step_cons hp).trans (stWr_clear _ hb.1), rfl, rfl, rfl, rfl, rfl⟩
    obtain ⟨t, hrun, hrest⟩ := ih hb.2 hfirst.pending
    exact ⟨t, by simp only [List.length_cons, Host.Core.run, hstep, hrun], hfirst.trans hrest⟩

theorem mem_clrrWords {b : Nat} {w : WordRef} : w ∈ clrrWords b ↔ w.region = .R ∧ w.bank = b := by
  obtain ⟨r, b', j, l⟩ := w
  simp [clrrWords, eq_comm]

end Sys2Proof.Machine

namespace Sys2Proof.Proofs
open Sys2Proof.Machine Sys2Proof.Stated

/-- Settles O2: decoding reads every encoding. -/
theorem decodeOfEncodeIsTheInstruction : Obligations.DecodeOfEncodeIsTheInstruction :=
  fun _ _ hwf => decode_eq_ok_iff.mpr ⟨rfl, hwf⟩

/-- Settles O3: decoding reads nothing but encodings. -/
theorem encodeOfDecodeIsTheWords : Obligations.EncodeOfDecodeIsTheWords :=
  fun _ _ _ h => decode_eq_ok_iff.mp h

/-- Settles O1: the words are what the instructions encode to; the decoder reads them back. -/
theorem exampleWordsEncodeAndDecode : Obligations.ExampleWordsEncodeAndDecode := by
  intro nInst p r d x0 x1 x2 x3 hn
  have hboth {i : Instr} {ws : List Word} (he : encode i = ws) (hwf : i.wf 4 = true) :
      encode i = ws ∧ decode nInst ws = .ok i := ⟨he, decode_eq_ok_iff.mpr ⟨he, Instr.wf_mono hn hwf⟩⟩
  exact ⟨hboth rfl rfl, hboth rfl rfl, hboth rfl rfl, hboth rfl rfl, hboth rfl rfl, hboth rfl rfl, hboth rfl rfl⟩

/-- Settles O6: a header refuses every other number of operand words than its k. -/
theorem wrongOperandCountRefused : Obligations.WrongOperandCountRefused := by
  intro nInst w h os hd hcount
  refine ⟨decode_eq_operandCount hd fun hn => hcount ?_, rfl⟩
  rw [← (word_of_decodeHeader hd).1, operandCount?_word, hn]

/-- Settles O9: what a block of 16 banks decodes from the row, the hardware decodes where the bank exists. -/
theorem placedWordIsTheNextCommand : Obligations.PlacedWordIsTheNextCommand := by
  intro s nbits w i htable hwf
  have hdecode : decode 16 (tableWords nbits w) = .ok i := by
    unfold decodeTableWord at htable
    split at htable <;> cases htable
    assumption
  exact stepRunsTheDecodedCommand _ _ _ i rfl (decode_eq_ok_iff.mpr ⟨(decode_eq_ok_iff.mp hdecode).1, hwf⟩)

/-- Settles O4: each row's mask is read field by field; the rows' matches differ where both their masks look. -/
theorem opcodeMapByMatchAndMask : Obligations.OpcodeMapByMatchAndMask := by
  intro nInst w
  have hrow {mask mtch : Word} {h : Header} (hinst : h.inst = instField w) (hm : w &&& mask = mtch ↔ h.word = w) :
      (w &&& mask = mtch ∧ (instField w).toNat < nInst) ↔ decodeHeader nInst w = .ok h := by
    rw [decodeHeader_eq_ok_iff, hinst, hm]
  refine ⟨hrow rfl (makerMask_iff w 0 1), hrow rfl (makerMask_iff w 1 1), hrow rfl (makerMask_iff w 2 1),
    hrow rfl (makerMask_iff w 3 1), hrow rfl (makerMask_iff w 4 1), hrow rfl (makerMask_iff w 0 2),
    hrow rfl (makerMask_iff w 1 2), hrow rfl (procaMask_iff w), hrow rfl (procbMask_iff w 4),
    hrow rfl (procbMask_iff w 5), ?_⟩
  refine List.Pairwise.imp (R := fun r r' => r.2 &&& r'.1 ≠ r'.2 &&& r.1) ?_ (by decide)
  rintro r r' hne ⟨h, h'⟩
  exact hne (masks_agree h h')

/-- Settles O5, clause by clause in the order of the checks. -/
theorem reservedWordsRefusedInOrder : Obligations.ReservedWordsRefusedInOrder := by
  intro nInst w os op sub mask inst ramp rsv reserved
  have hrsv : rsv = 0 ↔ rsvField w = 0 := (BitVec.toNat_eq (y := 0)).symm
  refine ⟨fun h => decode_eq_error (decodeHeader_of_rsv (mt hrsv.mpr h)),
    fun h hb => decode_eq_error (decodeHeader_of_inst (hrsv.mp h) hb), fun h hb hres => ?_, fun h hb hres hlen => ?_⟩
  · obtain ⟨-, herr⟩ | ⟨hnot, -⟩ := decodeHeader_of_fields (hrsv.mp h) hb
    · exact decode_eq_error herr
    · exact absurd hres hnot
  · obtain ⟨hyes, -⟩ | ⟨-, hd, hok⟩ := decodeHeader_of_fields (hrsv.mp h) hb
    · exact absurd hyes hres
    · have hcount : os.length = hd.operandCount := by
        rw [operandCount_eq, (word_of_decodeHeader hok).1]
        exact hlen
      obtain ⟨i, hi⟩ := Option.ne_none_iff_exists'.mp (mt withOperands_eq_none_iff.mp (not_not.mpr hcount))
      exact ⟨i, decode_eq_of_header hok hi⟩

/-- Settles O8: the step is the command input, refused with what the decoder answers. -/
theorem stepRefusesUndecodableCommands : Obligations.StepRefusesUndecodableCommands := by
  intro p s ws rest hp
  have hrefused {e : DecodeError} (he : decode p.nInst ws = .error e) : stepWith p s = .refused (refusalOf e) := by
    simp only [stepWith, performNext, hp, perform, command_of_decode_error he]
  exact ⟨by rw [step, stepWith, execWith_hw], hrefused, hrefused, hrefused⟩

/-- Settles O48: the 32 inputs are ST_WRs of +0.0 to exactly the register words of the bank. -/
theorem clrrSilencesTheBank : Obligations.ClrrSilencesTheBank := by
  intro b s rest ins hb hins
  obtain rfl : (clrrWords b).map clearWord = ins := by
    simpa [assemble, hb.trans_le (nInst_le _)] using hins
  obtain ⟨t, hrun, hmem, hsr, hsrInv, hnf, hpending⟩ := run_clearWords (ws := clrrWords b) (rest := rest)
    (s := { s with pending := (clrrWords b).map clearWord ++ rest }) (fun w hw => (mem_clrrWords.mp hw).2 ▸ hb) rfl
  have hkeys : ((clrrWords b).map fun w => (w, (0 : Word))).map Prod.fst = clrrWords b := by
    simp [Function.comp_def]
  refine ⟨t, hrun, fun j l => ?_, fun w hw => ?_, hsr, hsrInv, hnf, hpending⟩
  · rw [hmem]
    exact word_setAll_of_unique (List.mem_map_of_mem (mem_clrrWords.mpr ⟨rfl, rfl⟩)) (by simp)
  · rw [hmem, word_setAll_notMem (by rwa [hkeys, mem_clrrWords])]

end Sys2Proof.Proofs
end

section
/-! Rounding to nearest (40_numerics.md R150): the grid of the finite magnitudes, `roundMag` as the nearest point of
that grid with ties to even, and what the operations on finite operands make of it. -/

namespace Sys2Proof.Machine
open Sys2Proof.Stated

/-! ### The grid of the magnitudes -/

/-- The bits `k * 2^23 + m` are those of `m` steps of `2^k` units; at `m = 2^24` the next binade begins. -/
theorem unitsOfMag_grid {k m : Nat} (hk : k = 0 ∨ 2 ^ 23 ≤ m) (hm : m ≤ 2 ^ 24) :
    unitsOfMag (k * 2 ^ 23 + m) = m * 2 ^ k := by
  unfold unitsOfMag
  obtain hsmall | hbinade | rfl : m < 2 ^ 23 ∨ (2 ^ 23 ≤ m ∧ m < 2 ^ 24) ∨ m = 2 ^ 24 := by omega
  · obtain rfl : k = 0 := by omega
    rw [zero_mul, zero_add, if_pos hsmall, pow_zero, mul_one]
  · have hdiv : (k * 2 ^ 23 + m) / 2 ^ 23 - 1 = k := by omega
    have hmod : (k * 2 ^ 23 + m) % 2 ^ 23 + 2 ^ 23 = m := by omega
    rw [if_neg (by omega), hdiv, hmod]
  · have hdiv : (k * 2 ^ 23 + 2 ^ 24) / 2 ^ 23 - 1 = k + 1 := by omega
    have hmod : (k * 2 ^ 23 + 2 ^ 24) % 2 ^ 23 + 2 ^ 23 = 2 ^ 23 := by omega
    rw [if_neg (by omega), hdiv, hmod]
    ring

/-- Every magnitude is a step of its binade. -/
theorem exists_grid (M : Nat) : ∃ k m, M = k * 2 ^ 23 + m ∧ (k = 0 ∨ 2 ^ 23 ≤ m) ∧ m < 2 ^ 24 := by
  by_cases h : M < 2 ^ 24
  · exact ⟨0, M, by omega, .inl rfl, h⟩
  · exact ⟨M / 2 ^ 23 - 1, M % 2 ^ 23 + 2 ^ 23, by omega, by omega, by omega⟩

theorem unitsOfMag_strictMono : StrictMono unitsOfMag := by
  refine strictMono_nat_of_lt_succ fun M => ?_
  obtain ⟨k, m, rfl, hk, hm⟩ := exists_grid M
  rw [unitsOfMag_grid hk hm.le, add_assoc, unitsOfMag_grid (by omega) hm]
  exact Nat.mul_lt_mul_of_pos_right m.lt_succ_self (by positivity)

@[simp] theorem unitsOfMag_eq_zero {m : Nat} : unitsOfMag m = 0 ↔ m = 0 :=
  unitsOfMag_strictMono.injective.eq_iff' (by decide)

/-! ### `roundNat` -/

/-- `roundNat n d` is off by half a `d` at most, and even where it is off by just that. -/
theorem roundNat_error {n d : Nat} (hd : 0 < d) :
    2 * |(roundNat n d * d : Int) - n| ≤ d ∧ (2 * |(roundNat n d * d : Int) - n| = d → roundNat n d % 2 = 0) := by
  have hn : (n : Int) = d * (n / d : Nat) + (n % d : Nat) := by exact_mod_cast (Nat.div_add_mod n d).symm
  have hr : n % d < d := Nat.mod_lt n hd
  simp only [roundNat]
  generalize n / d = q at *
  generalize n % d = r at *
  have hdown : (q * d : Int) - n = -r := by rw [hn]; ring
  have hup : ((q + 1 : Nat) * d : Int) - n = d - r := by rw [hn]; push_cast; ring
  split_ifs with hlt hgt
  · rw [hdown, abs_neg, Nat.abs_cast]; omega
  · rw [hup, abs_of_nonneg (by omega)]; omega
  · obtain hq | hq := Nat.mod_two_eq_zero_or_one q <;> rw [hq]
    · rw [add_zero, hdown, abs_neg, Nat.abs_cast]; omega
    · rw [hup, abs_of_nonneg (by omega)]; omega

/-- No multiple of `d` is nearer to `n` than `roundNat n d * d`, and another is as near only on a tie. -/
theorem roundNat_nearest {n d : Nat} (hd : 0 < d) (j : Nat) :
    |(roundNat n d * d : Int) - n| ≤ |(j * d : Int) - n| ∧
      (j ≠ roundNat n d → |(roundNat n d * d : Int) - n| = |(j * d : Int) - n| → roundNat n d % 2 = 0) := by
  obtain ⟨hhalf, heven⟩ := roundNat_error (n := n) hd
  obtain rfl | hj := eq_or_ne j (roundNat n d)
  · simp
  have hapart : (d : Int) ≤ |(j * d : Int) - n| + |(roundNat n d * d : Int) - n| := by
    have hstep : (1 : Int) ≤ |(j : Int) - roundNat n d| := Int.one_le_abs (by omega)
    calc (d : Int) ≤ |(j : Int) - roundNat n d| * d := le_mul_of_one_le_left (by omega) hstep
      _ = |((j * d : Int) - n) - (roundNat n d * d - n)| := by
        rw [← abs_of_nonneg (Int.natCast_nonneg d), ← abs_mul, abs_of_nonneg (Int.natCast_nonneg d)]; ring_nf
      _ ≤ _ := abs_sub _ _
  exact ⟨by omega, fun _ heq => heven (by omega)⟩

theorem roundNat_of_dvd {n d : Nat} (hd : 0 < d) (h : d ∣ n) : roundNat n d = n / d := by
  simp [roundNat, Nat.mod_eq_zero_of_dvd h, hd]

theorem div_le_roundNat (n d : Nat) : n / d ≤ roundNat n d := by
  simp only [roundNat]
  split_ifs <;> omega

theorem roundNat_le_div_succ (n d : Nat) : roundNat n d ≤ n / d + 1 := by
  simp only [roundNat]
  split_ifs <;> omega

/-! ### `roundMag` before it overflows -/

/-- The binades between the lowest two and the one of `n / d`. -/
def binade (n d : Nat) : Nat := Nat.log2 (n / d) - 23

/-- The significand of `n / d`, rounded to a whole number of the steps of its binade. -/
def significand (n d : Nat) : Nat := roundNat n (d * 2 ^ binade n d)

/-- `roundMag` with no largest magnitude. -/
def roundGrid (n d : Nat) : Nat := binade n d * 2 ^ 23 + significand n d

theorem roundMag_eq_min (n d : Nat) : roundMag n d = min (roundGrid n d) infMag := rfl

/-- Above the lowest two binades `n / d` is `2^23` steps of its binade at least. -/
theorem binade_floor (n d : Nat) : binade n d = 0 ∨ 2 ^ 23 ≤ n / (d * 2 ^ binade n d) := by
  unfold binade
  rw [← Nat.div_div_eq_div_mul]
  generalize n / d = q
  obtain h | h := Nat.le_total (Nat.log2 q) 23
  · exact .inl (by omega)
  · right
    have hq : q ≠ 0 := by rintro rfl; simp at h
    rw [Nat.le_div_iff_mul_le (by positivity), ← pow_add, Nat.add_sub_cancel' h]
    exact Nat.log2_self_le hq

theorem binade_ceil (n d : Nat) : n / (d * 2 ^ binade n d) < 2 ^ 24 := by
  unfold binade
  rw [← Nat.div_div_eq_div_mul, Nat.div_lt_iff_lt_mul (by positivity), ← pow_add]
  exact Nat.lt_log2_self.trans_le (Nat.pow_le_pow_right (by decide) (by omega))

theorem significand_floor (n d : Nat) : binade n d = 0 ∨ 2 ^ 23 ≤ significand n d :=
  (binade_floor n d).imp_right fun h => h.trans (div_le_roundNat _ _)

theorem significand_ceil (n d : Nat) : significand n d ≤ 2 ^ 24 :=
  (roundNat_le_div_succ _ _).trans (binade_ceil n d)

theorem unitsOfMag_roundGrid (n d : Nat) : unitsOfMag (roundGrid n d) = significand n d * 2 ^ binade n d :=
  unitsOfMag_grid (significand_floor n d) (significand_ceil n d)

theorem roundGrid_mod_two (n d : Nat) : roundGrid n d % 2 = significand n d % 2 := by
  unfold roundGrid; omega

/-- `r` is a magnitude nearest to `n / d` units, and even where another is as near. -/
def NearestEven (r n d : Nat) : Prop :=
  ∀ c, |(unitsOfMag r * d : Int) - n| ≤ |(unitsOfMag c * d : Int) - n| ∧
    (c ≠ r → |(unitsOfMag r * d : Int) - n| = |(unitsOfMag c * d : Int) - n| → r % 2 = 0)

/-- Rounding in the binade of `n / d` is rounding among all magnitudes: from its binade on these are multiples of
its step, and the ones below are further away than its first. -/
theorem roundGrid_nearestEven {n d : Nat} (hd : 0 < d) : NearestEven (roundGrid n d) n d := by
  intro c
  have hD : 0 < d * 2 ^ binade n d := by positivity
  have hr : (unitsOfMag (roundGrid n d) * d : Int) = significand n d * (d * 2 ^ binade n d : Nat) := by
    rw [unitsOfMag_roundGrid]; push_cast; ring
  rw [hr, roundGrid_mod_two]
  obtain ⟨k, m, rfl, hk, hm⟩ := exists_grid c
  have hc : unitsOfMag (k * 2 ^ 23 + m) = m * 2 ^ k := unitsOfMag_grid hk hm.le
  obtain hle | hlt := le_or_gt (binade n d) k
  · have hc' : (unitsOfMag (k * 2 ^ 23 + m) * d : Int) =
        (m * 2 ^ (k - binade n d) : Nat) * (d * 2 ^ binade n d : Nat) := by
      rw [hc]; push_cast; rw [← pow_sub_mul_pow (2 : Int) hle]; ring
    obtain ⟨hnear, heven⟩ := roundNat_nearest (n := n) hD (m * 2 ^ (k - binade n d))
    rw [hc']
    refine ⟨hnear, fun hne => heven fun heq => hne ?_⟩
    apply unitsOfMag_strictMono.injective
    rw [hc, unitsOfMag_roundGrid, significand, ← heq, mul_assoc, pow_sub_mul_pow 2 hle]
  · have hfirst := (roundNat_nearest (n := n) hD (2 ^ 23)).1
    have hbelow : (2 ^ 23 * (d * 2 ^ binade n d) : Nat) ≤ n :=
      (Nat.le_div_iff_mul_le hD).mp ((binade_floor n d).resolve_left (by omega))
    have hcbelow : m * 2 ^ k * d < 2 ^ 23 * (d * 2 ^ binade n d) := by
      calc m * 2 ^ k * d < 2 ^ 24 * 2 ^ k * d := by gcongr
        _ = 2 ^ 23 * (d * 2 ^ (k + 1)) := by ring
        _ ≤ 2 ^ 23 * (d * 2 ^ binade n d) := by gcongr <;> omega
    have hfar : |(significand n d * (d * 2 ^ binade n d : Nat) : Int) - n| <
        |(unitsOfMag (k * 2 ^ 23 + m) * d : Int) - n| := by
      refine hfirst.trans_lt ?_
      rw [hc]
      zify at hbelow hcbelow
      push_cast
      rw [abs_of_nonpos (by linarith), abs_of_nonpos (by linarith)]
      linarith
    exact ⟨hfar.le, fun _ heq => absurd heq hfar.ne⟩

/-- A ratio that is a whole number of the steps of its binade is rounded to itself. -/
theorem unitsOfMag_roundGrid_of_dvd {n d : Nat} (hd : 0 < d) (h : d * 2 ^ binade n d ∣ n) :
    unitsOfMag (roundGrid n d) * d = n := by
  rw [unitsOfMag_roundGrid, significand, roundNat_of_dvd (by positivity) h, mul_assoc, mul_comm _ d,
    Nat.div_mul_cancel h]

/-! ### Overflow -/

/-- Which of two numbers is nearer is told by their midpoint. -/
theorem abs_sub_le_abs_sub_iff_midpoint {a b n : Int} (hab : a < b) :
    (|a - n| ≤ |b - n| ↔ 2 * n ≤ a + b) ∧ (|b - n| ≤ |a - n| ↔ a + b ≤ 2 * n) := by
  obtain ⟨ha, ha'⟩ | ⟨ha, ha'⟩ := abs_cases (a - n) <;>
    obtain ⟨hb, hb'⟩ | ⟨hb, hb'⟩ := abs_cases (b - n) <;> omega

/-- The largest finite magnitude, the overflow midpoint and what an infinity stands for are `2^252` units apart. -/
theorem unitsOfMag_around_overflow :
    unitsOfMag (infMag - 1) = (2 ^ 25 - 2) * 2 ^ 252 ∧ 2 ^ 277 - 2 ^ 252 = (2 ^ 25 - 1) * 2 ^ 252 ∧
      unitsOfMag infMag = 2 ^ 25 * 2 ^ 252 := by
  decide +kernel

/-- The overflow begins at the midpoint, since the largest finite magnitude is odd. -/
theorem infMag_le_roundGrid_iff {n d : Nat} (hd : 0 < d) :
    infMag ≤ roundGrid n d ↔ (2 ^ 277 - 2 ^ 252) * d ≤ n := by
  have hnear := roundGrid_nearestEven (n := n) hd
  simp only [NearestEven, ← Nat.cast_mul] at hnear
  have hmono {a b : Nat} (h : a ≤ b) : unitsOfMag a * d ≤ unitsOfMag b * d :=
    Nat.mul_le_mul_right d (unitsOfMag_strictMono.monotone h)
  obtain ⟨hmax, hmid, hinf⟩ := unitsOfMag_around_overflow
  obtain ⟨X, hX⟩ : ∃ X, X = 2 ^ 252 * d := ⟨_, rfl⟩
  have hX0 : 0 < X := by rw [hX]; positivity
  have hmaxd : unitsOfMag (infMag - 1) * d = (2 ^ 25 - 2) * X := by rw [hmax, hX, mul_assoc]
  have hinfd : unitsOfMag infMag * d = 2 ^ 25 * X := by rw [hinf, hX, mul_assoc]
  rw [hmid, mul_assoc, ← hX]
  constructor
  · intro h
    have hr := hmono h
    have hmidpoint := (abs_sub_le_abs_sub_iff_midpoint (by omega)).2.mp (hnear (infMag - 1)).1
    omega
  · intro h
    by_contra hlt
    have hr := hmono (Nat.le_sub_one_of_lt (not_le.mp hlt))
    obtain ⟨hnearInf, heven⟩ := hnear infMag
    obtain ⟨hlower, hupper⟩ := abs_sub_le_abs_sub_iff_midpoint (n := n)
      (show ((unitsOfMag (roundGrid n d) * d : Nat) : Int) < (unitsOfMag infMag * d : Nat) by omega)
    have hmidpoint := hlower.mp hnearInf
    have hlargest : roundGrid n d = infMag - 1 := by
      refine unitsOfMag_strictMono.injective (Nat.eq_of_mul_eq_mul_right hd ?_)
      omega
    have htie : roundGrid n d % 2 = 0 := heven (by omega) (le_antisymm hnearInf (hupper.mpr (by omega)))
    rw [hlargest] at htie
    exact absurd htie (by decide)

theorem roundMag_eq_infMag_iff {n d : Nat} (hd : 0 < d) :
    roundMag n d = infMag ↔ (2 ^ 277 - 2 ^ 252) * d ≤ n := by
  rw [roundMag_eq_min, min_eq_right_iff, infMag_le_roundGrid_iff hd]

theorem roundMag_lt_infMag_iff {n d : Nat} (hd : 0 < d) :
    roundMag n d < infMag ↔ n < (2 ^ 277 - 2 ^ 252) * d := by
  rw [(roundMag_le n d).lt_iff_ne, Ne, roundMag_eq_infMag_iff hd, not_le]

theorem roundMag_eq_roundGrid {n d : Nat} (h : roundMag n d < infMag) : roundMag n d = roundGrid n d := by
  rw [roundMag_eq_min] at h ⊢
  omega

theorem roundMag_nearestEven {n d : Nat} (hd : 0 < d) (h : roundMag n d < infMag) :
    NearestEven (roundMag n d) n d := by
  rw [roundMag_eq_roundGrid h]
  exact roundGrid_nearestEven hd

/-! ### Signed results -/

/-- `n` with a sign. -/
def signed (s : Bool) (n : Nat) : Int := if s then -(n : Int) else n

theorem signedUnits_eq (w : Word) : signedUnits w = signed (signOf w) (unitsOfMag (magOf w)) := rfl

@[simp] theorem abs_signed (s : Bool) (n : Nat) : |signed s n| = n := by cases s <;> simp [signed]

theorem signed_mul (s t : Bool) (m n : Nat) : signed s m * signed t n = signed (s != t) (m * n) := by
  cases s <;> cases t <;> simp [signed]

theorem signed_mul_natCast (s : Bool) (m n : Nat) : signed s m * (n : Int) = signed s (m * n) := by
  cases s <;> simp [signed]

@[simp] theorem signed_zero (s : Bool) : signed s 0 = 0 := by cases s <;> rfl

theorem signed_natAbs (x : Int) (s : Bool) : signed (if x = 0 then s else decide (x < 0)) x.natAbs = x := by
  obtain hneg | rfl | hpos := lt_trichotomy x 0
  · rw [if_neg hneg.ne, decide_eq_true hneg]
    simp only [signed, if_true]
    omega
  · simp
  · rw [if_neg hpos.ne', decide_eq_false hpos.not_gt]
    simp only [signed, Bool.false_eq_true, if_false]
    omega

/-- Two numbers of one sign are as far apart as their magnitudes. -/
theorem abs_signed_sub_signed (s : Bool) (m n : Nat) : |signed s m - signed s n| = |(m : Int) - n| := by
  cases s
  · rfl
  · rw [← abs_neg]; simp [signed]; ring_nf

/-- Two numbers of different signs are as far apart as their magnitudes' sum. -/
theorem abs_signed_sub_signed_of_ne {s t : Bool} (h : s ≠ t) (m n : Nat) : |signed s m - signed t n| = m + n := by
  obtain rfl : t = !s := by cases s <;> cases t <;> simp at h ⊢
  cases s
  · simpa [signed] using abs_of_nonneg (by positivity : (0 : Int) ≤ m + n)
  · rw [← abs_neg]
    simpa [signed, add_comm] using abs_of_nonneg (by positivity : (0 : Int) ≤ m + n)

/-- Two numbers of any signs are at least as far apart as their magnitudes. -/
theorem abs_sub_le_abs_signed_sub_signed (s t : Bool) (m n : Nat) : |(m : Int) - n| ≤ |signed s m - signed t n| := by
  simpa using abs_abs_sub_abs_le_abs_sub (signed s m) (signed t n)

/-- The distance of a finite word to a signed ratio is at least that of its magnitude. -/
theorem abs_unitsOfMag_sub_le (c : Word) (s : Bool) (n d : Nat) :
    |(unitsOfMag (magOf c) * d : Int) - n| ≤ |signedUnits c * d - signed s n| := by
  rw [signedUnits_eq, signed_mul_natCast, ← Nat.cast_mul]
  exact abs_sub_le_abs_signed_sub_signed _ _ _ _

/-- Of a word with the ratio's sign the distance is that of its magnitude. -/
theorem abs_unitsOfMag_sub_eq {c : Word} {s : Bool} (h : signOf c = s) (n d : Nat) :
    |signedUnits c * d - signed s n| = |(unitsOfMag (magOf c) * d : Int) - n| := by
  rw [signedUnits_eq, h, signed_mul_natCast, ← Nat.cast_mul, abs_signed_sub_signed]

theorem isFinite_pack_roundMag (s : Bool) (n d : Nat) :
    isFinite (pack s (roundMag n d)) = true ↔ roundMag n d < infMag := by
  rw [isFinite_iff, magOf_pack_roundMag]

theorem signOf_pack_roundMag (s : Bool) (n d : Nat) : signOf (pack s (roundMag n d)) = s :=
  signOf_pack ((roundMag_le n d).trans_lt (by decide))

theorem overflowUnits_eq : overflowUnits = ((2 ^ 277 - 2 ^ 252 : Nat) : Int) := by decide +kernel

/-- The magnitude of a signed ratio rounded, with its sign, is the ratio rounded to nearest. -/
theorem nearestTo_pack_roundMag (s : Bool) (n : Nat) {d : Nat} (hd : 0 < d) :
    NearestTo (pack s (roundMag n d)) (signed s n) d := by
  refine ⟨?_, fun hfin c _ => ?_⟩
  · rw [isFinite_pack_roundMag, roundMag_lt_infMag_iff hd, abs_signed, overflowUnits_eq]
    exact_mod_cast Iff.rfl
  · rw [abs_unitsOfMag_sub_eq (signOf_pack_roundMag s n d), magOf_pack_roundMag]
    rw [isFinite_pack_roundMag] at hfin
    exact ((roundMag_nearestEven hd hfin _).1).trans (abs_unitsOfMag_sub_le c s n d)

/-- Another finite word as near has another magnitude, or the ratio is zero. -/
theorem roundedEdges_pack_roundMag (s : Bool) (n : Nat) {d : Nat} (hd : 0 < d) :
    RoundedEdges (pack s (roundMag n d)) (signed s n) d s := by
  refine ⟨fun h => ?_, fun hfin c _ hne heq => ?_, signOf_pack_roundMag s n d⟩
  · rw [isInf_iff, magOf_pack_roundMag, roundMag_eq_infMag_iff hd]
    rw [abs_signed, overflowUnits_eq] at h
    exact_mod_cast h
  · rw [isFinite_pack_roundMag] at hfin
    rw [abs_unitsOfMag_sub_eq (signOf_pack_roundMag s n d)] at heq
    rw [magOf_pack_roundMag] at heq ⊢
    obtain ⟨hnear, heven⟩ := roundMag_nearestEven hd hfin (magOf c)
    have hle := abs_unitsOfMag_sub_le c s n d
    by_cases hmag : magOf c = roundMag n d
    · have hs : signOf c ≠ s := fun hs =>
        hne (by rw [signedUnits_eq, signedUnits_eq, hs, hmag, signOf_pack_roundMag, magOf_pack_roundMag])
      rw [signedUnits_eq, signed_mul_natCast, hmag, abs_signed_sub_signed_of_ne hs, ← Nat.cast_mul] at heq
      have hzero : unitsOfMag (roundMag n d) * d = 0 ∨ n = 0 := by
        obtain ⟨ha, -⟩ | ⟨ha, -⟩ := abs_cases (((unitsOfMag (roundMag n d) * d : Nat) : Int) - n) <;> omega
      obtain hzero | rfl := hzero
      · simp [hd.ne'] at hzero
        simp [hzero]
      · simp [roundMag, roundNat]
    · exact heven hmag (le_antisymm hnear (heq ▸ hle))

/-- R150 of a result: `r` is num/den units rounded to nearest, with its ties, its overflow and its sign `neg`. -/
def RoundedRatio (r : Word) (num den : Int) (neg : Bool) : Prop :=
  NearestTo r num den ∧ RoundedEdges r num den neg

theorem roundedRatio_pack_roundMag (s : Bool) (n : Nat) {d : Nat} (hd : 0 < d) :
    RoundedRatio (pack s (roundMag n d)) (signed s n) d s :=
  ⟨nearestTo_pack_roundMag s n hd, roundedEdges_pack_roundMag s n hd⟩

/-! ### The operations on finite operands, without flushing -/

theorem signedUnits_eq_zero {w : Word} : signedUnits w = 0 ↔ magOf w = 0 := by
  rw [signedUnits_eq, ← abs_eq_zero, abs_signed, Int.natCast_eq_zero, unitsOfMag_eq_zero]

theorem abs_signedUnits (w : Word) : |signedUnits w| = unitsOfMag (magOf w) := abs_signed _ _

theorem sign_signed {n : Nat} (s : Bool) (h : n ≠ 0) : (signed s n).sign = signed s 1 := by
  cases s <;> simp [signed, Int.sign_eq_one_of_pos, Nat.pos_of_ne_zero h]

/-- The sign of an exact sum: of a zero one negative only where both terms are. -/
def sumSign (a b : Word) : Bool :=
  if signedUnits a + signedUnits b = 0 then signOf a && signOf b else decide (signedUnits a + signedUnits b < 0)

section Ieee
variable {fp : Fp} {a b : Word} (hf : fp.ftz = false) (ha : isFinite a = true) (hb : isFinite b = true)
include hf ha hb

theorem addRead_of_finite (k : Nat) :
    addRead fp k a b = pack (sumSign a b) (roundMag (signedUnits a + signedUnits b).natAbs 1) := by
  simp only [addRead, sumSign, not_isNaN_of_isFinite, not_isInf_of_isFinite, ha, hb, flush_ieee hf, Bool.or_self,
    Bool.false_eq_true, if_false]
  split_ifs with hzero hs
  · rw [hzero, hs]; decide
  · rw [hzero, eq_false_of_ne_true hs]; decide
  · rfl

theorem addRead_roundedRatio (k : Nat) :
    RoundedRatio (addRead fp k a b) (signedUnits a + signedUnits b) 1 (sumSign a b) := by
  have hsum : signed (sumSign a b) (signedUnits a + signedUnits b).natAbs = signedUnits a + signedUnits b :=
    signed_natAbs _ _
  rw [addRead_of_finite hf ha hb]
  simpa only [hsum, Nat.cast_one] using
    roundedRatio_pack_roundMag (sumSign a b) (signedUnits a + signedUnits b).natAbs one_pos

theorem mulRead_roundedRatio (k : Nat) :
    RoundedRatio (mulRead fp k a b) (signedUnits a * signedUnits b) (2 ^ 149) (signOf a != signOf b) := by
  simp only [mulRead, not_isNaN_of_isFinite, not_isInf_of_isFinite, ha, hb, flush_ieee hf, Bool.or_self,
    Bool.false_eq_true, if_false]
  rw [signedUnits_eq, signedUnits_eq, signed_mul]
  exact_mod_cast roundedRatio_pack_roundMag _ _ (by positivity)

theorem divRead_roundedRatio (k : Nat) (hb0 : signedUnits b ≠ 0) :
    RoundedRatio (divRead fp k a b) (signedUnits a * 2 ^ 149 * (signedUnits b).sign) |signedUnits b|
      (signOf a != signOf b) := by
  have hmag : magOf b ≠ 0 := mt signedUnits_eq_zero.mpr hb0
  have hunits : unitsOfMag (magOf b) ≠ 0 := mt unitsOfMag_eq_zero.mp hmag
  have hz : isZero b = false := by simpa [isZero] using hmag
  have hnum : signedUnits a * 2 ^ 149 * (signedUnits b).sign =
      signed (signOf a != signOf b) (unitsOfMag (magOf a) * 2 ^ 149) := by
    rw [signedUnits_eq a, signedUnits_eq b, sign_signed _ hunits]
    rw [show (2 ^ 149 : Int) = (2 ^ 149 : Nat) by norm_cast, signed_mul_natCast, signed_mul, mul_one]
  rw [hnum, abs_signedUnits]
  simp only [divRead, not_isNaN_of_isFinite, not_isInf_of_isFinite, ha, hb, hz, flush_ieee hf, Bool.or_self,
    Bool.false_eq_true, if_false]
  exact roundedRatio_pack_roundMag _ _ (Nat.pos_of_ne_zero hunits)

end Ieee

/-- Without flushing, each operation on finite operands is its exact result rounded. -/
theorem operations_roundedRatio {fp : Fp} {a b : Word} (hf : fp.ftz = false) (k : Nat) (ha : isFinite a = true)
    (hb : isFinite b = true) :
    RoundedRatio (fp.add k a b) (signedUnits a + signedUnits b) 1 (sumSign a b) ∧
    RoundedRatio (fp.sub k a b) (signedUnits a - signedUnits b) 1 (sumSign a (fneg b)) ∧
    RoundedRatio (fp.mul k a b) (signedUnits a * signedUnits b) (2 ^ 149) (signOf a != signOf b) ∧
    (signedUnits b ≠ 0 → RoundedRatio (fp.div k a b) (signedUnits a * 2 ^ 149 * (signedUnits b).sign)
      |signedUnits b| (signOf a != signOf b)) := by
  simp only [Fp.add, Fp.sub, Fp.mul, Fp.div, flush_ieee hf]
  refine ⟨addRead_roundedRatio hf ha hb k, ?_, mulRead_roundedRatio hf ha hb k, divRead_roundedRatio hf ha hb k⟩
  simpa only [signedUnits_fneg, ← sub_eq_add_neg] using addRead_roundedRatio hf ha ((isFinite_fneg b).trans hb) k

end Sys2Proof.Machine

namespace Sys2Proof.Proofs
open Sys2Proof.Machine Sys2Proof.Stated

/-- Settles O50: each operation's result is its exact ratio rounded. -/
theorem operationsRoundToNearest : Obligations.OperationsRoundToNearest := by
  intro fp k a b hf ha hb
  obtain ⟨hadd, hsub, hmul, hdiv⟩ := operations_roundedRatio hf k ha hb
  exact ⟨hadd.1, hsub.1, hmul.1, fun h => (hdiv h).1⟩

/-- Settles O51: the ties and the overflow of `roundMag`, and the edges of each operation's result. -/
theorem tiesGoToEvenAndOverflowToInfinity : Obligations.TiesGoToEvenAndOverflowToInfinity := by
  refine ⟨fun n d hd => ⟨fun m _ hfin hne heq => ?_, roundMag_eq_infMag_iff hd⟩, fun fp k a b hf ha hb => ?_⟩
  · exact (roundMag_nearestEven hd hfin m).2 hne heq.symm
  · obtain ⟨hadd, hsub, hmul, hdiv⟩ := operations_roundedRatio hf k ha hb
    refine ⟨hadd.2, ?_, hmul.2, fun h => (hdiv h).2⟩
    simpa only [sumSign, signedUnits_fneg, signOf_fneg, ← sub_eq_add_neg] using hsub.2

end Sys2Proof.Proofs
end

section
/-! The subnormal modes and the special operands (40_numerics.md R150, R152, R153). -/

namespace Sys2Proof.Machine

/-! ### Flushing (R152) -/

theorem not_isNaN_of_isInf {w : Word} (h : isInf w = true) : isNaN w = false := by
  simp [isInf, isNaN] at *; omega

theorem flush_of_infMag_le {w : Word} (fp : Fp) (h : infMag ≤ magOf w) : fp.flush w = w := by
  apply flush_of_not_isSubnormal
  simp [isSubnormal, infMag] at *
  omega

theorem flush_of_isNaN {w : Word} (fp : Fp) (h : isNaN w = true) : fp.flush w = w :=
  flush_of_infMag_le fp (isNaN_iff.mp h).le

theorem flush_of_isInf {w : Word} (fp : Fp) (h : isInf w = true) : fp.flush w = w :=
  flush_of_infMag_le fp (isInf_iff.mp h).ge

theorem isZero_iff {w : Word} : isZero w = true ↔ magOf w = 0 := by simp [isZero]

theorem flush_of_isZero {w : Word} (fp : Fp) (h : isZero w = true) : fp.flush w = w :=
  flush_of_not_isSubnormal (by simp [isSubnormal, isZero_iff.mp h])

theorem isFinite_of_isZero {w : Word} (h : isZero w = true) : isFinite w = true := by
  rw [isFinite_iff, isZero_iff.mp h]
  decide

theorem not_isZero_of_isInf {w : Word} (h : isInf w = true) : isZero w = false := by
  simp [isZero, isInf_iff.mp h, infMag]

theorem isZero_flush_of_isSubnormal {fp : Fp} {w : Word} (hf : fp.ftz = true) (h : isSubnormal w = true) :
    isZero (fp.flush w) = true := by
  rw [Fp.flush, if_pos (by simp [h, hf]), isZero_iff, magOf_and_signBit]

theorem magOf_flush (fp : Fp) (w : Word) :
    magOf (fp.flush w) = if isSubnormal w && fp.ftz then 0 else magOf w := by
  rw [Fp.flush, apply_ite magOf, magOf_and_signBit]

theorem flush_fneg (fp : Fp) (w : Word) : fp.flush (fneg w) = fneg (fp.flush w) := by
  refine word_ext (by simp) ?_
  rw [magOf_fneg, magOf_flush, magOf_flush]
  simp [isSubnormal]

/-- The same draws, without flushing. -/
def Fp.ieee (fp : Fp) : Fp := ⟨false, fp.nan⟩

@[simp] theorem flush_drawNaN (fp : Fp) (k : Nat) : fp.flush (fp.ieee.drawNaN k) = fp.drawNaN k :=
  flush_of_isNaN fp (isNaN_drawNaN fp k)

@[simp] theorem ieee_flush (fp : Fp) (w : Word) : fp.ieee.flush w = w := flush_ieee rfl w

theorem magOf_pack_infMag (s : Bool) : magOf (pack s infMag) = infMag := magOf_pack (by decide)

theorem isInf_pack_infMag (s : Bool) : isInf (pack s infMag) = true := isInf_iff.mpr (magOf_pack_infMag s)

theorem signOf_pack_infMag (s : Bool) : signOf (pack s infMag) = s := signOf_pack (by decide)

theorem isZero_pack_zero (s : Bool) : isZero (pack s 0) = true := isZero_iff.mpr (magOf_pack (by decide))

theorem flush_pack_infMag (fp : Fp) (s : Bool) : fp.flush (pack s infMag) = pack s infMag :=
  flush_of_infMag_le fp (magOf_pack_infMag s).ge

theorem flush_pack_zero (fp : Fp) (s : Bool) : fp.flush (pack s 0) = pack s 0 :=
  flush_of_isZero fp (isZero_pack_zero s)

/-- The mode changes a sum only by the flush of its result. -/
theorem addRead_eq_flush (fp : Fp) (k : Nat) (a b : Word) : addRead fp k a b = fp.flush (addRead fp.ieee k a b) := by
  simp only [addRead, ieee_flush]
  split_ifs with hnan ha hab hb hsum hs
  · simp
  · simp
  · exact (flush_of_isInf fp ha).symm
  · exact (flush_of_isInf fp hb).symm
  · exact (flush_of_isZero fp (by decide)).symm
  · exact (flush_of_isZero fp (by decide)).symm
  · rfl

theorem mulRead_eq_flush (fp : Fp) (k : Nat) (a b : Word) : mulRead fp k a b = fp.flush (mulRead fp.ieee k a b) := by
  simp only [mulRead, ieee_flush]
  split_ifs <;> simp only [flush_drawNaN, flush_pack_infMag]

theorem divRead_eq_flush (fp : Fp) (k : Nat) (a b : Word) : divRead fp k a b = fp.flush (divRead fp.ieee k a b) := by
  simp only [divRead, ieee_flush]
  split_ifs <;> simp only [flush_drawNaN, flush_pack_infMag, flush_pack_zero]

/-! ### NaN and infinite operands, and zeros (R150, R153) -/

section Special
variable {fp : Fp} {k : Nat} {a b : Word}

theorem addRead_of_isNaN (h : isNaN a = true ∨ isNaN b = true) : addRead fp k a b = fp.drawNaN k :=
  if_pos (by simpa using h)

theorem mulRead_of_isNaN (h : isNaN a = true ∨ isNaN b = true) : mulRead fp k a b = fp.drawNaN k :=
  if_pos (by simpa using h)

theorem divRead_of_isNaN (h : isNaN a = true ∨ isNaN b = true) : divRead fp k a b = fp.drawNaN k :=
  if_pos (by simpa using h)

theorem addRead_of_isInf (ha : isInf a = true) (hb : isNaN b = false) :
    addRead fp k a b = if isInf b && (signOf a != signOf b) then fp.drawNaN k else a := by
  simp [addRead, ha, hb, not_isNaN_of_isInf ha]

theorem addRead_of_isFinite_isInf (ha : isFinite a = true) (hb : isInf b = true) : addRead fp k a b = b := by
  simp [addRead, hb, not_isNaN_of_isInf hb, not_isNaN_of_isFinite ha, not_isInf_of_isFinite ha]

/-- Zero terms, or finite terms that cancel, add to a zero, negative only where both are. -/
theorem addRead_of_sum_eq_zero (ha : isFinite a = true) (hb : isFinite b = true)
    (h : signedUnits a + signedUnits b = 0) : addRead fp k a b = if signOf a && signOf b then 0x80000000 else 0 := by
  simp [addRead, ha, hb, h, not_isNaN_of_isFinite, not_isInf_of_isFinite]

theorem mulRead_of_isInf (h : isInf a = true ∨ isInf b = true) (ha : isNaN a = false) (hb : isNaN b = false) :
    mulRead fp k a b =
      if isZero a || isZero b then fp.drawNaN k else pack (signOf a != signOf b) infMag := by
  have : (isInf a || isInf b) = true := by simpa using h
  simp [mulRead, ha, hb, this]

theorem divRead_of_isInf (ha : isInf a = true) (hb : isNaN b = false) :
    divRead fp k a b = if isInf b then fp.drawNaN k else pack (signOf a != signOf b) infMag := by
  simp [divRead, ha, hb, not_isNaN_of_isInf ha]

theorem divRead_of_isFinite_isInf (ha : isFinite a = true) (hb : isInf b = true) :
    divRead fp k a b = pack (signOf a != signOf b) 0 := by
  simp [divRead, hb, not_isNaN_of_isInf hb, not_isNaN_of_isFinite ha, not_isInf_of_isFinite ha]

theorem divRead_of_isZero (ha : isFinite a = true) (hb : isZero b = true) :
    divRead fp k a b = if isZero a then fp.drawNaN k else pack (signOf a != signOf b) infMag := by
  simp [divRead, ha, hb, isFinite_of_isZero hb, not_isNaN_of_isFinite, not_isInf_of_isFinite]

end Special

end Sys2Proof.Machine

namespace Sys2Proof.Proofs
open Sys2Proof.Machine Sys2Proof.Stated

/-- Settles O53: the flush is one of subnormals only, and the mode changes each operation by a flush. -/
theorem denormModes : Obligations.DenormModes := by
  refine fun fp k a b => ⟨fun hf => ⟨fun w => ⟨isSubnormal_flush hf w, signOf_flush fp w,
    isZero_flush_of_isSubnormal hf, flush_of_not_isSubnormal⟩, ?_⟩, fun hf => flush_ieee hf a⟩
  have hieee (w : Word) : Fp.flush ⟨false, fp.nan⟩ w = w := ieee_flush fp w
  simp only [Fp.add, Fp.sub, Fp.mul, Fp.div, Fp.lt, Fp.ge, hieee, isNaN_flush, and_true]
  exact ⟨addRead_eq_flush fp k _ _, addRead_eq_flush fp k _ _, mulRead_eq_flush fp k _ _, divRead_eq_flush fp k _ _⟩

/-- Settles O52, clause by clause, on the operands as the mode reads them. -/
theorem specialOperands : Obligations.SpecialOperands := by
  intro fp k a b
  simp only [Fp.add, Fp.sub, Fp.mul, Fp.div]
  refine ⟨fun h => ?_, fun ha hb => ?_, fun ha hb => ?_, fun ha hb => ?_, fun ha hb hb0 => ?_, fun ha hb => ?_,
    fun ha hb => ?_, fun ha ha0 hb => ?_, fun ha => ?_⟩
  · simp [addRead_of_isNaN, mulRead_of_isNaN, divRead_of_isNaN, h]
  · have hna := not_isNaN_of_isInf ha
    have hnb := not_isNaN_of_isInf hb
    simp [addRead_of_isInf, divRead_of_isInf, apply_ite isNaN, ha, hb, hna, hnb, flush_of_isInf]
  · have hnb := not_isNaN_of_isInf hb
    refine ⟨fun hs => ?_, fun hs => ?_⟩ <;> simp [addRead_of_isInf, flush_of_isInf, ha, hb, hnb, hs]
  · have hnb := not_isNaN_of_isFinite hb
    have hib := not_isInf_of_isFinite hb
    simp [addRead_of_isInf, addRead_of_isFinite_isInf, divRead_of_isInf, divRead_of_isFinite_isInf, flush_of_isInf,
      ha, hb, hnb, hib, isInf_pack_infMag, signOf_pack_infMag, isZero_pack_zero]
  · have hna := not_isNaN_of_isInf ha
    have hza := not_isZero_of_isInf ha
    simp [mulRead_of_isInf, flush_of_isInf, ha, hna, hb, hza, hb0, isInf_pack_infMag, signOf_pack_infMag, bne_comm]
  · have hna := not_isNaN_of_isFinite (isFinite_of_isZero ha)
    have hnb := not_isNaN_of_isInf hb
    simp [mulRead_of_isInf, ha, hb, hnb, hna]
  · have hza := signedUnits_eq_zero.mpr (isZero_iff.mp ha)
    have hzb := signedUnits_eq_zero.mpr (isZero_iff.mp hb)
    rw [divRead_of_isZero (isFinite_of_isZero ha) hb, if_pos ha,
      addRead_of_sum_eq_zero (isFinite_of_isZero ha) (isFinite_of_isZero hb) (by rw [hza, hzb, add_zero]),
      signOf_flush, signOf_flush]
    cases signOf a <;> cases signOf b <;> simp <;> decide
  · have haf : isFinite (fp.flush a) = true := by simpa using ha
    simp [divRead_of_isZero, haf, ha0, hb, isInf_pack_infMag, signOf_pack_infMag]
  · have haf : isFinite (fp.flush a) = true := by simpa using ha
    rw [flush_fneg, addRead_of_sum_eq_zero haf (by simpa using haf) (by simp)]
    simp

end Sys2Proof.Proofs
end

section
/-! Comparisons and CLAMP, `float(N)`, the configured functions and the one-pole primitives (40_numerics.md R155 to
R165). -/

namespace Sys2Proof.Machine

/-! ### Comparisons (R155) -/

theorem orderKey_eq (w : Word) : orderKey w = signed (signOf w) (magOf w) := rfl

theorem abs_orderKey (w : Word) : |orderKey w| = magOf w := abs_signed _ _

/-- Words are ordered by their keys as by their values. -/
theorem orderKey_lt_iff {a b : Word} : orderKey a < orderKey b ↔ signedUnits a < signedUnits b := by
  rw [orderKey_eq, orderKey_eq, signedUnits_eq, signedUnits_eq]
  generalize magOf a = m, magOf b = n
  have hab : unitsOfMag m < unitsOfMag n ↔ m < n := unitsOfMag_strictMono.lt_iff_lt
  have hba : unitsOfMag n < unitsOfMag m ↔ n < m := unitsOfMag_strictMono.lt_iff_lt
  have hm : unitsOfMag m = 0 ↔ m = 0 := unitsOfMag_eq_zero
  have hn : unitsOfMag n = 0 ↔ n = 0 := unitsOfMag_eq_zero
  cases signOf a <;> cases signOf b <;> simp only [signed, if_true, Bool.false_eq_true, if_false] <;> omega

section Order
variable {fp : Fp} {a b c : Word}

theorem lt_iff : fp.lt a b = true ↔
    isNaN a = false ∧ isNaN b = false ∧ orderKey (fp.flush a) < orderKey (fp.flush b) := by
  simp [Fp.lt, and_assoc]

theorem ge_iff : fp.ge a b = true ↔
    isNaN a = false ∧ isNaN b = false ∧ orderKey (fp.flush b) ≤ orderKey (fp.flush a) := by
  simp [Fp.ge, and_assoc]

theorem lt_of_isNaN (h : isNaN a = true ∨ isNaN b = true) : fp.lt a b = false := by
  obtain h | h := h <;> simp [Fp.lt, h]

theorem ge_of_isNaN (h : isNaN a = true ∨ isNaN b = true) : fp.ge a b = false := by
  obtain h | h := h <;> simp [Fp.ge, h]

theorem ge_eq_not_lt (ha : isNaN a = false) (hb : isNaN b = false) : fp.ge a b = !fp.lt a b := by
  simp [Fp.ge, Fp.lt, ha, hb, ← decide_not]

theorem lt_eq_false_of_ge (h : fp.ge a b = true) : fp.lt a b = false := by
  obtain ⟨ha, hb, -⟩ := ge_iff.mp h
  simpa [ge_eq_not_lt ha hb] using h

theorem lt_trans_of_lt (h : fp.lt a b = true) (h' : fp.lt b c = true) : fp.lt a c = true := by
  obtain ⟨ha, -, hab⟩ := lt_iff.mp h
  obtain ⟨-, hc, hbc⟩ := lt_iff.mp h'
  exact lt_iff.mpr ⟨ha, hc, hab.trans hbc⟩

theorem lt_irrefl_word : fp.lt a a = false := by simp [Fp.lt]

theorem lt_asymm_of_lt (h : fp.lt a b = true) : fp.lt b a = false := by
  by_contra h'
  exact absurd (lt_trans_of_lt h (by simpa using h')) (by simp [lt_irrefl_word])

theorem ge_of_lt (h : fp.lt a b = true) : fp.ge b a = true ∧ fp.ge a b = false := by
  obtain ⟨ha, hb, -⟩ := lt_iff.mp h
  simp [ge_eq_not_lt, ha, hb, h, lt_asymm_of_lt h]

/-- A finite word lies between the infinities, in either mode. -/
theorem abs_orderKey_flush_lt (ha : isFinite a = true) : |orderKey (fp.flush a)| < infMag := by
  rw [abs_orderKey]
  exact_mod_cast isFinite_iff.mp ((isFinite_flush fp a).trans ha)

theorem negInf_lt (ha : isFinite a = true) : fp.lt 0xFF800000 a = true := by
  have hkey : orderKey 0xFF800000 = -(infMag : Int) := by decide
  refine lt_iff.mpr ⟨by decide, not_isNaN_of_isFinite ha, ?_⟩
  rw [flush_of_isInf (w := 0xFF800000) fp (by decide), hkey]
  exact (abs_lt.mp (abs_orderKey_flush_lt ha)).1

theorem lt_posInf (ha : isFinite a = true) : fp.lt a 0x7F800000 = true := by
  have hkey : orderKey 0x7F800000 = (infMag : Int) := by decide
  refine lt_iff.mpr ⟨not_isNaN_of_isFinite ha, by decide, ?_⟩
  rw [flush_of_isInf (w := 0x7F800000) fp (by decide), hkey]
  exact (abs_lt.mp (abs_orderKey_flush_lt ha)).2

end Order

/-! ### `float(N)` (R157) -/

/-- Below `2^24` a natural number is a whole number of the steps of its binade. -/
theorem binade_natUnits_le {n : Nat} (h : n < 2 ^ 24) : binade (n * 2 ^ 149) 1 ≤ 149 := by
  have hlt : n * 2 ^ 149 < 2 ^ 173 := by
    calc n * 2 ^ 149 < 2 ^ 24 * 2 ^ 149 := by gcongr
      _ = 2 ^ 173 := by norm_num
  rw [binade, Nat.div_one]
  obtain hzero | hne := eq_or_ne (n * 2 ^ 149) 0
  · rw [hzero, Nat.log2_zero]; omega
  · have := (Nat.log2_lt hne).mpr hlt
    omega

theorem roundMag_natUnits {n : Nat} (h : n < 2 ^ 24) :
    roundMag (n * 2 ^ 149) 1 < infMag ∧ unitsOfMag (roundMag (n * 2 ^ 149) 1) = n * 2 ^ 149 := by
  have hfin : roundMag (n * 2 ^ 149) 1 < infMag := by
    rw [roundMag_lt_infMag_iff one_pos]
    omega
  refine ⟨hfin, ?_⟩
  rw [roundMag_eq_roundGrid hfin, ← mul_one (unitsOfMag _)]
  refine unitsOfMag_roundGrid_of_dvd one_pos ?_
  rw [one_mul]
  exact dvd_mul_of_dvd_right (pow_dvd_pow 2 (binade_natUnits_le h)) n

/-! ### The configured functions (R160 to R163) -/

theorem orderKey_mem_of_magOf_le {w : Word} {m : Nat} (h : magOf w ≤ m) :
    -(m : Int) ≤ orderKey w ∧ orderKey w ≤ m :=
  abs_le.mp (by rw [abs_orderKey]; exact_mod_cast h)

/-- What a saturator falls back on keeps its rule, so the saturator does. -/
theorem satOk_fallback (bound x : Word) : satOk bound x (if isNaN x then x else Const.zero) = true := by
  cases h : isNaN x
  · have hzero : magOf Const.zero = 0 := by decide
    simp [satOk, h, hzero]
  · simp [satOk, h]

theorem satTanh_ok (p : Params) (x : Word) : satOk Const.one x (satTanh p x) = true :=
  conform_ok (satOk_fallback _ x)

theorem satSoft_ok (p : Params) (x : Word) : satOk (softBound p) x (satSoft p x) = true :=
  conform_ok (satOk_fallback _ x)

theorem isNaN_of_satOk {bound x r : Word} (h : satOk bound x r = true) (hx : isNaN x = true) : isNaN r = true := by
  simpa [satOk, hx] using h

theorem softBound_ok (p : Params) : isFinite (softBound p) = true ∧ signOf (softBound p) = false := by
  simpa [softBound] using
    conform_ok (ok := fun r => isFinite r && !signOf r) (other := Const.one) (raw := p.softBound) (by decide)

/-- The pattern of a positive number of magnitude bits at most `m`, told by its key. -/
theorem positiveUpTo_iff {m : Nat} (hm : m < 2 ^ 31) {w : Word} :
    positiveUpTo m w = true ↔ 0 < orderKey w ∧ orderKey w ≤ m := by
  simp only [positiveUpTo, orderKey, magOf_eq, signOf_eq, Bool.and_eq_true, decide_eq_true_eq]
  split_ifs <;> omega

/-- The key of an operand inside the range of an angle function's arguments. -/
theorem positiveUpTo_of_orderKey {m : Nat} (hm : m < infMag) {w : Word} (hpos : 0 < orderKey w) (h : orderKey w ≤ m) :
    isNaN w = false ∧ positiveUpTo m w = true := by
  have hmag : (magOf w : Int) ≤ m := by rwa [← abs_orderKey, abs_of_pos hpos]
  refine ⟨not_isNaN_of_isFinite (isFinite_iff.mpr (by omega)), (positiveUpTo_iff ?_).mpr ⟨hpos, h⟩⟩
  exact hm.trans (by decide)

theorem fastSin_bounds (p : Params) {w : Word} (hpos : 0 < orderKey w) (h : orderKey w ≤ sinArgMax) :
    0 < orderKey (fastSin p w) ∧ orderKey (fastSin p w) ≤ (0x3F800000 : Nat) := by
  obtain ⟨hn, harg⟩ := positiveUpTo_of_orderKey (by decide) hpos h
  exact (positiveUpTo_iff (by decide)).mp (ok_angleFunction hn harg (by decide))

theorem fastCos_bound (p : Params) {w : Word} (hpos : 0 < orderKey w) (h : orderKey w ≤ sinArgMax) :
    magOf (fastCos p w) ≤ 0x3F800000 := by
  obtain ⟨hn, harg⟩ := positiveUpTo_of_orderKey (by decide) hpos h
  exact of_decide_eq_true (ok_angleFunction (ok := fun r => decide (magOf r ≤ 0x3F800000)) hn harg (by decide))

theorem fastTan_bounds (p : Params) {w : Word} (hpos : 0 < orderKey w) (h : orderKey w ≤ tanArgMax) :
    isFinite (fastTan p w) = true ∧ 0 < orderKey (fastTan p w) := by
  obtain ⟨hn, harg⟩ := positiveUpTo_of_orderKey (by decide) hpos h
  have hok : positiveUpTo 0x7F7FFFFF (fastTan p w) = true := ok_angleFunction hn harg (by decide)
  obtain ⟨hrpos, hrmax⟩ := (positiveUpTo_iff (by decide)).mp hok
  rw [← abs_of_pos hrpos, abs_orderKey, Nat.cast_le] at hrmax
  exact ⟨isFinite_iff.mpr (hrmax.trans_lt (by decide)), hrpos⟩

theorem softBound_orderKey (p : Params) : orderKey (softBound p) = magOf (softBound p) ∧
    orderKey (fneg (softBound p)) = -(magOf (softBound p) : Int) := by
  simp [orderKey, (softBound_ok p).2]

end Sys2Proof.Machine

namespace Sys2Proof.Proofs
open Sys2Proof.Machine Sys2Proof.Stated

/-- Settles O54: the comparisons are those of the keys, which order words by value. -/
theorem comparisonsAreIeeeOrdered : Obligations.ComparisonsAreIeeeOrdered := by
  intro fp a b hf
  have hlt (h : isNaN a = false) (h' : isNaN b = false) : fp.lt a b = true ↔ orderKey a < orderKey b := by
    simp [lt_iff, h, h', flush_ieee hf]
  have hge (h : isNaN a = false) (h' : isNaN b = false) : fp.ge a b = true ↔ orderKey b ≤ orderKey a := by
    simp [ge_iff, h, h', flush_ieee hf]
  refine ⟨fun h => ⟨lt_of_isNaN h, ge_of_isNaN h⟩, fun ha hb => ?_, fun ha hb => ?_, fun ha => ?_, ?_, ?_,
    fun ha => ?_⟩
  · have hna := not_isNaN_of_isFinite (isFinite_of_isZero ha)
    have hnb := not_isNaN_of_isFinite (isFinite_of_isZero hb)
    have hkey {w : Word} (hw : isZero w = true) : orderKey w = 0 := by rw [orderKey_eq, isZero_iff.mp hw, signed_zero]
    rw [← Bool.not_eq_true, hlt hna hnb, hge hna hnb, hkey ha, hkey hb]
    simp
  · have hna := not_isNaN_of_isFinite ha
    have hnb := not_isNaN_of_isFinite hb
    exact ⟨(hlt hna hnb).trans orderKey_lt_iff, by rw [hge hna hnb, ← not_lt, orderKey_lt_iff, not_lt]⟩
  · obtain ⟨hgeNeg, hgeNeg'⟩ := ge_of_lt (negInf_lt (fp := fp) ha)
    obtain ⟨hgePos, hgePos'⟩ := ge_of_lt (lt_posInf (fp := fp) ha)
    exact ⟨negInf_lt ha, lt_posInf ha, hgeNeg, hgePos, hgeNeg', hgePos'⟩
  · simp only [Fp.lt, flush_ieee hf]; decide
  · simp only [Fp.ge, flush_ieee hf]; decide
  · have hna := not_isNaN_of_isInf ha
    simp [ge_eq_not_lt hna hna, lt_irrefl_word]

/-- Settles O55: the two comparisons of CLAMP exclude each other where `lo <= hi`. -/
theorem clampCases : Obligations.ClampCases := by
  intro fp x lo hi hlo hhi hle
  have hbelow {x : Word} (h : fp.lt x lo = true) : fp.clamp x lo hi = lo := if_pos h
  have habove {x : Word} (h : fp.lt hi x = true) : fp.clamp x lo hi = hi := by
    have hx : fp.lt x lo = false := by
      by_contra hx
      exact Bool.false_ne_true (hle.symm.trans (lt_trans_of_lt h (by simpa using hx)))
    simp [Fp.clamp, h, hx]
  have hinside {x : Word} (h : fp.lt x lo = false) (h' : fp.lt hi x = false) : fp.clamp x lo hi = x := by
    simp [Fp.clamp, h, h']
  refine ⟨?_, hbelow, habove, hinside, fun h => hinside (lt_of_isNaN (.inl h)) (lt_of_isNaN (.inr h)),
    habove (lt_posInf hhi), hbelow (negInf_lt hlo),
    fun h h' => hinside (lt_eq_false_of_ge h) (lt_eq_false_of_ge h')⟩
  unfold Fp.clamp
  split_ifs <;> simp

/-- Settles O56: the magnitude bits of `n * 2^149` units are exact. -/
theorem floatOfSmallNaturalsIsExact : Obligations.FloatOfSmallNaturalsIsExact := by
  intro n hn
  obtain ⟨hfin, hunits⟩ := roundMag_natUnits hn
  refine ⟨(isFinite_pack_roundMag _ _ _).mpr hfin, ?_⟩
  rw [floatOfNat, signedUnits_eq, signOf_pack_roundMag, magOf_pack_roundMag, hunits]
  simp [signed]

/-- Settles O57: what `satTanh` keeps, with the magnitude bits of 1.0 as its bound. -/
theorem satTanhIsBounded : Obligations.SatTanhIsBounded := by
  intro x
  have hok := satTanh_ok Config.hw x
  refine ⟨fun hx => ?_, isNaN_of_satOk hok⟩
  have hbound := satOk_bound hx hok
  exact ⟨isFinite_iff.mpr (hbound.trans_lt (by decide)), orderKey_mem_of_magOf_le hbound⟩

/-- Settles O58: what each configured function keeps, as an order of keys. -/
theorem configuredFunctionsConform : Obligations.ConfiguredFunctionsConform := by
  intro x
  have hsoft := satSoft_ok Config.hw x
  refine ⟨fun hx => ?_, fun hx => ⟨isNaN_of_satOk hsoft hx, isNaN_angleFunction hx, isNaN_angleFunction hx,
    isNaN_angleFunction hx⟩, fun hpos hmax => ?_, fastTan_bounds _⟩
  · have hbound := satOk_bound hx hsoft
    obtain ⟨hkey, hneg⟩ := softBound_orderKey Config.hw
    rw [hkey, hneg]
    exact ⟨isFinite_iff.mpr (hbound.trans_lt (isFinite_iff.mp (softBound_ok _).1)), orderKey_mem_of_magOf_le hbound⟩
  · obtain ⟨hsinPos, hsinMax⟩ := fastSin_bounds Config.hw hpos hmax
    exact ⟨hsinPos, hsinMax, orderKey_mem_of_magOf_le (fastCos_bound _ hpos hmax)⟩

/-- Settles O32: `hpf1` takes its low-pass value and its register update from `lpf1`. -/
theorem onePolePrimitives : Obligations.OnePolePrimitives := by
  rintro fp k g x z v y rfl rfl
  exact ⟨rfl, rfl⟩

end Sys2Proof.Proofs
end

section
/-! The coefficient ramp interpolator (41_coeff_ramp_interpolator.md): the order in which RAMP_SET reads C and the first
unwritten word a ramped maker records; the RAMP_STEP of a processor and, by induction on the commands, of a run. -/

namespace Sys2Proof.Machine
open Sys2Proof.Stated

/-! ### RAMP_SET reads lane by lane, slot by slot (R201, R235) -/

/-- Reads in the order `r` find `w` first where it is unwritten and every read before it is written. -/
theorem firstUnwritten_eq_some_of_pairwise {r : WordRef → WordRef → Prop} {m : Memory} {reads : List WordRef}
    {w : WordRef} (hreads : reads.Pairwise r) (hw : w ∈ reads) (hnone : m.word w = none)
    (hbefore : ∀ u ∈ reads, r u w → (m.word u).isSome = true) : firstUnwritten m reads = some w := by
  induction reads with
  | nil => cases hw
  | cons u us ih =>
    rw [List.pairwise_cons] at hreads
    rw [List.forall_mem_cons] at hbefore
    obtain rfl | hw := List.mem_cons.mp hw
    · simp [firstUnwritten, hnone]
    · have hu : (m.word u).isSome = true := hbefore.1 (hreads.1 w hw)
      rw [firstUnwritten, List.find?_cons_of_neg (by simpa [Option.isSome_iff_ne_none] using hu)]
      exact ih hreads.2 hw hbefore.2

/-- `u` comes before `w` with the lanes outer and the slots inner. -/
def LaneThenSlot (u w : WordRef) : Prop := u.lane < w.lane ∨ (u.lane = w.lane ∧ u.slot < w.slot)

theorem allLanes_pairwise : allLanes.Pairwise (· < ·) := by decide

theorem allSlots_pairwise : allSlots.Pairwise (· < ·) := by decide

theorem rampSetReads_pairwise (n : BitVec 12) (b : Nat) (mask : BitVec 4) :
    (rampSetReads n b mask).Pairwise LaneThenSlot := by
  unfold rampSetReads
  split_ifs with hn
  · exact List.Pairwise.nil
  · rw [List.pairwise_flatMap]
    constructor
    · intro l _
      exact List.pairwise_map.mpr (allSlots_pairwise.imp fun h => .inr ⟨rfl, h⟩)
    · refine (allLanes_pairwise.filter _).imp fun {l l'} h u hu w hw => ?_
      obtain ⟨i, -, rfl⟩ := List.mem_map.mp hu
      obtain ⟨i', -, rfl⟩ := List.mem_map.mp hw
      exact .inl h

/-- The first unwritten word of a ramped RAMP_SET (60_exceptions.md R372, R374). -/
theorem firstUnwritten_rampSetReads {n : BitVec 12} {b : Nat} {mask : BitVec 4} {m : Memory} {i : Slot} {l : Lane}
    (hn : n ≠ 0) (hl : mask.getLsbD l.val = true) (hnone : m.word ⟨.C, b, i, l⟩ = none)
    (hbefore : ∀ (i' : Slot) (l' : Lane), mask.getLsbD l'.val = true → (l' < l ∨ (l' = l ∧ i' < i)) →
      (m.word ⟨.C, b, i', l'⟩).isSome = true) :
    firstUnwritten m (rampSetReads n b mask) = some ⟨.C, b, i, l⟩ := by
  refine firstUnwritten_eq_some_of_pairwise (rampSetReads_pairwise n b mask)
    (mem_rampSetReads.mpr ⟨hn, rfl, rfl, hl⟩) hnone ?_
  rintro ⟨r, b', i', l'⟩ hu hlt
  obtain ⟨-, rfl, rfl, hl'⟩ := mem_rampSetReads.mp hu
  exact hbefore i' l' hl' hlt

/-! ### The makers whose check passes are RAMP_SET (42_bilinear_coeff_mapper.md R230, R231) -/

theorem srOk_of_srValid {s : State} (h : SrValid s) : srOk (arith Config.hw s.draws scopeTargets) s.sr = true := by
  obtain ⟨hfin, hpos, hge⟩ := h
  exact Bool.and_eq_true_iff.mpr ⟨Bool.and_eq_true_iff.mpr ⟨hfin, hpos⟩, hge⟩

theorem srInvOk_of_srInvValid {s : State} (h : SrInvValid s) :
    srInvOk (arith Config.hw s.draws scopeTargets) s.srInv = true :=
  Bool.and_eq_true_iff.mpr h

theorem exec_mkcaInstr_eq_maker {s : State} (h : SrValid s) (ft : FilterType) (n : BitVec 12) (b m : BitVec 4)
    (pitch reso : Word) :
    ∃ T, exec (mkcaInstr ft n b m pitch reso) s = maker Config.hw T n b m pitch s := by
  have hexec : exec (mkcaInstr ft n b m pitch reso) s = mkca Config.hw ft n b m pitch reso s := by cases ft <;> rfl
  exact ⟨_, hexec.trans (if_pos (srOk_of_srValid h))⟩

theorem exec_mkcbInstr_eq_maker {s : State} (h : SrValid s) (hinv : SrInvValid s) (mode : PassMode) (n : BitVec 12)
    (b m : BitVec 4) (pitch reso drive : Word) :
    ∃ T, exec (mkcbInstr mode n b m pitch reso drive) s = maker Config.hw T n b m pitch s := by
  have hexec : exec (mkcbInstr mode n b m pitch reso drive) s = mkcb Config.hw mode n b m pitch reso drive s := by
    cases mode <;> rfl
  exact ⟨_, hexec.trans (if_pos (Bool.and_eq_true_iff.mpr ⟨srOk_of_srValid h, srInvOk_of_srInvValid hinv⟩))⟩

/-- RAMP_SET records the first unwritten of its reads, where a model's run ends (60_exceptions.md R372). -/
theorem maker_records {p : Params} {T : Slot → Word} {n : BitVec 12} {inst mask : BitVec 4} {pitch : Word} {s : State}
    {w : WordRef} (h : firstUnwritten s.mem (rampSetReads n (bankOf inst) mask) = some w) :
    ∃ t, maker p T n inst mask pitch s = .next t ∧ t.uninit = some w ∧ endRun (.next t) = .error (.uninitRead w) :=
  ⟨_, rfl, h, endRun_uninit h⟩

/-! ### A processor is one RAMP_STEP of its bank (R203) -/

/-- A processor completes in every state (60_exceptions.md R370). -/
theorem exec_processor_completes {i : Instr} (hi : i.isProcessor = true) (s : State) : Completes (exec i s) := by
  rw [exec_completes_iff]
  cases i
  case proca | procblp | procbhp => rfl
  all_goals cases hi

theorem exec_draws {i : Instr} {s t : State} (h : exec i s = .next t) : t.draws = s.draws + 1 := by
  obtain ⟨reads, ws, ys, rfl, -⟩ := exec_next h
  rfl

/-- A processor leaves in C what RAMP_STEP writes there: its other writes are of R. -/
theorem exec_processor_word_C {i : Instr} (hi : i.isProcessor = true) {s t : State} (h : exec i s = .next t) (j : Slot)
    (l : Lane) :
    t.mem.word ⟨.C, bankOf i.inst, j, l⟩ = some (rampStepWord Config.hw s.draws s.mem (bankOf i.inst) j l) := by
  have procb_word : ∀ (mode : PassMode) (b : BitVec 4) (x : Lanes), procb Config.hw mode b x s = .next t →
      t.mem.word ⟨.C, bankOf b, j, l⟩ = some (rampStepWord Config.hw s.draws s.mem (bankOf b) j l) := by
    intro mode b x hb
    obtain rfl := Host.Outcome.next.inj ((procb_eq ..).symm.trans hb)
    exact word_procbWrites (mem_procbWrites.mpr ⟨rfl, .inl ⟨rfl, rfl⟩⟩)
  cases i
  case proca nstg satk b x =>
    cases h
    have hn : stageCount nstg ≤ 4 := by have := stageCount_cases nstg; omega
    rw [complete_mem]
    exact word_procaWrites hn (mem_procaWrites.mpr (.inr (mem_rampStepWrites.mpr ⟨rfl, rfl, rfl⟩)))
  case procblp b x => exact procb_word .lp b x h
  case procbhp b x => exact procb_word .hp b x h
  all_goals cases hi

theorem exec_rampStepped {i : Instr} (hi : i.isProcessor = true) {s t : State} (h : exec i s = .next t) :
    RampStepped s t i.inst := by
  intro j l
  refine ⟨exec_processor_word_C hi h j l, exec_word_of_not_stores h fun hw => ?_⟩
  obtain ⟨-, hdC, -⟩ := stores_cases hw
  exact hdC hi rfl

theorem execAll_cons {i : Instr} {is : List Instr} {s t : State} (h : exec i s = .next t) :
    execAll (i :: is) s = execAll is t := by
  rw [execAll, h]

end Sys2Proof.Machine

namespace Sys2Proof.Proofs
open Sys2Proof.Machine Sys2Proof.Stated

/-- Settles O25: a maker whose check passes is RAMP_SET, and its reads are in the order the statement names. -/
theorem rampedMakersRecordFirstUnwrittenC : Obligations.RampedMakersRecordFirstUnwrittenC := by
  intro n b m pitch reso drive s i l hn hsr hl hnone hbefore
  have hfirst := firstUnwritten_rampSetReads hn hl hnone hbefore
  constructor
  · intro ft
    obtain ⟨T, hT⟩ := exec_mkcaInstr_eq_maker hsr ft n b m pitch reso
    rw [hT]
    exact maker_records hfirst
  · intro hinv mode
    obtain ⟨T, hT⟩ := exec_mkcbInstr_eq_maker hsr hinv mode n b m pitch reso drive
    rw [hT]
    exact maker_records hfirst

/-- Settles O36: a processor's writes to C are RAMP_STEP's, and it stores no ramp delta. -/
theorem processorsAdvanceEveryCoefficient : Obligations.ProcessorsAdvanceEveryCoefficient :=
  fun _ _ _ hi h => exec_rampStepped hi h

/-- Settles O49, by induction on the commands: the first one makes the sum numbered 0 and leaves dC and the next draw
number to the others. -/
theorem rampIsTheRepeatedSum : Obligations.RampIsTheRepeatedSum := by
  intro is b
  induction is with
  | nil => exact fun s _ => ⟨s, rfl, fun _ _ => ⟨rfl, rfl⟩⟩
  | cons j js ih =>
    intro s hjs
    obtain ⟨⟨hj, rfl⟩, hjs⟩ := List.forall_mem_cons.mp hjs
    obtain ⟨u, hu⟩ := exec_processor_completes hj s
    obtain ⟨t, ht, hramp⟩ := ih u hjs
    refine ⟨t, (execAll_cons hu).trans ht, fun i l => ?_⟩
    obtain ⟨hC, hdC⟩ := exec_rampStepped hj hu i l
    obtain ⟨hdC', hsum⟩ := hramp i l
    refine ⟨hdC'.trans hdC, ?_⟩
    have hdraws : ∀ k, u.draws + k = s.draws + (k + 1) := fun k => by rw [exec_draws hu]; omega
    have hget : u.mem.get ⟨.dC, j.inst.toNat, i, l⟩ = s.mem.get ⟨.dC, j.inst.toNat, i, l⟩ := by
      simp only [Memory.get, hdC]
    rw [hsum, get_of_word hC, hget, List.length_cons, List.range_succ_eq_map, List.foldl_cons, List.foldl_map]
    simp only [hdraws]
    rfl

end Sys2Proof.Proofs
end

section
/-! The makers (42_bilinear_coeff_mapper.md): the check of the sample rate, FMAP, the target vectors as the statements
write them, and what RAMP_SET toward a target vector leaves in C, dC and NF. -/

namespace Sys2Proof.Machine
open Sys2Proof.Stated

/-! ### FMAP and its comparisons (R232, 40_numerics.md R155, R156) -/

section Clamp
variable {fp : Fp} {x lo hi : Word}

theorem ge_self (h : isNaN x = false) : fp.ge x x = true := by simp [ge_eq_not_lt h h, lt_irrefl_word]

theorem clamp_of_isNaN (h : isNaN x = true) : fp.clamp x lo hi = x := by
  simp [Fp.clamp, lt_of_isNaN, h]

/-- CLAMP keeps a number within ends that are in order. -/
theorem clamp_mem (h : fp.ge hi lo = true) (hx : isNaN x = false) :
    fp.ge (fp.clamp x lo hi) lo = true ∧ fp.ge hi (fp.clamp x lo hi) = true := by
  obtain ⟨hhi, hlo, -⟩ := ge_iff.mp h
  unfold Fp.clamp
  split_ifs with hbelow habove
  · exact ⟨ge_self hlo, h⟩
  · exact ⟨h, ge_self hhi⟩
  · simp [ge_eq_not_lt, hlo, hhi, hx, hbelow, habove]

end Clamp

/-- A product of finite words draws no NaN. -/
theorem mul_draw_irrel {fp : Fp} {a b : Word} (ha : isFinite a = true) (hb : isFinite b = true) (k k' : Nat) :
    fp.mul k a b = fp.mul k' a b := by
  simp [Fp.mul, mulRead, ha, hb, not_isNaN_of_isFinite, not_isInf_of_isFinite]

/-! ### The check of the sample rate (R231) -/

theorem srOk_iff {s : State} : srOk (targetFp s) s.sr = true ↔ SrValid s := by
  rw [srOk, Bool.and_eq_true, Bool.and_eq_true, and_assoc]
  rfl

theorem srInvOk_iff {s : State} : srInvOk (targetFp s) s.srInv = true ↔ SrInvValid s := Bool.and_eq_true_iff

theorem rateOk_mkcaInstr_iff {ft : FilterType} {n : BitVec 12} {b m : BitVec 4} {pitch reso : Word} {s : State} :
    rateOk Config.hw (mkcaInstr ft n b m pitch reso) s = true ↔ SrValid s := by
  cases ft <;> exact srOk_iff

theorem rateOk_mkcbInstr_iff {mode : PassMode} {n : BitVec 12} {b m : BitVec 4} {pitch reso drive : Word} {s : State} :
    rateOk Config.hw (mkcbInstr mode n b m pitch reso drive) s = true ↔ SrValid s ∧ SrInvValid s := by
  cases mode <;> exact Bool.and_eq_true_iff.trans (and_congr srOk_iff srInvOk_iff)

/-- A command whose check fails is refused SR_INVALID. -/
theorem exec_refused_of_not_rateOk {i : Instr} {s : State} (h : ¬ rateOk Config.hw i s = true) :
    exec i s = .refused .srInvalid := by
  rw [exec_eq_execWith]
  obtain ⟨-, he⟩ | ⟨hok, -⟩ := execWith_cases Config.hw i s
  · exact he
  · exact absurd hok h

/-! ### The target vectors (R235, R236, R245) -/

/-- FMAP of the tuning answer to `pitch`, as a maker in state `s` asks for it (R232). -/
def makerFrequency (p : Params) (pitch : Word) (s : State) : Word :=
  fmap (arith p s.draws scopeTargets) p.refFreq (tune p pitch) s.sr

/-- The target vector of MKCA. -/
def vectorA (p : Params) (ft : FilterType) (pitch reso : Word) (s : State) : Slot → Word :=
  (targetsA p (arith p s.draws scopeTargets) ft (makerFrequency p pitch s) s.sr reso).slot

/-- The target vector of MKCB. -/
def vectorB (p : Params) (mode : PassMode) (pitch reso drive : Word) (s : State) : Slot → Word :=
  (targetsB p (arith p s.draws scopeTargets) mode (makerFrequency p pitch s) s.sr s.srInv reso drive).slot

/-- MKCA whose check passes is RAMP_SET toward its target vector. -/
theorem execWith_mkcaInstr {p : Params} {ft : FilterType} {n : BitVec 12} {b m : BitVec 4} {pitch reso : Word}
    {s : State} (h : rateOk p (mkcaInstr ft n b m pitch reso) s = true) :
    execWith p (mkcaInstr ft n b m pitch reso) s = maker p (vectorA p ft pitch reso s) n b m pitch s := by
  cases ft <;> exact if_pos h

/-- MKCB whose checks pass is RAMP_SET toward its target vector. -/
theorem execWith_mkcbInstr {p : Params} {mode : PassMode} {n : BitVec 12} {b m : BitVec 4} {pitch reso drive : Word}
    {s : State} (h : rateOk p (mkcbInstr mode n b m pitch reso drive) s = true) :
    execWith p (mkcbInstr mode n b m pitch reso drive) s =
      maker p (vectorB p mode pitch reso drive s) n b m pitch s := by
  cases mode <;> exact if_pos h

theorem feedForward_eq {fp : Fp} {ft : FilterType} {s c alpha a0r : Word} {T : Slot → Word}
    (h : FeedForward fp ft s c alpha a0r T) :
    feedForward fp ft s c alpha a0r (T 0) (T 1) = (T 2, T 3, T 4) := by
  cases ft
  case lp | hp =>
    all_goals
      obtain ⟨h3, h2, h4⟩ := h
      rw [h4, h2, h3]
      rfl
  all_goals
    obtain ⟨h2, h3, h4⟩ := h
    rw [h4, h3, h2]
    rfl

/-- The vector the statements call a Family A target is the one MKCA computes. (`a0r` is replaced by rewriting, where
a substitution would evaluate its quotient.) -/
theorem eq_targetsA {fp : Fp} {ft : FilterType} {f sr reso : Word} {T : Slot → Word}
    (h : FamilyATarget fp ft f sr reso T) : T = (targetsA Config.hw fp ft f sr reso).slot := by
  obtain ⟨res, q, nf, w, s, c, alpha, a0r, rfl, rfl, rfl, rfl, rfl, rfl, rfl, ha0r, h0, h1, hff, h5, h6, h7⟩ := h
  have hb := feedForward_eq hff
  rw [h0, h1, ha0r, Prod.ext_iff, Prod.ext_iff] at hb
  rw [ha0r] at h0 h1
  obtain ⟨h2, h3, h4⟩ := hb
  funext i
  fin_cases i
  exacts [h0, h1, h2.symm, h3.symm, h4.symm, h5, h6, h7]

theorem eq_coeffsB_slot {c : CoeffsB} {T : Slot → Word} (h : c = ⟨T 0, T 1, T 2, T 3, T 4, T 5, T 6, T 7⟩) :
    T = c.slot := by
  subst h
  funext i
  fin_cases i <;> rfl

/-- The vector the statements call a Family B target is the one MKCB computes. -/
theorem eq_targetsB {fp : Fp} {mode : PassMode} {f sr srInv reso drive : Word} {T : Slot → Word}
    (h : FamilyBTarget fp mode f sr srInv reso drive T) :
    T = (targetsB Config.hw fp mode f sr srInv reso drive).slot := by
  obtain ⟨wd, arg, t, wa, g, gp1, k, kG, rfl, rfl, rfl, rfl, rfl, hgp1, h0, hk, h3, hkG, hfb, h4, h5, h6, h7⟩ := h
  obtain ⟨h1, h2⟩ : (feedback fp mode k kG gp1).1 = T 1 ∧ (feedback fp mode k kG gp1).2 = T 2 := by
    cases mode <;> exact ⟨hfb.1.symm, hfb.2.symm⟩
  refine eq_coeffsB_slot ?_
  rw [← h1, ← h2, h3, h4, h5, h7, h6, hkG, h0, hk, hgp1]
  rfl

theorem exec_toward_familyA {ft : FilterType} {n : BitVec 12} {b m : BitVec 4} {pitch reso : Word} {s : State}
    {T : Slot → Word} (hsr : SrValid s) (hT : FamilyATarget (targetFp s) ft (frequency s pitch) s.sr reso T) :
    exec (mkcaInstr ft n b m pitch reso) s = maker Config.hw T n b m pitch s := by
  rw [exec_eq_execWith, execWith_mkcaInstr (rateOk_mkcaInstr_iff.mpr hsr), eq_targetsA hT]
  rfl

theorem exec_toward_familyB {mode : PassMode} {n : BitVec 12} {b m : BitVec 4} {pitch reso drive : Word} {s : State}
    {T : Slot → Word} (hsr : SrValid s) (hinv : SrInvValid s)
    (hT : FamilyBTarget (targetFp s) mode (frequency s pitch) s.sr s.srInv reso drive T) :
    exec (mkcbInstr mode n b m pitch reso drive) s = maker Config.hw T n b m pitch s := by
  rw [exec_eq_execWith, execWith_mkcbInstr (rateOk_mkcbInstr_iff.mpr ⟨hsr, hinv⟩), eq_targetsB hT]
  rfl

/-! ### What RAMP_SET leaves (R233, 41_coeff_ramp_interpolator.md R201) -/

/-- A snap completes with C at the target and dC at +0.0. -/
theorem maker_snaps (T : Slot → Word) (b m : BitVec 4) (pitch : Word) (s : State) :
    ∃ t, maker Config.hw T 0 b m pitch s = .next t ∧ Snapped s t b m T ∧ t.results = [] ∧ t.query = some pitch := by
  refine ⟨_, rfl, fun i l hl => ⟨?_, ?_⟩, rfl, rfl⟩
  · exact word_rampSetWrites (mem_rampSetWrites.mpr ⟨rfl, hl, .inl ⟨rfl, rfl, rfl⟩⟩)
  · exact word_rampSetWrites (mem_rampSetWrites.mpr ⟨rfl, hl, .inr (.inl ⟨rfl, rfl, rfl⟩)⟩)

/-- A ramp completes with dC at its step toward the target and C as it was. -/
theorem maker_ramps {n : BitVec 12} (hn : n ≠ 0) (T : Slot → Word) (b m : BitVec 4) (pitch : Word) (s : State) :
    ∃ t, maker Config.hw T n b m pitch s = .next t ∧ Ramped s t n b m T ∧ t.results = [] ∧ t.query = some pitch := by
  refine ⟨_, rfl, fun i l hl => ⟨?_, ?_⟩, rfl, rfl⟩
  · exact word_rampSetWrites (mem_rampSetWrites.mpr ⟨rfl, hl, .inr (.inr ⟨hn, rfl, rfl⟩)⟩)
  · refine word_setAll_notMem fun hmem => ?_
    obtain ⟨-, -, hdC | ⟨-, hzero⟩⟩ := keys_rampSetWrites.mp hmem
    · cases hdC
    · exact hn hzero

/-- With no lane selected RAMP_SET reads and writes nothing. -/
theorem maker_of_empty_mask (p : Params) (T : Slot → Word) (n : BitVec 12) (b : BitVec 4) (pitch : Word) (s : State) :
    maker p T n b 0 pitch s = .next (s.complete [] [] [] (some pitch)) := by
  have hlanes : maskLanes 0 = [] := by decide
  simp only [maker, rampSetReads, rampSetWrites, hlanes, List.flatMap_nil, ite_self]

theorem maker_empty_mask_writes_nothing (T : Slot → Word) (n : BitVec 12) (b : BitVec 4) (pitch : Word) (s : State) :
    ∃ t, maker Config.hw T n b 0 pitch s = .next t ∧ t.mem = s.mem ∧ t.nf = s.nf ∧ t.query = some pitch ∧
      ControlUnchanged s t :=
  ⟨_, maker_of_empty_mask Config.hw T n b pitch s, rfl, by simp [nfAfter, anyNonFinite], rfl, rfl, rfl, rfl⟩

/-! ### NaNs (R232, 40_numerics.md R153, 60_exceptions.md R373) -/

section NaN
variable {fp : Fp} {k : Nat} {a b : Word} (h : isNaN a = true ∨ isNaN b = true)
include h

theorem isNaN_add : isNaN (fp.add k a b) = true := by simp [Fp.add, addRead_of_isNaN, h]
theorem isNaN_sub : isNaN (fp.sub k a b) = true := by simp [Fp.sub, addRead_of_isNaN, h]
theorem isNaN_mul : isNaN (fp.mul k a b) = true := by simp [Fp.mul, mulRead_of_isNaN, h]
theorem isNaN_div : isNaN (fp.div k a b) = true := by simp [Fp.div, divRead_of_isNaN, h]

end NaN

/-- The Family A targets that are computed from the frequency are NaNs (log 26). -/
def NaNTargetsA (ft : FilterType) (T : Slot → Word) : Prop :=
  isNaN (T 0) = true ∧ isNaN (T 1) = true ∧ isNaN (T 2) = true ∧ isNaN (T 4) = true ∧ (ft ≠ .bp → isNaN (T 3) = true)

/-- The Family B targets that are computed from the frequency are NaNs (log 26). -/
def NaNTargetsB (T : Slot → Word) : Prop :=
  isNaN (T 0) = true ∧ isNaN (T 1) = true ∧ isNaN (T 2) = true ∧ isNaN (T 4) = true

theorem isNaN_feedForward {fp : Fp} {s c alpha a0r a1 a2 : Word} (ft : FilterType) (h0 : isNaN a0r = true)
    (h1 : isNaN a1 = true) (h2 : isNaN a2 = true) :
    isNaN (feedForward fp ft s c alpha a0r a1 a2).1 = true ∧
      isNaN (feedForward fp ft s c alpha a0r a1 a2).2.2 = true ∧
      (ft ≠ .bp → isNaN (feedForward fp ft s c alpha a0r a1 a2).2.1 = true) := by
  cases ft <;> simp [feedForward, isNaN_mul, h0, h1, h2]

theorem targetsA_of_isNaN {p : Params} {fp : Fp} {ft : FilterType} {f sr reso : Word} (hf : isNaN f = true) :
    NaNTargetsA ft (targetsA p fp ft f sr reso).slot := by
  unfold targetsA
  extract_lets res q nf w s c alpha a0r a1 a2 b
  have hw : isNaN w = true := isNaN_mul (.inr (isNaN_div (.inl (isNaN_mul (.inr hf)))))
  have hs : isNaN s = true := isNaN_angleFunction hw
  have hc : isNaN c = true := isNaN_angleFunction hw
  have ha0r : isNaN a0r = true := isNaN_div (.inr (isNaN_add (.inr (isNaN_div (.inl hs)))))
  have ha1 : isNaN a1 = true := isNaN_mul (.inr ha0r)
  have ha2 : isNaN a2 = true := isNaN_mul (.inr ha0r)
  have hb : isNaN b.1 = true ∧ isNaN b.2.2 = true ∧ (ft ≠ .bp → isNaN b.2.1 = true) :=
    isNaN_feedForward ft ha0r ha1 ha2
  clear_value a1 a2 b
  exact ⟨ha1, ha2, hb⟩

theorem isNaN_feedback {fp : Fp} {k kG gp1 : Word} (mode : PassMode) (h : isNaN gp1 = true) :
    isNaN (feedback fp mode k kG gp1).1 = true ∧ isNaN (feedback fp mode k kG gp1).2 = true := by
  cases mode <;> exact ⟨isNaN_div (.inr h), isNaN_div (.inr h)⟩

theorem targetsB_of_isNaN {p : Params} {fp : Fp} {mode : PassMode} {f sr srInv reso drive : Word}
    (hf : isNaN f = true) : NaNTargetsB (targetsB p fp mode f sr srInv reso drive).slot := by
  unfold targetsB
  extract_lets wd arg t wa g gp1 gg k kG b alpha blend binv
  have hwd : isNaN wd = true := isNaN_mul (.inl (isNaN_mul (.inr hf)))
  have ht : isNaN t = true := isNaN_angleFunction (isNaN_mul (.inl (isNaN_mul (.inl hwd))))
  have hg : isNaN g = true := isNaN_mul (.inl (isNaN_mul (.inl (isNaN_mul (.inr ht)))))
  have hgp1 : isNaN gp1 = true := isNaN_add (.inr hg)
  have hgg : isNaN gg = true := isNaN_div (.inl hg)
  have halpha : isNaN alpha = true := isNaN_div (.inr (isNaN_add (.inr (isNaN_mul (.inr hgg)))))
  have hb : isNaN b.1 = true ∧ isNaN b.2 = true := isNaN_feedback mode hgp1
  clear_value gg b alpha
  exact ⟨hgg, hb.1, hb.2, halpha⟩

/-- FMAP of a tuning product that is a NaN is that NaN. -/
theorem isNaN_fmap {fp : Fp} {refFreq r sr : Word} (h : isNaN (fp.mul 0 refFreq r) = true) :
    isNaN (fmap fp refFreq r sr) = true := by
  rwa [fmap, clamp_of_isNaN h]

/-- A command that writes a NaN leaves NF set. -/
theorem nfAfter_of_isNaN_mem {ws : List (WordRef × Word)} {w : WordRef} {v : Word} (h : (w, v) ∈ ws)
    (hv : isNaN v = true) (nf : Bool) (ys : List Word) : nfAfter nf (ws.map Prod.snd) ys = true := by
  have hfin : isFinite v = false := by
    by_contra hfin
    simp [not_isNaN_of_isFinite (eq_true_of_ne_false hfin)] at hv
  have hany : anyNonFinite (ws.map Prod.snd) = true :=
    List.any_eq_true.mpr ⟨v, List.mem_map_of_mem (f := Prod.snd) h, by simp [hfin]⟩
  simp [nfAfter, hany]

theorem exists_lane_of_ne_zero : ∀ {m : BitVec 4}, m ≠ 0 → ∃ l : Lane, m.getLsbD l.val = true := by decide

/-- A maker with a lane selected and a NaN in its target vector sets NF: it stores the NaN in C, or the NaN of its
ramp in dC. -/
theorem maker_sets_nf {p : Params} {T : Slot → Word} {m : BitVec 4} (hm : m ≠ 0) {i : Slot} (hT : isNaN (T i) = true)
    (n : BitVec 12) (b : BitVec 4) (pitch : Word) (s : State) :
    ∃ t, maker p T n b m pitch s = .next t ∧ t.nf = true := by
  obtain ⟨l, hl⟩ := exists_lane_of_ne_zero hm
  refine ⟨_, rfl, ?_⟩
  by_cases hn : n = 0
  · exact nfAfter_of_isNaN_mem (w := ⟨.C, bankOf b, i, l⟩)
      (mem_rampSetWrites.mpr ⟨rfl, hl, .inl ⟨hn, rfl, rfl⟩⟩) ((isNaN_flush _ _).trans hT) _ _
  · exact nfAfter_of_isNaN_mem (w := ⟨.dC, bankOf b, i, l⟩)
      (mem_rampSetWrites.mpr ⟨rfl, hl, .inr (.inr ⟨hn, rfl, rfl⟩)⟩) (isNaN_div (.inl (isNaN_sub (.inl hT)))) _ _

end Sys2Proof.Machine

namespace Sys2Proof.Proofs
open Sys2Proof.Machine Sys2Proof.Stated

/-- Settles O20: MKCA is RAMP_SET toward the Family A target, and this one a snap. -/
theorem familyASnapTakesTheTargets : Obligations.FamilyASnapTakesTheTargets := by
  intro ft b m pitch reso s T hsr hT
  rw [exec_toward_familyA hsr hT]
  exact maker_snaps T b m pitch s

/-- Settles O21: MKCA is RAMP_SET toward the Family A target, and this one a ramp. -/
theorem familyARampStartsTowardTheTargets : Obligations.FamilyARampStartsTowardTheTargets := by
  intro ft n b m pitch reso s T hn hsr hT
  rw [exec_toward_familyA hsr hT]
  exact maker_ramps hn T b m pitch s

/-- Settles O22: MKCB is RAMP_SET toward the Family B target, and this one a snap. -/
theorem familyBSnapTakesTheTargets : Obligations.FamilyBSnapTakesTheTargets := by
  intro mode b m pitch reso drive s T hsr hinv hT
  rw [exec_toward_familyB hsr hinv hT]
  exact maker_snaps T b m pitch s

/-- Settles O23: MKCB is RAMP_SET toward the Family B target, and this one a ramp. -/
theorem familyBRampStartsTowardTheTargets : Obligations.FamilyBRampStartsTowardTheTargets := by
  intro mode n b m pitch reso drive s T hn hsr hinv hT
  rw [exec_toward_familyB hsr hinv hT]
  exact maker_ramps hn T b m pitch s

/-- Settles O24: the check of a command decides whether it completes. -/
theorem makersRefusedOnInvalidSampleRate : Obligations.MakersRefusedOnInvalidSampleRate := by
  intro n b m pitch reso drive s
  refine ⟨fun h ft => ?_, fun h mode => ?_, fun hsr ft => ?_, fun hsr hinv mode => ?_⟩
  · exact exec_refused_of_not_rateOk (mt rateOk_mkcaInstr_iff.mp h)
  · exact exec_refused_of_not_rateOk (mt rateOk_mkcbInstr_iff.mp h)
  · exact (exec_completes_iff _ s).mpr (rateOk_mkcaInstr_iff.mpr hsr)
  · exact (exec_completes_iff _ s).mpr (rateOk_mkcbInstr_iff.mpr ⟨hsr, hinv⟩)

/-- Settles O26: a NaN passes through every operation and angle function on the way to the targets, and a maker stores
it or the NaN of its ramp. -/
theorem naNFrequencyGivesNaNTargets : Obligations.NaNFrequencyGivesNaNTargets := by
  refine ⟨fun fp ft f sr reso T hT hf => ?_, fun fp mode f sr srInv reso drive T hT hf => ?_,
    fun p n b m pitch reso drive s hm hprod => ⟨fun ft hrate => ?_, fun mode hrate => ?_⟩⟩
  · rw [eq_targetsA hT]
    exact targetsA_of_isNaN hf
  · rw [eq_targetsB hT]
    exact targetsB_of_isNaN hf
  · rw [execWith_mkcaInstr hrate]
    exact maker_sets_nf hm (targetsA_of_isNaN (isNaN_fmap hprod)).1 n b pitch s
  · rw [execWith_mkcbInstr hrate]
    exact maker_sets_nf hm (targetsB_of_isNaN (isNaN_fmap hprod)).1 n b pitch s

/-- Settles O27: a maker whose check passes is RAMP_SET, here of no lane. -/
theorem emptyMaskWritesNothing : Obligations.EmptyMaskWritesNothing := by
  intro n b pitch reso drive s hsr
  constructor
  · intro ft
    obtain ⟨T, hT⟩ := exec_mkcaInstr_eq_maker hsr ft n b 0 pitch reso
    rw [hT]
    exact maker_empty_mask_writes_nothing T n b pitch s
  · intro hinv mode
    obtain ⟨T, hT⟩ := exec_mkcbInstr_eq_maker hsr hinv mode n b 0 pitch reso drive
    rw [hT]
    exact maker_empty_mask_writes_nothing T n b pitch s

/-- Settles O59: the check of the sample rate puts the ends of FMAP's clamp in order. -/
theorem frequencyStaysInItsRange : Obligations.FrequencyStaysInItsRange := by
  refine ⟨fun fp refFreq r sr hfin _ hge => ⟨fun hnum => clamp_mem ?_ hnum, isNaN_fmap⟩, fun _ _ => rfl⟩
  have hfrac : isFinite Const.fMaxFrac = true := by decide
  rwa [mul_draw_irrel hfrac hfin 1 0]

end Sys2Proof.Proofs
end

section
/-! The Family A processor (43_biquad_cascade_saturator.md): a lane of PROCA is the stages of R281, by induction on the
stages; every register it stores is a saturated stage value, within the saturator's bound. -/

namespace Sys2Proof.Machine
open Sys2Proof.Stated

/-! ### The stages of a lane (R281, R282) -/

/-- The input of stage `j`: the lane's input, then the output of the stage before. -/
def stageInput (x : Word) (out : Nat → Word) (j : Nat) : Word := if j = 0 then x else out (j - 1)

/-- What stage `j` stores, of its register values before the saturator. -/
def stageRegs (fp : Fp) (sat : Word → Word) (t1 t2 : Nat → Word) (j : Nat) : Word × Word :=
  (fp.flush (sat (t1 j)), fp.flush (sat (t2 j)))

section Stages
variable {fp : Fp} {c : CoeffsA} {z out t1 t2 : Nat → Word} {x : Word} {n : Nat}
  (h : Stages fp c.a1 c.a2 c.b0 c.b1 c.b2 z x n out t1 t2) (sat : Word → Word)
include h

theorem biquadStage_of_stages {j : Nat} (hj : j < n) :
    biquadStage fp (16 * j) sat c (stageInput x out j) (z (2 * j)) (z (2 * j + 1)) =
      ⟨out j, (stageRegs fp sat t1 t2 j).1, (stageRegs fp sat t1 t2 j).2⟩ := by
  obtain ⟨hout, ht1, ht2⟩ := h j hj
  rw [stageRegs, ht1, ht2, hout]
  rfl

/-- The chain from stage `j` on: its remaining registers, and the input a stage after the last would have. -/
theorem biquadChain_of_stages {j m : Nat} (hm : j + m = n) :
    biquadChain fp sat c j ((List.range' j m).map fun i => (z (2 * i), z (2 * i + 1))) (stageInput x out j) =
      ((List.range' j m).map (stageRegs fp sat t1 t2), stageInput x out n) := by
  induction m generalizing j with
  | zero =>
    subst hm
    rfl
  | succ m ih =>
    have hstage := biquadStage_of_stages h sat (j := j) (by omega)
    have hrest := ih (j := j + 1) (by omega)
    simp only [List.range'_succ, List.map_cons, biquadChain, hstage]
    rw [show out j = stageInput x out (j + 1) from rfl, hrest]

end Stages

/-- A_Z1(s) = 2s and A_Z2(s) = 2s + 1 (10_state.md R36). -/
theorem procaSlots_eq {n : Nat} (hn : n ≤ 4) :
    procaSlots n = (List.range' 0 n).map fun j => (Fin.ofNat 8 (2 * j), Fin.ofNat 8 (2 * j + 1)) := by
  interval_cases n <;> rfl

section Lane
variable {s : State} {b : BitVec 4} {l : Lane} {x : Lanes} {n : Nat} {out t1 t2 : Nat → Word} (hn : n ≤ 4)
  (h : LaneStages s b l (x.at l) n out t1 t2) (k : SatKind)
include hn h

/-- The lane of PROCA is the stages the statements speak of. -/
theorem procaLane_of_laneStages :
    procaLane Config.hw s.draws s.mem n k b.toNat x l =
      ((List.range' 0 n).map (stageRegs (laneFp s l) (saturator Config.hw k) t1 t2), stageInput (x.at l) out n) := by
  have hregs : procaRegs s.mem b.toNat n l = (List.range' 0 n).map fun j =>
      (s.mem.get ⟨.R, b.toNat, Fin.ofNat 8 (2 * j), l⟩, s.mem.get ⟨.R, b.toNat, Fin.ofNat 8 (2 * j + 1), l⟩) := by
    rw [procaRegs, procaSlots_eq hn, List.map_map]
    rfl
  rw [procaLane, hregs]
  exact biquadChain_of_stages (c := coeffsA s.mem b.toNat l) h (saturator Config.hw k) (Nat.zero_add n)

/-- PROCA stores the two saturated values of each stage in the stage's two register slots. -/
theorem mem_procaWrites_of_laneStages {j : Nat} {i1 i2 : Slot} (hj : j < n) (h1 : i1.val = 2 * j)
    (h2 : i2.val = 2 * j + 1) :
    (⟨.R, b.toNat, i1, l⟩, (laneFp s l).flush (saturator Config.hw k (t1 j))) ∈
      procaWrites Config.hw s.draws s.mem n k b.toNat x ∧
    (⟨.R, b.toNat, i2, l⟩, (laneFp s l).flush (saturator Config.hw k (t2 j))) ∈
      procaWrites Config.hw s.draws s.mem n k b.toNat x := by
  have hslot : ∀ {i : Slot} {v : Nat}, i.val = v → i = Fin.ofNat 8 v := by
    rintro i _ rfl
    exact (Fin.ofNat_val_eq_self i).symm
  have hzip : ((Fin.ofNat 8 (2 * j), Fin.ofNat 8 (2 * j + 1)),
      stageRegs (laneFp s l) (saturator Config.hw k) t1 t2 j) ∈
      (procaSlots n).zip (procaLane Config.hw s.draws s.mem n k b.toNat x l).1 := by
    rw [procaLane_of_laneStages hn h k, procaSlots_eq hn, List.zip_map']
    exact List.mem_map_of_mem (List.mem_range'_1.mpr (by omega))
  exact ⟨mem_procaWrites.mpr (.inl (mem_procaLaneWrites.mpr ⟨rfl, rfl, rfl, _, hzip, .inl ⟨hslot h1, rfl⟩⟩)),
    mem_procaWrites.mpr (.inl (mem_procaLaneWrites.mpr ⟨rfl, rfl, rfl, _, hzip, .inr ⟨hslot h2, rfl⟩⟩))⟩

end Lane

/-! ### What PROCA leaves -/

theorem stageCount_le_four (nstg : BitVec 2) : stageCount nstg ≤ 4 := by
  have := stageCount_cases nstg
  omega

section Exec
variable {nstg : BitVec 2} {k : SatKind} {b : BitVec 4} {x : Lanes} {s t : State}
  (ht : exec (.proca nstg k b x) s = .next t)
include ht

theorem exec_proca_word_of_mem {w : WordRef} {v : Word}
    (h : (w, v) ∈ procaWrites Config.hw s.draws s.mem (stageCount nstg) k b.toNat x) : t.mem.word w = some v := by
  cases ht
  rw [complete_mem]
  exact word_procaWrites (stageCount_le_four nstg) h

theorem exec_proca_nf_of_isNaN_mem {w : WordRef} {v : Word}
    (h : (w, v) ∈ procaWrites Config.hw s.draws s.mem (stageCount nstg) k b.toNat x) (hv : isNaN v = true) :
    t.nf = true := by
  cases ht
  exact nfAfter_of_isNaN_mem h hv _ _

/-- PROCA returns the output of the last stage of each lane, unsaturated. -/
theorem exec_proca_results {out t1 t2 : Lane → Nat → Word}
    (h : ∀ l, LaneStages s b l (x.at l) (stageCount nstg) (out l) (t1 l) (t2 l)) :
    t.results = [out 0 nstg.toNat, out 1 nstg.toNat, out 2 nstg.toNat, out 3 nstg.toNat] := by
  have hout : ∀ l, (procaLane Config.hw s.draws s.mem (stageCount nstg) k b.toNat x l).2 = out l nstg.toNat :=
    fun l => congrArg Prod.snd (procaLane_of_laneStages (stageCount_le_four nstg) (h l) k)
  cases ht
  simp only [complete_results, Lanes.toList, Lanes.ofFn, bankOf, hout]

end Exec

/-! ### The saturators' bounds (40_numerics.md R162, R163; R284, R285) -/

theorem saturator_ok (p : Params) (k : SatKind) (v : Word) : satOk (saturatorBound p k) v (saturator p k v) = true := by
  cases k
  · exact satTanh_ok p v
  · exact satSoft_ok p v

theorem saturatorBound_ok (p : Params) (k : SatKind) :
    isFinite (saturatorBound p k) = true ∧ signOf (saturatorBound p k) = false := by
  cases k
  · exact (by decide : isFinite Const.one = true ∧ signOf Const.one = false)
  · exact softBound_ok p

/-- `r` is finite and at most the bound of saturator `k` in magnitude. -/
def WithinSaturatorBound (p : Params) (k : SatKind) (r : Word) : Prop :=
  isFinite r = true ∧ orderKey (fneg (saturatorBound p k)) ≤ orderKey r ∧ orderKey r ≤ orderKey (saturatorBound p k)

theorem withinSaturatorBound_of_magOf_le {p : Params} {k : SatKind} {r : Word}
    (h : magOf r ≤ magOf (saturatorBound p k)) : WithinSaturatorBound p k r := by
  obtain ⟨hfin, hsign⟩ := saturatorBound_ok p k
  have hkey : orderKey (saturatorBound p k) = magOf (saturatorBound p k) := by simp [orderKey, hsign]
  have hneg : orderKey (fneg (saturatorBound p k)) = -(magOf (saturatorBound p k) : Int) := by simp [orderKey, hsign]
  rw [WithinSaturatorBound, hneg, hkey]
  exact ⟨isFinite_iff.mpr (h.trans_lt (isFinite_iff.mp hfin)), orderKey_mem_of_magOf_le h⟩

/-- A saturated value that is no NaN stays within the bound when it is stored. -/
theorem withinSaturatorBound_flush (fp : Fp) (p : Params) (k : SatKind) {v : Word} (hv : isNaN v = false) :
    WithinSaturatorBound p k (fp.flush (saturator p k v)) :=
  withinSaturatorBound_of_magOf_le ((magOf_flush_le fp _).trans (satOk_bound hv (saturator_ok p k v)))

theorem isNaN_flush_saturator (fp : Fp) (p : Params) (k : SatKind) {v : Word} (hv : isNaN v = true) :
    isNaN (fp.flush (saturator p k v)) = true :=
  (isNaN_flush fp _).trans (isNaN_of_satOk (saturator_ok p k v) hv)

/-- A register PROCA stores is within the bound, or a NaN that sets NF, as the value before the saturator is. -/
theorem exec_proca_register_bounded {nstg : BitVec 2} {k : SatKind} {b : BitVec 4} {x : Lanes} {s t : State}
    (ht : exec (.proca nstg k b x) s = .next t) {fp : Fp} {w : WordRef} {v : Word}
    (h : (w, fp.flush (saturator Config.hw k v)) ∈
      procaWrites Config.hw s.draws s.mem (stageCount nstg) k b.toNat x) :
    (isNaN v = false → ∃ r, t.mem.word w = some r ∧ WithinSaturatorBound Config.hw k r) ∧
    (isNaN v = true → ∃ r, t.mem.word w = some r ∧ isNaN r = true ∧ t.nf = true) := by
  refine ⟨fun hv => ⟨_, exec_proca_word_of_mem ht h, withinSaturatorBound_flush fp _ k hv⟩, fun hv => ?_⟩
  have hr := isNaN_flush_saturator fp Config.hw k hv
  exact ⟨_, exec_proca_word_of_mem ht h, hr, exec_proca_nf_of_isNaN_mem ht h hr⟩

end Sys2Proof.Machine

namespace Sys2Proof.Proofs
open Sys2Proof.Machine Sys2Proof.Stated

/-- Settles O29: PROCA stores the registers of its stages, returns their last outputs, and is one RAMP_STEP. -/
theorem procaRunsItsStages : Obligations.ProcaRunsItsStages := by
  intro nstg k b x s out t1 t2 h
  have hproc : (Instr.proca nstg k b x).isProcessor = true := rfl
  obtain ⟨t, ht⟩ := exec_processor_completes hproc s
  refine ⟨t, ht, fun l j i1 i2 hj h1 h2 => ?_, exec_proca_results ht h, exec_rampStepped hproc ht⟩
  obtain ⟨hw1, hw2⟩ := mem_procaWrites_of_laneStages (stageCount_le_four nstg) (h l) k hj h1 h2
  exact ⟨exec_proca_word_of_mem ht hw1, exec_proca_word_of_mem ht hw2⟩

/-- Settles O30: the frame of every command, at the words PROCA stores. -/
theorem procaChangesOnlyItsRegistersAndC : Obligations.ProcaChangesOnlyItsRegistersAndC := by
  intro nstg k b x s t h
  obtain ⟨hbytes, hcontrol, hquery⟩ := exec_frame h
  exact ⟨bytesUnchangedOutside_mono hbytes fun w hw => by simpa [Instr.stores, processorStores] using hw,
    hcontrol, hquery⟩

/-- Settles O31: each register PROCA stores is a saturated stage value. -/
theorem procaRegistersStayBounded : Obligations.ProcaRegistersStayBounded := by
  intro nstg k b x s t l out t1 t2 j i1 i2 ht hst hj h1 h2
  obtain ⟨hw1, hw2⟩ := mem_procaWrites_of_laneStages (stageCount_le_four nstg) hst k hj h1 h2
  exact ⟨exec_proca_register_bounded ht hw1, exec_proca_register_bounded ht hw2⟩

end Sys2Proof.Proofs
end

section
/-! The Family B processors (44_ladder_filter_nlf.md): a lane of a ladder is steps (2) to (8) of R325 or R326, on the
coefficients RAMP_STEP leaves and the registers as they were. -/

namespace Sys2Proof.Machine
open Sys2Proof.Stated

/-! ### A lane (R325, R326) -/

/-- The model's lane is the steps the statements speak of: the model's own values are the intermediates. -/
theorem ladderSteps_ladderLane (mode : PassMode) (fp : Fp) (c z : Slot → Word) (x : Word) {o : LadderOut}
    (ho : o = ladderLane mode fp (satTanh Config.hw) ⟨c 0, c 1, c 2, c 3, c 4, c 5, c 6, c 7⟩ x (z 0) (z 1) (z 2)) :
    LadderSteps mode fp c x z o.y o.z1 o.z2 o.z3 := by
  subst ho
  cases mode <;> simp only [LadderSteps, ladderLane, ownSection, otherSection, feedbackSum] <;>
    exact ⟨_, _, _, _, _, _, _, _, Prod.mk.eta, rfl, rfl, rfl, rfl, Prod.mk.eta, rfl, Prod.mk.eta, rfl⟩

/-- RAMP_STEP leaves the registers. -/
theorem get_R_setAll_rampStepWrites (p : Params) (draws : Nat) (m : Memory) (b : Nat) (i : Slot) (l : Lane) :
    (m.setAll (rampStepWrites p draws m b)).get ⟨.R, b, i, l⟩ = m.get ⟨.R, b, i, l⟩ := by
  have hkeys : (⟨.R, b, i, l⟩ : WordRef) ∉ (rampStepWrites p draws m b).map Prod.fst := by
    simp [mem_rampStepWrites]
  simp only [Memory.get, word_setAll_notMem hkeys]

theorem get_C_setAll_rampStepWrites (p : Params) (draws : Nat) (m : Memory) (b : Nat) (i : Slot) (l : Lane) :
    (m.setAll (rampStepWrites p draws m b)).get ⟨.C, b, i, l⟩ = rampStepWord p draws m b i l :=
  get_of_word (word_rampStepWrites (mem_rampStepWrites.mpr ⟨rfl, rfl, rfl⟩))

/-! ### What a ladder leaves -/

section Procb
variable {mode : PassMode} {b : BitVec 4} {x : Lanes} {s t : State} (ht : procb Config.hw mode b x s = .next t)
include ht

theorem procb_word_of_mem {w : WordRef} {v : Word}
    (h : (w, v) ∈ procbWrites Config.hw s.draws mode s.mem b.toNat x) : t.mem.word w = some v := by
  obtain rfl := Host.Outcome.next.inj ((procb_eq ..).symm.trans ht)
  exact word_procbWrites h

theorem procb_results :
    t.results = (Lanes.ofFn fun l => (procbStepped Config.hw s.draws mode s.mem b.toNat x l).y).toList := by
  obtain rfl := Host.Outcome.next.inj ((procb_eq ..).symm.trans ht)
  rfl

/-- The coefficients a lane reads, which RAMP_STEP left, are those the command leaves. -/
theorem procb_get_C (i : Slot) (l : Lane) :
    t.mem.get ⟨.C, b.toNat, i, l⟩ =
      (s.mem.setAll (rampStepWrites Config.hw s.draws s.mem b.toNat)).get ⟨.C, b.toNat, i, l⟩ := by
  rw [get_C_setAll_rampStepWrites]
  exact get_of_word (procb_word_of_mem ht (mem_procbWrites.mpr ⟨rfl, .inl ⟨rfl, rfl⟩⟩))

theorem procbStepped_eq_ladderLane (l : Lane) :
    let c := fun i => t.mem.get ⟨.C, b.toNat, i, l⟩
    let z := fun i => s.mem.get ⟨.R, b.toNat, i, l⟩
    procbStepped Config.hw s.draws mode s.mem b.toNat x l =
      ladderLane mode (laneFp s l) (satTanh Config.hw) ⟨c 0, c 1, c 2, c 3, c 4, c 5, c 6, c 7⟩ (x.at l)
        (z 0) (z 1) (z 2) := by
  simp only [procb_get_C ht, procbStepped, procbLane, get_R_setAll_rampStepWrites]
  rfl

theorem ladderRan_of_procb : LadderRan mode s t b x := by
  refine ⟨_, procb_results ht, fun l => ?_⟩
  have hword : ∀ {i : Slot} {v : Word}, _ → t.mem.word ⟨.R, b.toNat, i, l⟩ = some v := fun h =>
    procb_word_of_mem ht (mem_procbWrites.mpr ⟨rfl, .inr ⟨rfl, h⟩⟩)
  rw [lanes_ofFn_at]
  exact ⟨_, _, _, ladderSteps_ladderLane mode _ _ _ _ (procbStepped_eq_ladderLane ht l),
    hword (.inl ⟨rfl, rfl⟩), hword (.inr (.inl ⟨rfl, rfl⟩)), hword (.inr (.inr ⟨rfl, rfl⟩))⟩

end Procb

/-- A processor whose meaning is a Family B processor's completes, with one RAMP_STEP and the ladder on its outcome. -/
theorem exec_runs_ladder {i : Instr} {mode : PassMode} {x : Lanes} {s : State} (hi : i.isProcessor = true)
    (hexec : exec i s = procb Config.hw mode i.inst x s) :
    ∃ t, exec i s = .next t ∧ RampStepped s t i.inst ∧ LadderRan mode s t i.inst x := by
  obtain ⟨t, ht⟩ := exec_processor_completes hi s
  exact ⟨t, ht, exec_rampStepped hi ht, ladderRan_of_procb (hexec.symm.trans ht)⟩

end Sys2Proof.Machine

namespace Sys2Proof.Proofs
open Sys2Proof.Machine Sys2Proof.Stated

/-- Settles O33: PROCBLP is the Family B processor in its low-pass variant. -/
theorem procblpRunsTheLowpassLadder : Obligations.ProcblpRunsTheLowpassLadder :=
  fun b x _ => exec_runs_ladder (i := .procblp b x) rfl rfl

/-- Settles O34: PROCBHP is the Family B processor in its high-pass variant. -/
theorem procbhpRunsTheHighpassLadder : Obligations.ProcbhpRunsTheHighpassLadder :=
  fun b x _ => exec_runs_ladder (i := .procbhp b x) rfl rfl

end Sys2Proof.Proofs
end

section
/-! Unwritten reads and non-finite values (60_exceptions.md): which unwritten word a command records, where a model's
run ends, and NF from the words a command leaves, since each word it stores holds what was written. -/

namespace Sys2Proof.Machine
open Sys2Proof.Stated

/-! ### The first read of a processor (R372, R374) -/

theorem firstUnwritten_of_head? {m : Memory} {reads : List WordRef} {w : WordRef} (hw : reads.head? = some w)
    (hnone : m.word w = none) : firstUnwritten m reads = some w := by
  obtain ⟨tail, rfl⟩ := List.head?_eq_some_iff.mp hw
  simp [firstUnwritten, hnone]

/-- PROCA begins with the first register of lane 0 (43_biquad_cascade_saturator.md R281). -/
theorem head?_procaReads (nstg : BitVec 2) (b : Nat) :
    (procaReads (stageCount nstg) b).head? = some ⟨.R, b, 0, 0⟩ := rfl

/-- A ladder begins with RAMP_STEP, and that with C of slot 0, lane 0 (44_ladder_filter_nlf.md R325, R326). -/
theorem head?_procbReads (b : Nat) : (procbReads b).head? = some ⟨.C, b, 0, 0⟩ := rfl

theorem procb_records_first_C (mode : PassMode) (b : BitVec 4) (x : Lanes) {s : State}
    (h : s.mem.word ⟨.C, b.toNat, 0, 0⟩ = none) :
    ∃ t, procb Config.hw mode b x s = .next t ∧ t.uninit = some ⟨.C, b.toNat, 0, 0⟩ :=
  ⟨_, procb_eq .., firstUnwritten_of_head? (head?_procbReads _) h⟩

/-- A command that reads an unwritten word records an unwritten word it reads. -/
theorem exec_records_unwritten {i : Instr} {s t : State} (h : exec i s = .next t) {w : WordRef}
    (hload : i.loads w = true) (hnone : s.mem.word w = none) :
    ∃ w', i.loads w' = true ∧ s.mem.word w' = none ∧ t.uninit = some w' := by
  obtain ⟨-, hall⟩ | ⟨w', hrec, hload', hnone'⟩ := exec_uninit h
  · have hsome := hall w hload
    simp [hnone] at hsome
  · exact ⟨w', hload', hnone', hrec⟩

/-- A command whose reads are all written records none. -/
theorem exec_records_none {i : Instr} {s t : State} (h : exec i s = .next t) (hload : LoadsWritten i s) :
    t.uninit = none := by
  obtain ⟨hnone, -⟩ | ⟨w, -, hw, hnone⟩ := exec_uninit h
  · exact hnone
  · have hsome := hload w hw
    simp [hnone] at hsome

/-! ### Each word a command stores holds what was written (20_memory.md R82) -/

/-- `o` is a completion of `s` that writes exactly the words `stored` names, and leaves in each what was written. -/
def CompletesStoring (s : State) (stored : WordRef → Bool) (o : Host.Outcome State Fault Refusal) : Prop :=
  ∃ reads ws ys q, o = .next (s.complete reads ws ys q) ∧ (∀ w, w ∈ ws.map Prod.fst ↔ stored w = true) ∧
    ∀ {w v}, (w, v) ∈ ws → (s.mem.setAll ws).word w = some v

theorem completesStoring_of_eq_maker {p : Params} {T : Slot → Word} {n : BitVec 12} {b m : BitVec 4} {pitch : Word}
    {s : State} {o : Host.Outcome State Fault Refusal} (ho : o = maker p T n b m pitch s) :
    CompletesStoring s (makerStores n b m) o :=
  ⟨_, _, _, _, ho, fun _ => keys_rampSetWrites.trans makerStores_iff.symm, word_rampSetWrites⟩

theorem processorStores_iff {k : Nat} {b : BitVec 4} {w : WordRef} :
    processorStores k b w = true ↔ w.bank = b.toNat ∧ (w.region = .C ∨ (w.region = .R ∧ w.slot.val < k)) := by
  simp [processorStores]

theorem proca_completesStoring (p : Params) (nstg : BitVec 2) (satk : SatKind) (b : BitVec 4) (x : Lanes) (s : State) :
    CompletesStoring s (processorStores (2 * stageCount nstg) b) (proca p nstg satk b x s) :=
  ⟨_, _, _, _, rfl, fun _ => keys_procaWrites.trans processorStores_iff.symm,
    word_procaWrites (stageCount_le_four nstg)⟩

theorem procb_completesStoring (p : Params) (mode : PassMode) (b : BitVec 4) (x : Lanes) (s : State) :
    CompletesStoring s (processorStores 3 b) (procb p mode b x s) :=
  ⟨_, _, _, _, procb_eq .., fun _ => keys_procbWrites.trans processorStores_iff.symm, word_procbWrites⟩

/-- A command that answers a next state has stored what it wrote. -/
theorem exec_completesStoring {i : Instr} {s t : State} (h : exec i s = .next t) :
    CompletesStoring s i.stores (.next t) := by
  rw [← h]
  cases i
  case proca nstg satk b x => exact proca_completesStoring Config.hw nstg satk b x s
  case procblp b x => exact procb_completesStoring Config.hw .lp b x s
  case procbhp b x => exact procb_completesStoring Config.hw .hp b x s
  case mkcbLp | mkcbHp =>
    all_goals
      obtain ⟨T, hT⟩ := mkcb_next h
      exact completesStoring_of_eq_maker (hT s ⟨rfl, rfl, rfl⟩)
  all_goals
    obtain ⟨T, hT⟩ := mkca_next h
    exact completesStoring_of_eq_maker (hT s ⟨rfl, rfl, rfl⟩)

/-! ### NF (R373) -/

theorem nfAfter_iff {nf : Bool} {written ys : List Word} :
    nfAfter nf written ys = true ↔
      nf = true ∨ (∃ v ∈ written, isFinite v = false) ∨ ∃ y ∈ ys, isFinite y = false := by
  simp [nfAfter, anyNonFinite, or_assoc]

/-- After a completion a non-finite value was written exactly where a stored word holds one. -/
theorem CompletesStoring.nf_iff {s t : State} {stored : WordRef → Bool} (h : CompletesStoring s stored (.next t)) :
    t.nf = true ↔
      s.nf = true ∨ (∃ w v, stored w = true ∧ t.mem.word w = some v ∧ isFinite v = false) ∨
      ∃ y ∈ t.results, isFinite y = false := by
  obtain ⟨reads, ws, ys, q, ht, hkeys, hholds⟩ := h
  obtain rfl := Host.Outcome.next.inj ht
  rw [complete_nf, nfAfter_iff, complete_mem, complete_results]
  refine or_congr_right (or_congr_left ⟨?_, ?_⟩)
  · rintro ⟨v, hv, hfin⟩
    obtain ⟨⟨w, v⟩, hmem, rfl⟩ := List.mem_map.mp hv
    exact ⟨w, v, (hkeys w).mp (List.mem_map_of_mem hmem), hholds hmem, hfin⟩
  · rintro ⟨w, v, hw, hword, hfin⟩
    obtain ⟨⟨w, v'⟩, hmem, rfl⟩ := List.mem_map.mp ((hkeys w).mpr hw)
    obtain rfl : v' = v := Option.some.inj ((hholds hmem).symm.trans hword)
    exact ⟨v', List.mem_map_of_mem hmem, hfin⟩

end Sys2Proof.Machine

namespace Sys2Proof.Proofs
open Sys2Proof.Machine Sys2Proof.Stated

/-- Settles O10. -/
theorem idleStepHoldsTheState : Obligations.IdleStepHoldsTheState := fun _ => step_nil

/-- Settles O37: a processor completes in every state, and records the first of its reads where that is unwritten. -/
theorem processorsRecordUnwrittenReads : Obligations.ProcessorsRecordUnwrittenReads := by
  refine ⟨fun i s w hi hload hnone => ?_, fun nstg k b x s h => ?_, fun b x s h => ?_⟩
  · obtain ⟨t, ht⟩ := exec_processor_completes hi s
    obtain ⟨w', hload', hnone', hrec⟩ := exec_records_unwritten ht hload hnone
    exact ⟨w', t, hload', hnone', ht, hrec⟩
  · exact ⟨_, rfl, firstUnwritten_of_head? (head?_procaReads nstg _) h⟩
  · exact ⟨procb_records_first_C .lp b x h, procb_records_first_C .hp b x h⟩

/-- Settles O38: the run sees only what the completed step records of its reads. -/
theorem runEndsOnlyAtUnwrittenReads : Obligations.RunEndsOnlyAtUnwrittenReads := by
  intro s ws rest i hp hd hrate
  obtain ⟨t, ht⟩ := (exec_completes_iff i _).mpr hrate
  have hstep : step s = .next t := (stepRunsTheDecodedCommand s ws rest i hp hd).trans ht
  refine ⟨t, hstep, fun hload => ?_, fun w hload hnone => ?_⟩
  · rw [runStep, hstep, endRun_next (exec_records_none ht hload)]
  · obtain ⟨w', hload', hnone', hrec⟩ := exec_records_unwritten ht hload hnone
    exact ⟨w', hload', hnone', by rw [runStep, hstep, endRun_uninit hrec]⟩

/-- Settles O39: the values a command wrote are those its stored words hold. -/
theorem nonFiniteFlagAfterACommand : Obligations.NonFiniteFlagAfterACommand :=
  fun _ _ _ h => (exec_completesStoring h).nf_iff

end Sys2Proof.Proofs
end

section
/-! Reset and readiness (70_reset_and_hazards.md): the words written after a command are those written before it and
those it stores, so that a ready bank stays ready, and a snap on all four lanes writes what the registers leave. -/

namespace Sys2Proof.Machine
open Sys2Proof.Stated

/-! ### Which words a command leaves written (20_memory.md R82) -/

theorem exec_isSome_iff {i : Instr} {s t : State} (h : exec i s = .next t) (w : WordRef) :
    (t.mem.word w).isSome = true ↔ i.stores w = true ∨ (s.mem.word w).isSome = true := by
  by_cases hw : i.stores w = true
  · obtain ⟨reads, ws, ys, rfl, -, hkeys, -⟩ := exec_next h
    simpa [hw] using isSome_setAll_of_mem (m := s.mem) ((hkeys w).mpr hw)
  · simp [hw, exec_word_of_not_stores h hw]

/-- Every word a command reads is of its bank. -/
theorem loads_bank {i : Instr} {w : WordRef} (h : i.loads w = true) : w.bank = i.inst.toNat := by
  have maker : ∀ {n b m}, makerLoads n b m w = true → w.bank = b.toNat := by
    simp +contextual [makerLoads]
  have processor : ∀ {k b}, processorLoads k b w = true → w.bank = b.toNat := by
    simp +contextual [processorLoads]
  cases i
  case proca | procblp | procbhp => exact processor h
  all_goals exact maker h

/-! ### A ready bank (R402) -/

theorem loadsWritten_of_bankReady {i : Instr} {s : State} (h : s.bankReady i.inst.toNat) : LoadsWritten i s := by
  intro w hw
  have hword := h w.region w.slot w.lane
  rwa [← loads_bank hw] at hword

theorem exec_bankReady {i : Instr} {s t : State} {b : Nat} (he : exec i s = .next t) (h : s.bankReady b) :
    t.bankReady b :=
  fun r j l => (exec_isSome_iff he _).mpr (.inr (h r j l))

/-- A snap maker on all four lanes stores all of C and dC of its bank. -/
theorem snap_bankReady {i : Instr} {b : BitVec 4} {pitch : Word} {s : State} (hi : IsMaker i 0 b 15 pitch)
    (hrate : rateOk Config.hw i s = true) (hR : ∀ j l, (s.mem.word ⟨.R, b.toNat, j, l⟩).isSome = true) :
    ∃ t, exec i s = .next t ∧ t.bankReady b.toNat := by
  obtain ⟨t, ht⟩ := (exec_completes_iff i s).mpr hrate
  obtain ⟨-, hstores, -⟩ := hi
  have hmask : ∀ l : Lane, (15 : BitVec 4).getLsbD l.val = true := by decide
  refine ⟨t, ht, fun r j l => (exec_isSome_iff ht _).mpr ?_⟩
  rw [hstores, makerStores_iff]
  cases r
  case C => exact .inl ⟨rfl, hmask l, .inr ⟨rfl, rfl⟩⟩
  case dC => exact .inl ⟨rfl, hmask l, .inl rfl⟩
  case R => exact .inr (hR j l)

end Sys2Proof.Machine

namespace Sys2Proof.Proofs
open Sys2Proof.Machine Sys2Proof.Stated

/-- Settles O46: a command reads its own bank only, and leaves every written word written. -/
theorem readyBankRunsAndStaysReady : Obligations.ReadyBankRunsAndStaysReady := by
  intro i s hready hrate
  obtain ⟨t, ht⟩ := (exec_completes_iff i s).mpr hrate
  exact ⟨t, ht, exec_records_none ht (loadsWritten_of_bankReady hready), exec_bankReady ht hready⟩

/-- Settles O47: every maker is one snap on all four lanes, whichever its targets. -/
theorem snapOnAllLanesReadiesTheBank : Obligations.SnapOnAllLanesReadiesTheBank := by
  intro b pitch reso drive s hsr hR
  exact ⟨fun ft => snap_bankReady (mkcaInstr_isMaker ft 0 b 15 pitch reso) (rateOk_mkcaInstr_iff.mpr hsr) hR,
    fun hinv mode =>
      snap_bankReady (mkcbInstr_isMaker mode 0 b 15 pitch reso drive) (rateOk_mkcbInstr_iff.mpr ⟨hsr, hinv⟩) hR⟩

/-- Settles O11: the next input is the reset event, which is performed on the inputs after it. -/
theorem resetEventRestoresResetState : Obligations.ResetEventRestoresResetState := by
  intro s rest hp
  rw [step_cons hp]
  rfl

end Sys2Proof.Proofs
end
